-- ==== Sys2Proof/Word.lean ====
section
/-! DEFINITION. The word types of the HUFC block (00_scope.md R9, R10, R11): every quantity is unsigned. -/

namespace Sys2Proof

/-- One byte: a byte value 0..255, a wire byte, a buffer byte. -/
abbrev Byte := BitVec 8

/-- A 32-bit register, bus address or command word (10_state.md R24, 30_encoding.md R120). -/
abbrev Word := BitVec 32

/-- A 64-bit register: ORIG_LEN and BIT_LEN (10_state.md R33, R34). -/
abbrev DWord := BitVec 64

/-- A node weight or frequency counter, WEIGHT_BITS = 128 (00_scope.md R9). -/
abbrev Weight := BitVec 128

/-- A code: its element 0 is the step taken at the root, `true` is "went via a left child"
(00_scope.md R14). -/
abbrev Code := List Bool

end Sys2Proof
end

