-- ==== Sys2Proof/Syntax.lean ====
section
/-! DEFINITION. The thirteen commands of the block, one constructor per row of spec/opcode_table.json
(30_encoding.md R122). -/

namespace Sys2Proof

/-- A decoded command (30_encoding.md R124). The operand fields have the widths of R121. -/
inductive Instr where
  /-- 40_control.md R177 -/
  | nop
  /-- 40_control.md R178 -/
  | clear
  /-- 41_analysis.md R192 -/
  | count
  /-- 41_analysis.md R195 -/
  | build
  /-- 41_analysis.md R205, `value` is VALUE = word[15:8] -/
  | path (value : Byte)
  /-- 42_tree_codec.md R232 -/
  | serialize
  /-- 42_tree_codec.md R236, `exact` is EXACT = word[8] -/
  | deserialize (exact : Bool)
  /-- 43_bitstream.md R262 -/
  | wrlen
  /-- 43_bitstream.md R266 -/
  | rdlen
  /-- 43_bitstream.md R270 -/
  | pack
  /-- 43_bitstream.md R276 -/
  | unpack
  /-- 44_pipeline.md R301 -/
  | compress
  /-- 44_pipeline.md R304 -/
  | decompress
  deriving DecidableEq, Repr

end Sys2Proof
end

