-- ==== Sys2Proof/WellFormed.lean ====
section
/-! DEFINITION. Well-formedness of command words, from the match and mask table of 30_encoding.md R123.
It is written apart from the decoder (R124), so that the two can be held against each other. -/

namespace Sys2Proof

/-- One row of the match and mask table (30_encoding.md R122, R123). -/
structure EncodingRow where
  mnemonic : String
  mask : Word
  pattern : Word
  deriving DecidableEq, Repr

/-- A word selects a row when `(w & mask) == match` (30_encoding.md R123). -/
def EncodingRow.selects (r : EncodingRow) (w : Word) : Bool :=
  w &&& r.mask == r.pattern

/-- A format N row: every bit is fixed (30_encoding.md R123). -/
def EncodingRow.formatN (mnemonic : String) (opcode : Byte) : EncodingRow :=
  ⟨mnemonic, 0xFFFFFFFF, opcode.setWidth 32⟩

/-- The match and mask table of the thirteen commands (30_encoding.md R122, R123). -/
def encodingTable : List EncodingRow :=
  [.formatN "NOP" 0x00, .formatN "CLEAR" 0x01, .formatN "COUNT" 0x10, .formatN "BUILD" 0x11,
   ⟨"PATH", 0xFFFF00FF, 0x00000012⟩,
   .formatN "SERIALIZE" 0x20,
   ⟨"DESERIALIZE", 0xFFFFFEFF, 0x00000021⟩,
   .formatN "WRLEN" 0x30, .formatN "RDLEN" 0x31, .formatN "PACK" 0x32, .formatN "UNPACK" 0x33,
   .formatN "COMPRESS" 0x40, .formatN "DECOMPRESS" 0x41]

/-- A command word is well-formed when some row of the table selects it: a listed opcode with every
reserved bit 0 (30_encoding.md R125, R126). -/
def commandWordOk (w : Word) : Bool :=
  encodingTable.any fun r => r.selects w

/-- A command is well-formed: VALUE is 8 bits and EXACT one bit by their types (30_encoding.md R121),
so there is nothing left to check and every command term stands for an encodable command. -/
def Instr.wellFormed : Instr → Bool
  | .nop | .clear | .count | .build | .serialize | .wrlen | .rdlen | .pack | .unpack => true
  | .compress | .decompress => true
  | .path _ | .deserialize _ => true

end Sys2Proof
end

