-- ==== Sys2Proof/Decode.lean ====
section
/-! DEFINITION. The decoder of 30_encoding.md R124, total on every 32-bit word and rejecting by name, and
the encoder written from the formats of R120 to R123. -/

namespace Sys2Proof

/-- Why a word decodes to `Illegal` (30_encoding.md R125). Both reasons execute alike (40_control.md
R176). -/
inductive Illegal where
  /-- one of the 243 opcode values that R122 does not list -/
  | undefinedOpcode
  /-- a listed opcode with a nonzero reserved bit (R126) -/
  | reservedBit
  deriving DecidableEq, Repr

/-- OPCODE, `w[7:0]` (30_encoding.md R120). -/
def opcodeOf (w : Word) : Byte := w.extractLsb' 0 8

/-- VALUE, `w[15:8]` (30_encoding.md R121). -/
def valueOf (w : Word) : Byte := w.extractLsb' 8 8

/-- EXACT, `w[8]` (30_encoding.md R121). -/
def exactOf (w : Word) : Bool := w.getLsbD 8

/-- A decoded command, if the bits its format reserves are 0 (30_encoding.md R126). -/
def whenReservedZero (zero : Bool) (i : Instr) : Except Illegal Instr :=
  if zero then .ok i else .error .reservedBit

/-- The mnemonic of an opcode whose format is N (30_encoding.md R122, R124). -/
def formatNOpcode (op : Byte) : Option Instr :=
  if op = 0x00 then some .nop
  else if op = 0x01 then some .clear
  else if op = 0x10 then some .count
  else if op = 0x11 then some .build
  else if op = 0x20 then some .serialize
  else if op = 0x30 then some .wrlen
  else if op = 0x31 then some .rdlen
  else if op = 0x32 then some .pack
  else if op = 0x33 then some .unpack
  else if op = 0x40 then some .compress
  else if op = 0x41 then some .decompress
  else none

/-- `decode(w)` of 30_encoding.md R124. -/
def decode (w : Word) : Except Illegal Instr :=
  if opcodeOf w = 0x12 then whenReservedZero (w.extractLsb' 16 16 == 0) (.path (valueOf w))
  else if opcodeOf w = 0x21 then
    whenReservedZero (w.extractLsb' 9 23 == 0) (.deserialize (exactOf w))
  else match formatNOpcode (opcodeOf w) with
    | some i => whenReservedZero (w.extractLsb' 8 24 == 0) i
    | none => .error .undefinedOpcode

/-- The mnemonic of each command (30_encoding.md R122). -/
def Instr.mnemonic : Instr → String
  | .nop => "NOP"
  | .clear => "CLEAR"
  | .count => "COUNT"
  | .build => "BUILD"
  | .path _ => "PATH"
  | .serialize => "SERIALIZE"
  | .deserialize _ => "DESERIALIZE"
  | .wrlen => "WRLEN"
  | .rdlen => "RDLEN"
  | .pack => "PACK"
  | .unpack => "UNPACK"
  | .compress => "COMPRESS"
  | .decompress => "DECOMPRESS"

/-- The OPCODE of each command (30_encoding.md R122). -/
def Instr.opcode : Instr → Byte
  | .nop => 0x00
  | .clear => 0x01
  | .count => 0x10
  | .build => 0x11
  | .path _ => 0x12
  | .serialize => 0x20
  | .deserialize _ => 0x21
  | .wrlen => 0x30
  | .rdlen => 0x31
  | .pack => 0x32
  | .unpack => 0x33
  | .compress => 0x40
  | .decompress => 0x41

/-- Bits [15:8] of a command's word: VALUE in format V, EXACT in bit 8 in format F, 0 in format N
(30_encoding.md R120). -/
def Instr.operandByte : Instr → Byte
  | .path v => v
  | .deserialize e => if e then 1 else 0
  | .nop | .clear | .count | .build | .serialize | .wrlen | .rdlen | .pack | .unpack => 0
  | .compress | .decompress => 0

/-- The word of a command: bits [31:16] are 0 in every format (30_encoding.md R120). -/
def encode (i : Instr) : Word :=
  (0 : BitVec 16) ++ i.operandByte ++ i.opcode

/-- What the decoder reads from the low `nbits` bits of `w`, every bit above them 0: a command is one
32-bit word (30_encoding.md R120), written to CMD as it stands. -/
def decodeTableWord (nbits w : Nat) : Option Instr :=
  match decode (BitVec.ofNat 32 (w % 2 ^ nbits)) with
  | .ok i => some i
  | .error _ => none

end Sys2Proof
end

