-- ==== Sys2Proof/Config.lean ====
section
/-! DEFINITION. What an implementation fixes, and the free values of the model. -/

namespace Sys2Proof

/-- Which read of a buffer byte draws a free value: one name for each `MemRead` of the commands'
pseudocode and for the host's own reads, so that two reads of one byte never share a draw
(70_reset_and_hazards.md R363). -/
inductive Site where
  /-- a host read of IBUF or OBUF (20_memory.md R85, R86) -/
  | host
  /-- COUNT's read (41_analysis.md R192) -/
  | count
  /-- PACK's first pass, the leaf check (43_bitstream.md R270) -/
  | packCheck
  /-- PACK's second pass, the codes (43_bitstream.md R270) -/
  | packCode
  /-- RDLEN's read (43_bitstream.md R266) -/
  | length
  /-- DESERIALIZE's read of the root's declared length (42_tree_codec.md R236) -/
  | rootSize
  /-- the parse's read of a node's own header and value (42_tree_codec.md R237) -/
  | header
  /-- the parse's read of the left child's size, ahead of its own parse (42_tree_codec.md R237) -/
  | leftSize
  /-- UNPACK's read of a byte for stream bit `k`, with `i = k mod 8` (43_bitstream.md R276) -/
  | bit (i : Nat)
  deriving DecidableEq, Repr

/-- FREE VALUE. What a buffer byte that nothing has written since reset reads as, in draw epoch `epoch`, at
read `site`, at offset `offset` (20_memory.md R84, 70_reset_and_hazards.md R363, D45, I2); log 3. -/
opaque Config.freeByte (epoch : Nat) (site : Site) (offset : Nat) : Byte

/-- FREE VALUE. The code PACK appends for a byte that passed the leaf check on its first read and, being
unwritten, read as a byte without a leaf the second time: CODE is not defined there (10_state.md R47,
43_bitstream.md R270); log 6. -/
opaque Config.freeCode (epoch : Nat) (offset : Nat) : Code

/-- FREE VALUE. The read data of the OKAY response to a host write: 20_memory.md R83 gives every response
an rdata and no rule states it for a write; log 14. -/
opaque Config.freeWriteData (epoch : Nat) : Word

/-- DESIGN CHOICE (log 1). IBUF_SIZE of `State.reset`: the spec leaves the parameter OPEN in 1 .. 2^30
(00_scope.md R9, D8). This is the size 95_test_vectors.md uses. No step reads this constant: it is
State's own field from reset on. -/
def Config.ibufSize : Nat := 65536

/-- DESIGN CHOICE (log 1). OBUF_SIZE of `State.reset`, as `Config.ibufSize`. -/
def Config.obufSize : Nat := 65536

/-- The largest buffer size, 2^30 (00_scope.md R9). -/
def Config.maxBufferSize : Nat := 2 ^ 30

/-- MAX_NODES = 511 (00_scope.md R9). -/
def Config.maxNodes : Nat := 511

/-- MAX_CODE_LEN = 255 (00_scope.md R9). -/
def Config.maxCodeLen : Nat := 255

end Sys2Proof
end

