-- ==== Sys2Proof/Machine/Bytes.lean ====
section
/-! DEFINITION. Byte and bit sequences: big-endian fields and the packing of stream bits (00_scope.md R12,
30_encoding.md R136). -/

namespace Sys2Proof.Machine

/-- `ceil8(n) = (n + 7) div 8` (00_scope.md R12). -/
def ceil8 (n : Nat) : Nat := (n + 7) / 8

/-- `toBE_N(v)`: N bytes, the most significant first (00_scope.md R12). -/
def toBE : Nat → Nat → List Byte
  | 0, _ => []
  | n + 1, v => BitVec.ofNat 8 (v / 256 ^ n) :: toBE n v

/-- `BE(s)`: the value of a byte sequence read big-endian (00_scope.md R12). -/
def ofBE (s : List Byte) : Nat :=
  s.foldl (fun acc b => acc * 256 + b.toNat) 0

/-- The byte whose bit i is `f i` (30_encoding.md R136: Σ S[8j+i]·2^i). -/
def packByte (f : Nat → Bool) : Byte :=
  BitVec.ofNat 8 ((List.range 8).map fun i => (f i).toNat * 2 ^ i).sum

/-- The packed body of a bit stream: stream bit k goes to byte `k div 8`, bit `k mod 8`, and the unused
high bits of the last byte are 0 (30_encoding.md R136). -/
def packBits (S : List Bool) : List Byte :=
  (List.range (ceil8 S.length)).map fun j => packByte fun i => S.getD (8 * j + i) false

/-- Stream bit `k` of a body whose byte `j` is `f j` (30_encoding.md R136, 43_bitstream.md R277). -/
def streamBit (f : Nat → Byte) (k : Nat) : Bool :=
  (f (k / 8)).getLsbD (k % 8)

end Sys2Proof.Machine
end

