-- ==== Sys2Proof/Machine/HufTree.lean ====
section
/-! DEFINITION. Trees, their codes and their wire format (00_scope.md R14, 10_state.md R47, R49,
30_encoding.md R130, R131). -/

namespace Sys2Proof.Machine

/-- A tree: `Leaf(w, v)` or `Node(w, l, r)` (00_scope.md R14). Every `node` has two children, so the
tree is a strict binary tree by its type (10_state.md R49). -/
inductive HufTree where
  | leaf (w : Weight) (v : Byte)
  | node (w : Weight) (l r : HufTree)
  deriving DecidableEq, Repr

/-- The weight of the root. -/
def HufTree.weight : HufTree → Weight
  | .leaf w _ => w
  | .node w _ _ => w

/-- The leaf values, left to right. -/
def HufTree.leaves : HufTree → List Byte
  | .leaf _ v => [v]
  | .node _ l r => l.leaves ++ r.leaves

/-- The number of nodes, leaves and internal nodes together (00_scope.md R9, MAX_NODES). -/
def HufTree.nodes : HufTree → Nat
  | .leaf _ _ => 1
  | .node _ l r => l.nodes + r.nodes + 1

/-- |ser(t)| (30_encoding.md R131): 19 for a leaf, 18 and both children for a node. -/
def HufTree.blobLen : HufTree → Nat
  | .leaf _ _ => 19
  | .node _ l r => 18 + l.blobLen + r.blobLen

/-- The code of a byte value's leaf, root step first, `true` for a left step (10_state.md R47). `none`
where the tree has no such leaf. -/
def HufTree.code? (v : Byte) : HufTree → Option Code
  | .leaf _ u => if u = v then some [] else none
  | .node _ l r =>
    match l.code? v with
    | some p => some (true :: p)
    | none => (r.code? v).map (false :: ·)

/-- The 256-bit vector M with M[v] = 1 exactly for the leaf values v (10_state.md R40). -/
def HufTree.leafMap : HufTree → BitVec 256
  | .leaf _ v => 1#256 <<< v.toNat
  | .node _ l r => l.leafMap ||| r.leafMap

/-- The serialized tree, or `none` where a payload would exceed 65535 bytes and OversizedSubtree is
raised (30_encoding.md R130). -/
def HufTree.ser : HufTree → Option (List Byte)
  | .leaf w v => some (toBE 16 w.toNat ++ toBE 2 1 ++ [v])
  | .node w l r =>
    match l.ser, r.ser with
    | some p, some q =>
      if (p ++ q).length > 65535 then none
      else some (toBE 16 w.toNat ++ toBE 2 (p ++ q).length ++ (p ++ q))
    | _, _ => none

/-- No two leaves share a byte value (10_state.md R49, invariant 2), hence at most 256 leaves
(invariant 4). -/
def HufTree.wf (t : HufTree) : Bool := decide t.leaves.Nodup

/-- Every internal node's weight is the sum of its children's (10_state.md R49, invariant 1); the sum
is of unbounded integers (00_scope.md R10). -/
def HufTree.weightsAdd : HufTree → Bool
  | .leaf _ _ => true
  | .node w l r =>
    decide (w.toNat = l.weight.toNat + r.weight.toNat) && l.weightsAdd && r.weightsAdd

/-- In every internal node the left weight is at most the right one (41_analysis.md R199). -/
def HufTree.leftLighter : HufTree → Bool
  | .leaf _ _ => true
  | .node _ l r =>
    decide (l.weight.toNat ≤ r.weight.toNat) && l.leftLighter && r.leftLighter

end Sys2Proof.Machine
end

