-- ==== Sys2Proof/Machine/Memory.lean ====
section
/-! DEFINITION. A buffer's contents: the bytes written since reset, as (offset, byte) pairs with strictly
rising offsets. An offset that is not listed holds no defined byte (20_memory.md R84); reading it is a
free draw (70_reset_and_hazards.md R363). -/

namespace Sys2Proof.Machine

/-- The bytes of IBUF or OBUF that have been written since reset. -/
abbrev Memory := List Host.Cell

/-- The byte written at an offset, if any. -/
def Memory.read? (m : Memory) (a : Nat) : Option Byte :=
  match m with
  | [] => none
  | (c, b) :: rest => if c = a then some b else Memory.read? rest a

/-- Store one byte, keeping the offsets strictly rising. -/
def Memory.write (m : Memory) (a : Nat) (b : Byte) : Memory :=
  match m with
  | [] => [(a, b)]
  | (c, d) :: rest =>
    if a < c then (a, b) :: (c, d) :: rest
    else if a = c then (a, b) :: rest
    else (c, d) :: Memory.write rest a b

/-- `MemWrite(buf, a, |s|, s)` (00_scope.md R13). -/
def Memory.writeBytes (m : Memory) (a : Nat) : List Byte → Memory
  | [] => m
  | b :: s => Memory.writeBytes (m.write a b) (a + 1) s

/-- Every byte at an offset `a` or above becomes unspecified (60_exceptions.md R326 point 4). -/
def Memory.forgetFrom (m : Memory) (a : Nat) : Memory :=
  m.filter fun c => c.1 < a

/-- Offsets strictly rising, each above `low`. -/
def Memory.risingFrom (low : Nat) : Memory → Bool
  | [] => true
  | (c, _) :: rest => decide (low ≤ c) && Memory.risingFrom (c + 1) rest

/-- The canonical form: offsets strictly rising. (No byte equals "what an unlisted offset reads as": an
unlisted offset has no value of its own.) -/
def Memory.wf (m : Memory) : Bool := Memory.risingFrom 0 m

/-- Every listed offset lies inside a buffer of `size` bytes (20_memory.md R81, R84). -/
def Memory.within (size : Nat) (m : Memory) : Bool :=
  m.all fun c => decide (c.1 < size)

/-- The bytes `a .. a+n` as written, where every one of them is written. -/
def Memory.holds (m : Memory) (a : Nat) : List Byte → Prop
  | [] => True
  | b :: s => m.read? a = some b ∧ Memory.holds m (a + 1) s

end Sys2Proof.Machine
end

