-- ==== Sys2Proof/Machine/State.lean ====
section
/-! DEFINITION. The machine's state as plain data, and the state after reset (10_state.md,
70_reset_and_hazards.md R361). -/

namespace Sys2Proof.Machine

/-- Why the machine could stop with a fault. There is no such reason: every accepted command ends in a
completion (60_exceptions.md R320, R323), a bus error is only a response (R328), and the one case the spec
calls stuck, an internal node with a missing child (I9), cannot be written as a `HufTree`; log 11. -/
inductive Fault where
  deriving DecidableEq, Repr

/-- Why an instruction has no meaning. -/
inductive Refusal where
  /-- Raised by an arm of `exec` whose instruction has no meaning yet; no arm does. Safe. -/
  | notModelled (mnemonic : String)
  deriving DecidableEq, Repr

/-- The result codes (60_exceptions.md R324). -/
inductive ResultCode where
  | ok
  | emptyInput
  | formatError
  | truncatedStream
  | oversizedSubtree
  | illegalCommand
  | badRegion
  | outputOverflow
  | noTree
  | notInTree
  deriving DecidableEq, Repr

/-- PEND when it is not idle: the accepted word and the cursors at acceptance (10_state.md R51). -/
structure Pending where
  word : Word
  inPtr0 : Word
  outLen0 : Word
  deriving DecidableEq, Repr

/-- The kind of a host transaction (20_memory.md R83). -/
inductive Access where
  | read
  | write
  deriving DecidableEq, Repr

/-- The size of a host transaction: 1, 2 or 4 bytes (20_memory.md R83). -/
inductive Size where
  | byte
  | half
  | word
  deriving DecidableEq, Repr

/-- A host transaction (20_memory.md R83). -/
structure Transaction where
  kind : Access
  addr : Word
  size : Size
  wdata : Word
  deriving DecidableEq, Repr

/-- The response kind of a host transaction (20_memory.md R83). -/
inductive Resp where
  | okay
  | error
  deriving DecidableEq, Repr

/-- What a host transaction returns (20_memory.md R83). -/
structure Response where
  resp : Resp
  rdata : Word
  deriving DecidableEq, Repr

/-- What may happen next at the block; log 2 and log 15. -/
inductive Event where
  /-- the host issues a transaction (20_memory.md R83) -/
  | access (t : Transaction)
  /-- the engine takes its step, if a command is pending (40_control.md R173) -/
  | engine
  /-- the reset input is asserted (70_reset_and_hazards.md R360) -/
  | reset
  deriving DecidableEq, Repr

/-- FREQ: 256 counters of 128 bits (10_state.md R45). -/
abbrev FreqTable := Vector Weight 256

/-- FREQ[v] = 0 for all v. -/
def FreqTable.zero : FreqTable := Vector.replicate 256 0

/-- The architectural state (10_state.md R20, R24). BUSY, TREE_VALID, IRQ, irq and the tree summary
registers are views of the fields that determine them (R48, R51, R53); see `Flags.lean` and
`Registers.lean`, and log 9. -/
structure State where
  /-- IBUF_SIZE, a parameter: no step changes it (00_scope.md R9) -/
  ibufSize : Nat
  /-- OBUF_SIZE, a parameter: no step changes it (00_scope.md R9) -/
  obufSize : Nat
  /-- CTRL.IE_DONE (R25) -/
  ieDone : Bool
  /-- CTRL.IE_ERR (R25) -/
  ieErr : Bool
  /-- STATUS.DONE (R26) -/
  done : Bool
  /-- STATUS.ERR (R26) -/
  err : Bool
  /-- STATUS.PATH_FOUND (R26) -/
  pathFound : Bool
  /-- STATUS.HOST_CONFLICT (R26) -/
  hostConflict : Bool
  /-- STATUS.CMD_DROPPED (R26) -/
  cmdDropped : Bool
  /-- CMD: the last accepted command word (R27) -/
  cmd : Word
  /-- RESULT.OPCODE (R28) -/
  resultOpcode : Byte
  /-- RESULT.CODE (R28, 60_exceptions.md R324) -/
  resultCode : ResultCode
  /-- ERR_INFO (R29) -/
  errInfo : Word
  /-- IN_LEN (R30) -/
  inLen : Word
  /-- IN_PTR (R31) -/
  inPtr : Word
  /-- OUT_LEN (R32) -/
  outLen : Word
  /-- ORIG_LEN (R33) -/
  origLen : DWord
  /-- BIT_LEN (R34) -/
  bitLen : DWord
  /-- PATH_LEN[8:0] (R37) -/
  pathLen : BitVec 9
  /-- PATH_BITS0..7 (R39) -/
  pathBits : BitVec 256
  /-- FREQ (R45) -/
  freq : FreqTable
  /-- TREE (R46) -/
  tree : Option HufTree
  /-- IBUF, the bytes written since reset (20_memory.md R84) -/
  ibuf : Memory
  /-- OBUF, the bytes written since reset (20_memory.md R84) -/
  obuf : Memory
  /-- PEND (R51) -/
  pend : Option Pending
  /-- MODEL'S OWN: the response of the last host transaction (20_memory.md R83); log 14 -/
  response : Option Response
  /-- MODEL'S OWN: the epoch of the free draws; log 4 -/
  draws : Nat
  /-- MODEL'S OWN: the events still to come, the next first (R23); log 2 -/
  agenda : List Event
  deriving DecidableEq, Repr

/-- The state right after reset of a block with the given buffer sizes (70_reset_and_hazards.md R361).
No byte of IBUF or OBUF is defined (R363). -/
def State.resetWith (ibufSize obufSize : Nat) : State where
  ibufSize := ibufSize
  obufSize := obufSize
  ieDone := false
  ieErr := false
  done := false
  err := false
  pathFound := false
  hostConflict := false
  cmdDropped := false
  cmd := 0
  resultOpcode := 0
  resultCode := .ok
  errInfo := 0
  inLen := 0
  inPtr := 0
  outLen := 0
  origLen := 0
  bitLen := 0
  pathLen := 0
  pathBits := 0
  freq := FreqTable.zero
  tree := none
  ibuf := []
  obuf := []
  pend := none
  response := none
  draws := 0
  agenda := []

/-- The state right after reset, with the buffer sizes of Config (log 1). -/
def State.reset : State := State.resetWith Config.ibufSize Config.obufSize

end Sys2Proof.Machine
end

