-- ==== Sys2Proof/Machine/Flags.lean ====
section
/-! DEFINITION. The status bits: STATUS, CTRL, RESULT and the irq output as words, their views of the state,
and the host's write-1-to-clear (10_state.md R25 to R28, R53; 60_exceptions.md R324, R330, R333). -/

namespace Sys2Proof.Machine

/-- STATUS.BUSY = 1 exactly when PEND ≠ idle (10_state.md R51). -/
def State.busy (s : State) : Bool := s.pend.isSome

/-- STATUS.TREE_VALID = 1 exactly when TREE ≠ none (10_state.md R46). -/
def State.treeValid (s : State) : Bool := s.tree.isSome

/-- irq = (DONE & IE_DONE) | (ERR & IE_ERR), the level output (10_state.md R53). -/
def State.irq (s : State) : Bool := (s.done && s.ieDone) || (s.err && s.ieErr)

/-- STATUS as the host reads it, bit 0 first (10_state.md R26). -/
def State.statusWord (s : State) : Word :=
  (BitVec.ofBoolListLE
    [s.busy, s.done, s.err, s.treeValid, s.pathFound, s.hostConflict, s.cmdDropped,
      s.irq]).setWidth 32

/-- CTRL as the host reads it (10_state.md R25). -/
def State.ctrlWord (s : State) : Word :=
  (BitVec.ofBoolListLE [s.ieDone, s.ieErr]).setWidth 32

/-- A host write to CTRL (10_state.md R25). -/
def State.writeCtrl (w : Word) (s : State) : State :=
  { s with ieDone := w.getLsbD 0, ieErr := w.getLsbD 1 }

/-- A host write to STATUS: bits 1, 2, 5 and 6 clear where the written bit is 1, nothing else changes
(10_state.md R26). It is the host's acknowledgement of a completion, the "trap return" of
60_exceptions.md R333. -/
def State.acknowledge (w : Word) (s : State) : State :=
  { s with
    done := s.done && !w.getLsbD 1
    err := s.err && !w.getLsbD 2
    hostConflict := s.hostConflict && !w.getLsbD 5
    cmdDropped := s.cmdDropped && !w.getLsbD 6 }

/-- The number of a result code (60_exceptions.md R324). -/
def ResultCode.toByte : ResultCode → Byte
  | .ok => 0x00
  | .emptyInput => 0x01
  | .formatError => 0x02
  | .truncatedStream => 0x03
  | .oversizedSubtree => 0x04
  | .illegalCommand => 0x10
  | .badRegion => 0x11
  | .outputOverflow => 0x12
  | .noTree => 0x13
  | .notInTree => 0x14

/-- RESULT as the host reads it: CODE in [7:0], OPCODE in [15:8], 0 above (10_state.md R28). -/
def State.resultWord (s : State) : Word :=
  (0 : BitVec 16) ++ s.resultOpcode ++ s.resultCode.toByte

end Sys2Proof.Machine
end

