-- ==== Sys2Proof/Machine/Ops.lean ====
section
/-! DEFINITION. The shared operations of the engine: acceptance, the two completions (the abort is this
block's exception entry), the outcome of a command's step, output to OBUF, and the reset input
(40_control.md, 60_exceptions.md, 70_reset_and_hazards.md). -/

namespace Sys2Proof.Machine

/-- FREQ[v] (10_state.md R45). -/
def FreqTable.get (F : FreqTable) (v : Byte) : Weight :=
  Vector.get F v.toFin

/-- Acceptance of the word `w` while BUSY = 0 (40_control.md R171). BUSY and irq are views of the
fields written here. -/
def State.accept (w : Word) (s : State) : State :=
  { s with cmd := w, pend := some ⟨w, s.inPtr, s.outLen⟩, done := false }

/-- A CMD write while BUSY = 1 (40_control.md R172). -/
def State.dropCommand (s : State) : State := { s with cmdDropped := true }

/-- The accepted word and the cursors at acceptance. With no command pending, a state no engine step
starts from, it is the last accepted word and the cursors as they stand; log 10. -/
def State.accepted (s : State) : Pending :=
  s.pend.getD ⟨s.cmd, s.inPtr, s.outLen⟩

/-- The common completion step (60_exceptions.md R321). BUSY and irq are views of the fields written
here. -/
def State.commonCompletion (s : State) : State :=
  { s with pend := none, done := true }

/-- `complete()`: successful completion (60_exceptions.md R322). ERR is left as it was. -/
def State.complete (s : State) : State :=
  { s with
    resultOpcode := opcodeOf s.accepted.word
    resultCode := .ok
    errInfo := 0 }.commonCompletion

/-- `raise Err(code, info)`: abort, the block's exception entry (60_exceptions.md R325, R332). The state
it is applied to holds the effects that survive the error; the cursors return to their values at
acceptance (R326 point 1). -/
def State.abort (code : ResultCode) (info : Word) (s : State) : State :=
  { s with
    resultOpcode := opcodeOf s.accepted.word
    resultCode := code
    errInfo := info
    err := true
    inPtr := s.accepted.inPtr0
    outLen := s.accepted.outLen0 }.commonCompletion

/-- How the pseudocode of one command, or of one step of a composite command, ends before the
completion: with its writes, or by `raise Err(code, info)` with the writes its rule keeps on that error
(44_pipeline.md R300, 60_exceptions.md R325). -/
inductive StepResult where
  | ok (s : State)
  | err (code : ResultCode) (info : Word) (s : State)

/-- The next step of a sequence; the first error ends it (44_pipeline.md R300). -/
def StepResult.andThen (r : StepResult) (f : State → StepResult) : StepResult :=
  match r with
  | .ok s => f s
  | .err code info s => .err code info s

/-- The single completion of a command (60_exceptions.md R320). -/
def StepResult.finish (r : StepResult) : Host.Outcome State Fault Refusal :=
  match r with
  | .ok s => .next s.complete
  | .err code info s => .next (s.abort code info)

/-- OBUF from OUT_LEN0 on becomes unspecified (60_exceptions.md R326 point 4); log 5. -/
def State.forgetOutput (s : State) : State :=
  { s with obuf := s.obuf.forgetFrom s.accepted.outLen0.toNat }

/-- A composite command's abort after its first step began also leaves OBUF unspecified from OUT_LEN0
on (60_exceptions.md R326 point 4). -/
def StepResult.forgetOnError (r : StepResult) : StepResult :=
  match r with
  | .ok s => .ok s
  | .err code info s => .err code info s.forgetOutput

/-- `OUT_LEN + n > OBUF_SIZE`, on unbounded integers (00_scope.md R10). -/
def State.overflows (n : Nat) (s : State) : Bool :=
  decide (s.outLen.toNat + n > s.obufSize)

/-- `MemWrite(OBUF, OUT_LEN, |b|, b); OUT_LEN <- OUT_LEN + |b|` (00_scope.md R13, 10_state.md R32). -/
def State.emit (b : List Byte) (s : State) : State :=
  { s with
    obuf := s.obuf.writeBytes s.outLen.toNat b
    outLen := s.outLen + BitVec.ofNat 32 b.length }

/-- The capacity check and the output it guards (42_tree_codec.md R232, 43_bitstream.md R262, R270). -/
def State.output (b : List Byte) (s : State) : StepResult :=
  if s.overflows b.length then .err .outputOverflow s.outLen s else .ok (s.emit b)

/-- The reset input (70_reset_and_hazards.md R360, R361, I18): every piece of state at its reset value,
a pending command discarded, the buffers unspecified. The parameters and the model's own epoch and
agenda stay; log 13. -/
def State.resetInput (s : State) : State :=
  { State.resetWith s.ibufSize s.obufSize with draws := s.draws, agenda := s.agenda }

end Sys2Proof.Machine
end

