-- ==== Sys2Proof/Machine/Operands.lean ====
section
/-! DEFINITION. The operands of the commands: the region checks and the engine's reads of IBUF
(40_control.md R175, 20_memory.md R84, R91). -/

namespace Sys2Proof.Machine

/-- `IN_PTR <= IN_LEN and IN_LEN <= IBUF_SIZE` (40_control.md R175). -/
def State.inRegionOk (s : State) : Bool :=
  decide (s.inPtr.toNat ≤ s.inLen.toNat) && decide (s.inLen.toNat ≤ s.ibufSize)

/-- `OUT_LEN <= OBUF_SIZE` (40_control.md R175). -/
def State.outRegionOk (s : State) : Bool :=
  decide (s.outLen.toNat ≤ s.obufSize)

/-- `InCheck()` (40_control.md R175). -/
def inCheck (s : State) : StepResult :=
  if s.inRegionOk then .ok s else .err .badRegion 0 s

/-- `OutCheck()` (40_control.md R175). -/
def outCheck (s : State) : StepResult :=
  if s.outRegionOk then .ok s else .err .badRegion 1 s

/-- `MemRead(IBUF, a, 1)` at one place of the pseudocode: the byte written there, or a free draw where
nothing has been written since reset (00_scope.md R13, 70_reset_and_hazards.md R363); log 3. -/
def State.ibufByte (s : State) (site : Site) (a : Nat) : Byte :=
  (s.ibuf.read? a).getD (Config.freeByte s.draws site a)

/-- `MemRead(IBUF, a, n)` at one place of the pseudocode (00_scope.md R13). -/
def State.ibufBytes (s : State) (site : Site) (a n : Nat) : List Byte :=
  (List.range n).map fun i => s.ibufByte site (a + i)

/-- `IN_LEN - IN_PTR`: the length of the region. -/
def State.regionLen (s : State) : Nat := s.inLen.toNat - s.inPtr.toNat

/-- The region IBUF[IN_PTR .. IN_LEN) as one pass over it reads it. -/
def State.region (s : State) (site : Site) : List Byte :=
  s.ibufBytes site s.inPtr.toNat s.regionLen

end Sys2Proof.Machine
end

