-- ==== Sys2Proof/Machine/Registers.lean ====
section
/-! DEFINITION. The register map and what a host read or write of each register does while it is allowed
(10_state.md R21 to R42). -/

namespace Sys2Proof.Machine

/-- The registers of the map (10_state.md R24). -/
inductive Reg where
  | id
  | version
  | ibufSizeReg
  | obufSizeReg
  | ctrl
  | status
  | cmd
  | result
  | errInfo
  | inLen
  | inPtr
  | outLen
  | origLenLo
  | origLenHi
  | bitLenLo
  | bitLenHi
  | nLeaves
  | blobLen
  | pathLen
  | rootWeight (j : Fin 4)
  | pathBits (j : Fin 8)
  | leafMap (j : Fin 8)
  | reserved
  deriving DecidableEq, Repr

/-- The register at a byte offset, a multiple of 4 below 0x1000; every offset the map does not name is
reserved (10_state.md R24, R42). -/
def Reg.ofOffset (off : Nat) : Reg :=
  if off = 0x000 then .id
  else if off = 0x004 then .version
  else if off = 0x008 then .ibufSizeReg
  else if off = 0x00C then .obufSizeReg
  else if off = 0x010 then .ctrl
  else if off = 0x014 then .status
  else if off = 0x018 then .cmd
  else if off = 0x01C then .result
  else if off = 0x020 then .errInfo
  else if off = 0x024 then .inLen
  else if off = 0x028 then .inPtr
  else if off = 0x02C then .outLen
  else if off = 0x030 then .origLenLo
  else if off = 0x034 then .origLenHi
  else if off = 0x038 then .bitLenLo
  else if off = 0x03C then .bitLenHi
  else if off = 0x040 then .nLeaves
  else if off = 0x044 then .blobLen
  else if off = 0x048 then .pathLen
  else if 0x050 ≤ off ∧ off ≤ 0x05C then .rootWeight (Fin.ofNat 4 ((off - 0x050) / 4))
  else if 0x060 ≤ off ∧ off ≤ 0x07C then .pathBits (Fin.ofNat 8 ((off - 0x060) / 4))
  else if 0x080 ≤ off ∧ off ≤ 0x09C then .leafMap (Fin.ofNat 8 ((off - 0x080) / 4))
  else .reserved

/-- The byte offset of a register; for `reserved`, its first offset (10_state.md R24). -/
def Reg.offset : Reg → Nat
  | .id => 0x000
  | .version => 0x004
  | .ibufSizeReg => 0x008
  | .obufSizeReg => 0x00C
  | .ctrl => 0x010
  | .status => 0x014
  | .cmd => 0x018
  | .result => 0x01C
  | .errInfo => 0x020
  | .inLen => 0x024
  | .inPtr => 0x028
  | .outLen => 0x02C
  | .origLenLo => 0x030
  | .origLenHi => 0x034
  | .bitLenLo => 0x038
  | .bitLenHi => 0x03C
  | .nLeaves => 0x040
  | .blobLen => 0x044
  | .pathLen => 0x048
  | .rootWeight j => 0x050 + 4 * j.val
  | .pathBits j => 0x060 + 4 * j.val
  | .leafMap j => 0x080 + 4 * j.val
  | .reserved => 0x04C

/-- ID's constant, ASCII "HUFC" (10_state.md R21). -/
def idValue : Word := 0x48554643

/-- VERSION's constant, 1.0 (10_state.md R21). -/
def versionValue : Word := 0x00010000

/-- N_LEAVES[8:0]: the number of leaves of TREE, 0 where there is none (10_state.md R35, R48). -/
def State.nLeaves (s : State) : BitVec 9 :=
  match s.tree with
  | none => 0
  | some t => BitVec.ofNat 9 t.leaves.length

/-- BLOB_LEN: |ser(TREE)|, 0 where there is none (10_state.md R36, R48). -/
def State.blobLen (s : State) : Word :=
  match s.tree with
  | none => 0
  | some t => BitVec.ofNat 32 t.blobLen

/-- ROOT_WEIGHT: the weight of TREE's root, 0 where there is none (10_state.md R38, R48). -/
def State.rootWeight (s : State) : Weight :=
  match s.tree with
  | none => 0
  | some t => t.weight

/-- LEAFMAP: the set of TREE's leaf values, empty where there is none (10_state.md R40, R48). -/
def State.leafMap (s : State) : BitVec 256 :=
  match s.tree with
  | none => 0
  | some t => t.leafMap

/-- The word at word index `j` of a wide register, least significant word first (10_state.md R33, R34,
R38 to R41). -/
def wordOf {n : Nat} (v : BitVec n) (j : Nat) : Word := v.extractLsb' (32 * j) 32

/-- What a host read of a register returns: its committed value, also while a command is pending
(10_state.md R24, R51; 70_reset_and_hazards.md R372). -/
def State.readReg (s : State) : Reg → Word
  | .id => idValue
  | .version => versionValue
  | .ibufSizeReg => BitVec.ofNat 32 s.ibufSize
  | .obufSizeReg => BitVec.ofNat 32 s.obufSize
  | .ctrl => s.ctrlWord
  | .status => s.statusWord
  | .cmd => s.cmd
  | .result => s.resultWord
  | .errInfo => s.errInfo
  | .inLen => s.inLen
  | .inPtr => s.inPtr
  | .outLen => s.outLen
  | .origLenLo => wordOf s.origLen 0
  | .origLenHi => wordOf s.origLen 1
  | .bitLenLo => wordOf s.bitLen 0
  | .bitLenHi => wordOf s.bitLen 1
  | .nLeaves => s.nLeaves.setWidth 32
  | .blobLen => s.blobLen
  | .pathLen => s.pathLen.setWidth 32
  | .rootWeight j => wordOf s.rootWeight j.val
  | .pathBits j => wordOf s.pathBits j.val
  | .leafMap j => wordOf s.leafMap j.val
  | .reserved => 0

/-- The FREQ window word at window offset `16·v + 4·j` (10_state.md R41). -/
def State.readFreqWord (s : State) (off : Nat) : Word :=
  wordOf (s.freq.get (BitVec.ofNat 8 (off / 16))) (off % 16 / 4)

/-- A host write to a register whose write a running command refuses (70_reset_and_hazards.md R373):
the write while idle, HOST_CONFLICT and nothing else while BUSY = 1. -/
def State.writeOperand (s : State) (written : State) : State :=
  if s.busy then { s with hostConflict := true } else written

/-- What a host write of `w` to a register does (10_state.md R24 to R42; 40_control.md R171, R172;
70_reset_and_hazards.md R372, R373). Writes to read-only and reserved registers are ignored. -/
def State.writeReg (s : State) (r : Reg) (w : Word) : State :=
  match r with
  | .ctrl => s.writeCtrl w
  | .status => s.acknowledge w
  | .cmd => if s.busy then s.dropCommand else s.accept w
  | .inLen => s.writeOperand { s with inLen := w }
  | .inPtr => s.writeOperand { s with inPtr := w }
  | .outLen => s.writeOperand { s with outLen := w }
  | .origLenLo => s.writeOperand { s with origLen := s.origLen.extractLsb' 32 32 ++ w }
  | .origLenHi => s.writeOperand { s with origLen := w ++ s.origLen.extractLsb' 0 32 }
  | .id | .version | .ibufSizeReg | .obufSizeReg | .result | .errInfo => s
  | .bitLenLo | .bitLenHi | .nLeaves | .blobLen | .pathLen => s
  | .rootWeight _ | .pathBits _ | .leafMap _ | .reserved => s

end Sys2Proof.Machine
end

