-- ==== Sys2Proof/Machine/Bus.lean ====
section
/-! DEFINITION. Host transactions: the address map, the access rules, and what each access does
(20_memory.md). -/

namespace Sys2Proof.Machine

/-- What a byte address names (20_memory.md R81); the number is the offset inside the target. -/
inductive Target where
  | register (off : Nat)
  | freqWindow (off : Nat)
  | ibuf (a : Nat)
  | obuf (a : Nat)
  | unmapped
  deriving DecidableEq, Repr

/-- The host address map (20_memory.md R81). -/
def State.target (s : State) (addr : Word) : Target :=
  let x := addr.toNat
  if x < 0x1000 then .register x
  else if x < 0x2000 then .freqWindow (x - 0x1000)
  else if 0x40000000 ≤ x ∧ x < 0x80000000 ∧ x - 0x40000000 < s.ibufSize then
    .ibuf (x - 0x40000000)
  else if 0x80000000 ≤ x ∧ x < 0xC0000000 ∧ x - 0x80000000 < s.obufSize then
    .obuf (x - 0x80000000)
  else .unmapped

/-- A buffer access of `size` at offset `a` of a buffer of `n` bytes: a byte, or an aligned word that
lies inside (20_memory.md R85, R86, R88). -/
def bufferTakes (n a : Nat) : Size → Bool
  | .byte => true
  | .half => false
  | .word => decide (a % 4 = 0) && decide (a + 4 ≤ n)

/-- An access of `size` to the register file or the FREQ window: an aligned word (20_memory.md R87,
R88). -/
def wordOnly (off : Nat) : Size → Bool
  | .word => decide (off % 4 = 0)
  | .byte | .half => false

/-- The transaction gets no ERROR response (20_memory.md R82). -/
def State.takes (s : State) (tg : Target) (size : Size) : Bool :=
  match tg with
  | .register off => wordOnly off size
  | .freqWindow off => wordOnly off size
  | .ibuf a => bufferTakes s.ibufSize a size
  | .obuf a => bufferTakes s.obufSize a size
  | .unmapped => false

/-- The targets a running command refuses (20_memory.md R89). -/
def Target.refusedWhileBusy : Target → Bool
  | .ibuf _ | .obuf _ | .freqWindow _ => true
  | .register _ | .unmapped => false

/-- The number of bytes of an access (20_memory.md R83). -/
def Size.bytes : Size → Nat
  | .byte => 1
  | .half => 2
  | .word => 4

/-- The bytes a write stores, little-endian (20_memory.md R85, R86). -/
def littleEndian (n : Nat) (w : Word) : List Byte :=
  (List.range n).map fun i => w.extractLsb' (8 * i) 8

/-- The word a read of a byte sequence returns, little-endian, zero-extended (20_memory.md R85, R86). -/
def ofLittleEndian (bs : List Byte) : Word :=
  bs.foldr (fun b acc => acc <<< 8 ||| b.setWidth 32) 0

/-- The host's read of `n` bytes of a buffer; a byte never written is a free draw (20_memory.md R84,
70_reset_and_hazards.md R363). -/
def hostBytes (m : Memory) (epoch a n : Nat) : List Byte :=
  (List.range n).map fun i => (m.read? (a + i)).getD (Config.freeByte epoch .host (a + i))

/-- The data of a read that takes effect (20_memory.md R85, R86; 10_state.md R24, R41). -/
def State.readTarget (s : State) (tg : Target) (size : Size) : Word :=
  match tg with
  | .register off => s.readReg (.ofOffset off)
  | .freqWindow off => s.readFreqWord off
  | .ibuf a => ofLittleEndian (hostBytes s.ibuf s.draws a size.bytes)
  | .obuf a => ofLittleEndian (hostBytes s.obuf s.draws a size.bytes)
  | .unmapped => 0

/-- The effect of a write that takes effect; the FREQ window ignores it (20_memory.md R85, R86;
10_state.md R41, R42). -/
def State.writeTarget (s : State) (tg : Target) (size : Size) (w : Word) : State :=
  match tg with
  | .register off => s.writeReg (.ofOffset off) w
  | .ibuf a => { s with ibuf := s.ibuf.writeBytes a (littleEndian size.bytes w) }
  | .obuf a => { s with obuf := s.obuf.writeBytes a (littleEndian size.bytes w) }
  | .freqWindow _ | .unmapped => s

/-- One host transaction: the state after it and its response (20_memory.md R82 to R89). ERROR comes
before the refusal of a busy block; log 7. The spec states no read data for a write that answers OKAY, so
that word is free; log 14. -/
def State.hostAccess (t : Transaction) (s : State) : State × Response :=
  let tg := s.target t.addr
  if s.takes tg t.size = false then (s, ⟨.error, 0⟩)
  else
    let refused := s.busy && tg.refusedWhileBusy
    match t.kind with
    | .read =>
      if refused = true then ({ s with hostConflict := true }, ⟨.okay, 0⟩)
      else (s, ⟨.okay, s.readTarget tg t.size⟩)
    | .write =>
      (if refused = true then { s with hostConflict := true }
        else s.writeTarget tg t.size t.wdata,
        ⟨.okay, Config.freeWriteData s.draws⟩)

/-- A host transaction as a step of the machine: its effect, and the response the host receives. -/
def State.hostTurn (t : Transaction) (s : State) : State :=
  { (s.hostAccess t).1 with response := some (s.hostAccess t).2 }

end Sys2Proof.Machine
end

