-- ==== Sys2Proof/Machine/Control.lean ====
section
/-! DEFINITION. NOP, CLEAR and the illegal words (40_control.md). -/

namespace Sys2Proof.Machine

/-- NOP (40_control.md R177). -/
def execNop (s : State) : Host.Outcome State Fault Refusal :=
  (StepResult.ok s).finish

/-- The state CLEAR puts to its reset value (40_control.md R178, 70_reset_and_hazards.md R362). The
summary registers and TREE_VALID follow TREE. -/
def clearState (s : State) : State :=
  { s with
    freq := FreqTable.zero
    tree := none
    inLen := 0
    inPtr := 0
    outLen := 0
    origLen := 0
    bitLen := 0
    pathLen := 0
    pathBits := 0
    pathFound := false }

/-- CLEAR (40_control.md R178). -/
def execClear (s : State) : Host.Outcome State Fault Refusal :=
  (StepResult.ok (clearState s)).finish

/-- An illegal word completes with IllegalCommand and ERR_INFO = the word (40_control.md R176). -/
def execIllegal (s : State) : Host.Outcome State Fault Refusal :=
  (StepResult.err .illegalCommand s.accepted.word s).finish

end Sys2Proof.Machine
end

