-- ==== Sys2Proof/Machine/Analysis.lean ====
section
/-! DEFINITION. COUNT, BUILD and PATH (41_analysis.md). -/

namespace Sys2Proof.Machine

/-- `F[x] <- F[x] + 1` (41_analysis.md R192). -/
def FreqTable.bump (F : FreqTable) (x : Byte) : FreqTable :=
  Vector.set F x.toNat (F.get x + 1) x.isLt

/-- The counts of a byte sequence (41_analysis.md R192). -/
def countBytes (d : List Byte) : FreqTable :=
  d.foldl FreqTable.bump FreqTable.zero

/-- COUNT's pseudocode without its completion (41_analysis.md R192). -/
def countStep (s : State) : StepResult :=
  (inCheck s).andThen fun s =>
    .ok { s with
      freq := countBytes (s.region .count)
      origLen := BitVec.ofNat 64 s.regionLen }

/-- COUNT (41_analysis.md R192). -/
def execCount (s : State) : Host.Outcome State Fault Refusal :=
  (countStep s).finish

/-- An entry of BUILD's working set: weight, creation sequence number, tree (41_analysis.md R195). -/
structure Entry where
  w : Weight
  seq : Nat
  t : HufTree
  deriving DecidableEq, Repr

/-- The lexicographic order on (w, seq) (41_analysis.md R195, R196). -/
def Entry.before (a b : Entry) : Bool :=
  decide (a.w.toNat < b.w.toNat) || (decide (a.w = b.w) && decide (a.seq < b.seq))

/-- Put an entry at its place in a working set kept in rising (w, seq) order, so that the set's least
entry stands first (10_state.md R52, I3); log 16. -/
def insertEntry (e : Entry) : List Entry → List Entry
  | [] => [e]
  | x :: xs => if e.before x then e :: x :: xs else x :: insertEntry e xs

/-- The byte values with FREQ[v] ≠ 0, ascending (41_analysis.md R195, step 1). -/
def usedValues (F : FreqTable) : List Byte :=
  ((List.range 256).map (BitVec.ofNat 8)).filter fun v => F.get v != 0

/-- One leaf for each used value, numbered in ascending byte value (41_analysis.md R195, R196). -/
def leafEntries (F : FreqTable) : List Entry :=
  (usedValues F).zipIdx.map fun p => ⟨F.get p.1, p.2, .leaf (F.get p.1) p.1⟩

/-- The node made of the two least entries, the first one left (41_analysis.md R195, R199). -/
def joinEntries (a b : Entry) (seq : Nat) : Entry :=
  ⟨a.w + b.w, seq, .node (a.w + b.w) a.t b.t⟩

/-- `while |S| > 1`: take the two least entries and put their join back, at most `n` times
(41_analysis.md R195, steps 2 to 4). -/
def mergeEntries : Nat → List Entry → Nat → Option HufTree
  | _, [], _ => none
  | _, [e], _ => some e.t
  | 0, _ :: _ :: _, _ => none
  | n + 1, a :: b :: rest, seq =>
    mergeEntries n (insertEntry (joinEntries a b seq) rest) (seq + 1)

/-- The tree BUILD makes of FREQ, `none` where every FREQ[v] = 0 (41_analysis.md R195). -/
def buildTree (F : FreqTable) : Option HufTree :=
  let entries := leafEntries F
  mergeEntries entries.length (entries.foldr insertEntry []) entries.length

/-- BUILD's pseudocode without its completion: EmptyInput leaves TREE = none (41_analysis.md R195). -/
def buildStep (s : State) : StepResult :=
  match buildTree s.freq with
  | some t => .ok { s with tree := some t }
  | none => .err .emptyInput 0 { s with tree := none }

/-- BUILD (41_analysis.md R195). -/
def execBuild (s : State) : Host.Outcome State Fault Refusal :=
  (buildStep s).finish

/-- PATH_BITS of a code: element i in bit i (10_state.md R39). -/
def pathBitsOf (c : Code) : BitVec 256 := (BitVec.ofBoolListLE c).setWidth 256

/-- PATH's pseudocode without its completion (41_analysis.md R205). -/
def pathStep (v : Byte) (s : State) : StepResult :=
  match s.tree with
  | none => .err .noTree 0 s
  | some t =>
    match t.code? v with
    | some c =>
      .ok { s with
        pathFound := true
        pathLen := BitVec.ofNat 9 c.length
        pathBits := pathBitsOf c }
    | none => .ok { s with pathFound := false, pathLen := 0, pathBits := 0 }

/-- PATH (41_analysis.md R205). -/
def execPath (v : Byte) (s : State) : Host.Outcome State Fault Refusal :=
  (pathStep v s).finish

end Sys2Proof.Machine
end

