-- ==== Sys2Proof/Machine/Bitstream.lean ====
section
/-! DEFINITION. WRLEN, RDLEN, PACK and UNPACK (43_bitstream.md). -/

namespace Sys2Proof.Machine

/-- WRLEN's pseudocode without its completion (43_bitstream.md R262). -/
def wrlenStep (s : State) : StepResult :=
  (outCheck s).andThen fun s => s.output (toBE 8 s.origLen.toNat)

/-- WRLEN (43_bitstream.md R262). -/
def execWrlen (s : State) : Host.Outcome State Fault Refusal :=
  (wrlenStep s).finish

/-- RDLEN's pseudocode without its completion (43_bitstream.md R266). -/
def rdlenStep (s : State) : StepResult :=
  (inCheck s).andThen fun s =>
    if s.regionLen < 8 then .err .formatError s.inPtr s
    else
      .ok { s with
        origLen := BitVec.ofNat 64 (ofBE (s.ibufBytes .length s.inPtr.toNat 8))
        inPtr := s.inPtr + 8 }

/-- RDLEN (43_bitstream.md R266). -/
def execRdlen (s : State) : Host.Outcome State Fault Refusal :=
  (rdlenStep s).finish

/-- The lowest offset of the region whose byte, read in PACK's first pass, has no leaf
(43_bitstream.md R270). -/
def State.firstWithoutLeaf (s : State) (t : HufTree) : Option Nat :=
  (List.range s.regionLen).find? fun i =>
    (t.code? (s.ibufByte .packCheck (s.inPtr.toNat + i))).isNone

/-- CODE of the byte read at offset `a` in PACK's second pass (43_bitstream.md R270). Where that byte has
no leaf, which takes an unwritten byte whose two reads differ, CODE is not defined and the code is free,
within MAX_CODE_LEN; log 6. -/
def State.codeAt (s : State) (t : HufTree) (a : Nat) : Code :=
  (t.code? (s.ibufByte .packCode a)).getD
    ((Config.freeCode s.draws a).take Config.maxCodeLen)

/-- The code bit stream `S` of the region (30_encoding.md R135, 43_bitstream.md R270). -/
def State.codeStream (s : State) (t : HufTree) : List Bool :=
  (List.range s.regionLen).flatMap fun i => s.codeAt t (s.inPtr.toNat + i)

/-- PACK's pseudocode without its completion (43_bitstream.md R270). `unpackStep` inverts it (R282). -/
def packStep (s : State) : StepResult :=
  ((inCheck s).andThen outCheck).andThen fun s =>
    match s.tree with
    | none => .err .noTree 0 s
    | some t =>
      match s.firstWithoutLeaf t with
      | some i => .err .notInTree (s.inPtr + BitVec.ofNat 32 i) s
      | none =>
        let S := s.codeStream t
        (s.output (packBits S)).andThen fun s' =>
          .ok { s' with bitLen := BitVec.ofNat 64 S.length }

/-- PACK (43_bitstream.md R270). -/
def execPack (s : State) : Host.Outcome State Fault Refusal :=
  (packStep s).finish

/-- One walk from `node` to a leaf, one stream bit a step from bit `k` on: the leaf's value and the next
bit's number, or `none` where a bit is needed and none is left (43_bitstream.md R276, R279). -/
def walk (bit : Nat → Bool) (avail : Nat) : HufTree → Nat → Option (Byte × Nat)
  | .leaf _ v, k => some (v, k)
  | .node _ l r, k =>
    if k ≥ avail then none
    else if bit k then walk bit avail l (k + 1) else walk bit avail r (k + 1)

/-- `while |out| < N`: `n` more bytes from bit `k` on. The error is the number of bytes of these that were
decoded before the stream ran out (43_bitstream.md R276). -/
def decodeBytes (bit : Nat → Bool) (avail : Nat) (t : HufTree) :
    (n k : Nat) → Except Nat (List Byte × Nat)
  | 0, k => .ok ([], k)
  | n + 1, k =>
    match walk bit avail t k with
    | none => .error 0
    | some (v, k1) =>
      match decodeBytes bit avail t n k1 with
      | .error m => .error (m + 1)
      | .ok (out, k2) => .ok (v :: out, k2)

/-- The decoded bytes and the bits consumed; a single-leaf tree consumes none (43_bitstream.md R276,
R278). -/
def unpackStream (bit : Nat → Bool) (avail : Nat) (t : HufTree) (n : Nat) :
    Except Nat (List Byte × Nat) :=
  match t with
  | .leaf _ v => .ok (List.replicate n v, 0)
  | .node w l r => decodeBytes bit avail (.node w l r) n 0

/-- Stream bit `k` of the region (43_bitstream.md R276, R277). -/
def State.regionBit (s : State) (k : Nat) : Bool :=
  streamBit (fun j => s.ibufByte (.bit (k % 8)) (s.inPtr.toNat + j)) k

/-- UNPACK's pseudocode without its completion. TruncatedStream leaves OBUF unspecified from OUT_LEN0 on
(43_bitstream.md R276, 60_exceptions.md R326 point 4). It reads no bit beyond the last code, so padding and
what follows do not matter (R280), and it inverts `packStep` (R282). -/
def unpackStep (s : State) : StepResult :=
  ((inCheck s).andThen outCheck).andThen fun s =>
    match s.tree with
    | none => .err .noTree 0 s
    | some t =>
      if s.overflows s.origLen.toNat then .err .outputOverflow s.outLen s
      else
        match unpackStream s.regionBit (8 * s.regionLen) t s.origLen.toNat with
        | .error m => .err .truncatedStream (BitVec.ofNat 32 m) s.forgetOutput
        | .ok (out, k) =>
          .ok { s.emit out with
            inPtr := s.inPtr + BitVec.ofNat 32 (ceil8 k)
            bitLen := BitVec.ofNat 64 k }

/-- UNPACK (43_bitstream.md R276). -/
def execUnpack (s : State) : Host.Outcome State Fault Refusal :=
  (unpackStep s).finish

end Sys2Proof.Machine
end

