-- ==== Sys2Proof/Machine/TreeCodec.lean ====
section
/-! DEFINITION. SERIALIZE and DESERIALIZE (42_tree_codec.md). -/

namespace Sys2Proof.Machine

/-- SERIALIZE's pseudocode without its completion (42_tree_codec.md R232). -/
def serializeStep (s : State) : StepResult :=
  (outCheck s).andThen fun s =>
    match s.tree with
    | none => .err .noTree 0 s
    | some t =>
      match t.ser with
      | none => .err .oversizedSubtree 0 s
      | some b => s.output b

/-- SERIALIZE (42_tree_codec.md R232). -/
def execSerialize (s : State) : Host.Outcome State Fault Refusal :=
  (serializeStep s).finish

/-- What the parse carries from node to node: `count` and `seen` (42_tree_codec.md R236, R237). -/
structure ParseState where
  count : Nat
  seen : List Byte
  deriving DecidableEq, Repr

/-- The bytes at `a .. a+n` through one reader. -/
def readBytes (rd : Nat → Byte) (a n : Nat) : List Byte :=
  (List.range n).map fun i => rd (a + i)

/-- `parse(s, e)` of 42_tree_codec.md R237, through a reader `rd` of a node's own header and value and a
reader `ahead` of the left child's size. The error is the offset that `fail` reports. `depth` bounds the
nesting: every call counts one node first, and the 512th fails, so 512 calls never nest deeper (R240);
log 17. -/
def parse (rd ahead : Nat → Byte) :
    (depth : Nat) → (s e : Nat) → ParseState → Except Nat (HufTree × ParseState)
  | 0, s, _, _ => .error s
  | depth + 1, s, e, st =>
    if e - s < 18 then .error s
    else
      let w := BitVec.ofNat 128 (ofBE (readBytes rd s 16))
      let ps := ofBE (readBytes rd (s + 16) 2)
      if e - s ≠ 18 + ps then .error s
      else if st.count + 1 > Config.maxNodes then .error s
      else if ps = 1 then
        let v := rd (s + 18)
        if v ∈ st.seen then .error s
        else .ok (.leaf w v, ⟨st.count + 1, v :: st.seen⟩)
      else
        let ls := s + 18
        if e - ls < 18 then .error ls
        else
          let le := ls + 18 + ofBE (readBytes ahead (ls + 16) 2)
          if le > e then .error ls
          else
            match parse rd ahead depth ls le ⟨st.count + 1, st.seen⟩ with
            | .error a => .error a
            | .ok (l, st1) =>
              match parse rd ahead depth le e st1 with
              | .error a => .error a
              | .ok (r, st2) => .ok (.node w l r, st2)

/-- The parse of a whole blob IBUF[s .. e) (42_tree_codec.md R236: `seen <- empty; count <- 0`). -/
def State.parseBlob (st : State) (s e : Nat) : Except Nat (HufTree × ParseState) :=
  parse (st.ibufByte .header) (st.ibufByte .leftSize) (Config.maxNodes + 1) s e ⟨0, []⟩

/-- `fail(a)`: TREE <- none; raise Err(FormatError, a) (42_tree_codec.md R236). -/
def formatFail (a : Nat) (s : State) : StepResult :=
  .err .formatError (BitVec.ofNat 32 a) { s with tree := none }

/-- The root's declared blob length, `L` of 42_tree_codec.md R236. -/
def State.declaredLen (s : State) : Nat :=
  18 + ofBE (s.ibufBytes .rootSize (s.inPtr.toNat + 16) 2)

/-- DESERIALIZE's pseudocode without its completion (42_tree_codec.md R236). -/
def deserializeStep (exact : Bool) (s : State) : StepResult :=
  (inCheck s).andThen fun s =>
    let start := s.inPtr.toNat
    if s.regionLen < 18 then formatFail start s
    else
      let L := s.declaredLen
      if exact = true ∧ s.regionLen ≠ L then formatFail start s
      else if exact = false ∧ s.regionLen < L then formatFail start s
      else
        match s.parseBlob start (start + L) with
        | .error a => formatFail a s
        | .ok (t, _) =>
          .ok { s with tree := some t, inPtr := BitVec.ofNat 32 (start + L) }

/-- DESERIALIZE (42_tree_codec.md R236). -/
def execDeserialize (exact : Bool) (s : State) : Host.Outcome State Fault Refusal :=
  (deserializeStep exact s).finish

end Sys2Proof.Machine
end

