-- ==== Sys2Proof/Machine/Pipeline.lean ====
section
/-! DEFINITION. The composite commands COMPRESS and DECOMPRESS (44_pipeline.md). -/

namespace Sys2Proof.Machine

/-- `if IN_PTR == IN_LEN then raise Err(EmptyInput, 0)` (44_pipeline.md R301). -/
def emptyRegionCheck (s : State) : StepResult :=
  if s.inPtr = s.inLen then .err .emptyInput 0 s else .ok s

/-- The steps of COMPRESS; an abort in them leaves OBUF unspecified from OUT_LEN0 on (44_pipeline.md
R301, 60_exceptions.md R326 point 4). -/
def compressSteps (s : State) : StepResult :=
  ((((countStep s).andThen buildStep).andThen serializeStep).andThen wrlenStep).andThen packStep
    |>.forgetOnError

/-- COMPRESS (44_pipeline.md R300, R301). -/
def execCompress (s : State) : Host.Outcome State Fault Refusal :=
  (((inCheck s).andThen outCheck).andThen emptyRegionCheck).andThen compressSteps |>.finish

/-- The steps of DECOMPRESS; an abort in them leaves OBUF unspecified from OUT_LEN0 on (44_pipeline.md
R304, 60_exceptions.md R326 point 4). -/
def decompressSteps (s : State) : StepResult :=
  ((deserializeStep false s).andThen rdlenStep).andThen unpackStep |>.forgetOnError

/-- DECOMPRESS (44_pipeline.md R300, R304). -/
def execDecompress (s : State) : Host.Outcome State Fault Refusal :=
  ((inCheck s).andThen outCheck).andThen decompressSteps |>.finish

end Sys2Proof.Machine
end

