-- ==== Sys2Proof/Machine/Dispatch.lean ====
section
/-! DEFINITION. The meaning of every command, one arm per constructor. -/

namespace Sys2Proof.Machine

def exec (i : Instr) (s : State) : Host.Outcome State Fault Refusal :=
  match i with
  | .nop => Sys2Proof.Machine.execNop s
  | .clear => Sys2Proof.Machine.execClear s
  | .count => Sys2Proof.Machine.execCount s
  | .build => Sys2Proof.Machine.execBuild s
  | .path value => Sys2Proof.Machine.execPath value s
  | .serialize => Sys2Proof.Machine.execSerialize s
  | .deserialize exact => Sys2Proof.Machine.execDeserialize exact s
  | .wrlen => Sys2Proof.Machine.execWrlen s
  | .rdlen => Sys2Proof.Machine.execRdlen s
  | .pack => Sys2Proof.Machine.execPack s
  | .unpack => Sys2Proof.Machine.execUnpack s
  | .compress => Sys2Proof.Machine.execCompress s
  | .decompress => Sys2Proof.Machine.execDecompress s

end Sys2Proof.Machine
end

