-- ==== Sys2Proof/Machine/Engine.lean ====
section
/-! DEFINITION. What a step does around a command or a host transaction: it takes the event off the agenda
and opens a fresh epoch of free draws. -/

namespace Sys2Proof.Machine

/-- The free values drawn from here on are new ones (70_reset_and_hazards.md R363: two reads of the same
unwritten byte may draw different values); log 4. -/
def State.freshEpoch (s : State) : State := { s with draws := s.draws + 1 }

/-- The events still to come; log 2. -/
def State.withAgenda (agenda : List Event) (s : State) : State := { s with agenda := agenda }

end Sys2Proof.Machine
end

