-- ==== Sys2Proof/Machine/Step.lean ====
section
/-! DEFINITION. One step of the machine: the next event of the agenda, or the engine's turn. -/

namespace Sys2Proof.Machine

/-- The engine's step: while a command is pending it decodes the accepted word and runs the command's
rule; idle, it does nothing (40_control.md R173, 60_exceptions.md R343). -/
def engineTurn (s : State) : Host.Outcome State Fault Refusal :=
  match s.pend with
  | none => .next s
  | some p =>
    match decode p.word with
    | .ok i => exec i s
    | .error _ => execIllegal s

/-- One step: the next event of the agenda takes effect, in a fresh draw epoch. With no event left the
engine has its turn, so a pending command is eventually executed (40_control.md R173); log 2, log 15. -/
def step (s : State) : Host.Outcome State Fault Refusal :=
  match s.agenda with
  | [] => engineTurn s.freshEpoch
  | .engine :: rest => engineTurn (s.freshEpoch.withAgenda rest)
  | .access t :: rest => .next ((s.freshEpoch.withAgenda rest).hostTurn t)
  | .reset :: rest => .next (s.freshEpoch.withAgenda rest).resetInput

/-- `s` with the word `w` of `nbits` bits accepted as the pending command and the engine's turn next: what
a CMD write of that word at an idle block leaves (40_control.md R171), with whatever else is on the agenda
after it. A command already pending is replaced. -/
def State.withFetchWord (s : State) (nbits w : Nat) : State :=
  (s.accept (BitVec.ofNat 32 (w % 2 ^ nbits))).withAgenda (.engine :: s.agenda)

end Sys2Proof.Machine
end

