-- ==== Sys2Proof/Safety.lean ====
section
/-! DEFINITION. The vocabulary of the claims: the state invariant, the two ways a command ends written out
field by field, and the spec's own descriptions of codes, trees, artifacts and BUILD's merging. -/

namespace Sys2Proof.Machine

/-! ## The invariant -/

/-- 1 ≤ IBUF_SIZE, OBUF_SIZE ≤ 2^30 (00_scope.md R9). -/
def State.paramsOk (s : State) : Bool :=
  decide (1 ≤ s.ibufSize) && decide (s.ibufSize ≤ Config.maxBufferSize) &&
    decide (1 ≤ s.obufSize) && decide (s.obufSize ≤ Config.maxBufferSize)

/-- Both buffers keep their canonical form and lie inside their sizes (20_memory.md R84). -/
def State.buffersOk (s : State) : Bool :=
  s.ibuf.wf && s.ibuf.within s.ibufSize && s.obuf.wf && s.obuf.within s.obufSize

/-- TREE, where there is one, has no repeated leaf value (10_state.md R49). -/
def State.treeOk (s : State) : Bool :=
  match s.tree with
  | none => true
  | some t => t.wf

/-- Σ_v FREQ[v], on unbounded integers (00_scope.md R10). -/
def FreqTable.total (F : FreqTable) : Nat := (F.toList.map BitVec.toNat).sum

/-- Σ_v FREQ[v] ≤ IBUF_SIZE (41_analysis.md R194, R200). -/
def State.freqOk (s : State) : Bool := decide (s.freq.total ≤ s.ibufSize)

/-- While a command is pending: CMD holds its word, the cursors stand as at acceptance and DONE = 0
(10_state.md R51, 40_control.md R171, 70_reset_and_hazards.md R373). -/
def State.pendOk (s : State) : Bool :=
  match s.pend with
  | none => true
  | some p =>
    decide (p.word = s.cmd) && decide (p.inPtr0 = s.inPtr) && decide (p.outLen0 = s.outLen) &&
      !s.done

/-- PATH_LEN ≤ 255, PATH_BITS is 0 from bit PATH_LEN on, and both are 0 where PATH_FOUND = 0
(10_state.md R37, R39). -/
def State.pathOk (s : State) : Bool :=
  decide (s.pathLen.toNat ≤ Config.maxCodeLen) && (s.pathBits >>> s.pathLen.toNat == 0) &&
    (s.pathFound || (s.pathLen == 0 && s.pathBits == 0))

/-- The invariant of the machine. -/
structure State.Inv (s : State) : Prop where
  params : s.paramsOk = true
  buffers : s.buffersOk = true
  tree : s.treeOk = true
  freq : s.freqOk = true
  pend : s.pendOk = true
  path : s.pathOk = true

/-! ## How a command ends -/

/-- `s`, the command `p` completed with result OK: PEND idle (so BUSY = 0), DONE = 1, RESULT and ERR_INFO
written, nothing else (60_exceptions.md R321, R322). -/
def State.finished (p : Pending) (s : State) : State :=
  { s with
    pend := none
    done := true
    resultOpcode := opcodeOf p.word
    resultCode := .ok
    errInfo := 0 }

/-- `s`, the command `p` aborted with a result code and detail value: as `finished`, with ERR = 1 and the
cursors at their values at acceptance (60_exceptions.md R321, R325, R326 point 1). -/
def State.aborted (p : Pending) (code : ResultCode) (info : Word) (s : State) : State :=
  { s with
    pend := none
    done := true
    err := true
    resultOpcode := opcodeOf p.word
    resultCode := code
    errInfo := info
    inPtr := p.inPtr0
    outLen := p.outLen0 }

/-- The engine is about to run the command `p`, and the cursors stand as at its acceptance
(40_control.md R171, 70_reset_and_hazards.md R373). -/
def State.runs (s : State) (p : Pending) : Prop :=
  s.pend = some p ∧ p.inPtr0 = s.inPtr ∧ p.outLen0 = s.outLen

/-- The region IBUF[IN_PTR .. IN_LEN) passes InCheck, every byte of it has been written, and its bytes
are `d` (40_control.md R175). -/
def State.regionIs (s : State) (d : List Byte) : Prop :=
  s.inLen.toNat ≤ s.ibufSize ∧ s.inLen.toNat = s.inPtr.toNat + d.length ∧
    s.ibuf.holds s.inPtr.toNat d

/-- The region passes InCheck and begins with the written bytes `b`; nothing is said of what follows them
(40_control.md R175). -/
def State.regionStarts (s : State) (b : List Byte) : Prop :=
  s.inLen.toNat ≤ s.ibufSize ∧ s.inPtr.toNat + b.length ≤ s.inLen.toNat ∧
    s.ibuf.holds s.inPtr.toNat b

/-- An aligned word read at `addr` answers OKAY with `v`, whatever the write data lines carry, and changes
nothing (20_memory.md R83, R87, R93). -/
def State.reads (s : State) (addr v : Word) : Prop :=
  ∀ w, s.hostAccess ⟨.read, addr, .word, w⟩ = (s, ⟨.okay, v⟩)

/-- The bytes `a .. a+|b|` of `m'` are `b`, and every other byte is as in `m`: what a store of `b` at
offset `a` does (00_scope.md R13). -/
def Memory.stored (m m' : Memory) (a : Nat) (b : List Byte) : Prop :=
  (∀ i, (h : i < b.length) → m'.read? (a + i) = some b[i]) ∧
    ∀ x, x < a ∨ a + b.length ≤ x → m'.read? x = m.read? x

/-- Every byte below offset `a` of `m'` is as in `m`, and from `a` on none is defined
(60_exceptions.md R326 point 4). -/
def Memory.forgotten (m m' : Memory) (a : Nat) : Prop :=
  (∀ x, x < a → m'.read? x = m.read? x) ∧ ∀ x, a ≤ x → m'.read? x = none

/-! ## Trees and codes -/

/-- The subtree a sequence of steps leads to, `true` to the left child (00_scope.md R14). -/
def HufTree.follow : HufTree → Code → Option HufTree
  | t, [] => some t
  | .leaf _ _, _ :: _ => none
  | .node _ l r, b :: c => if b then l.follow c else r.follow c

/-- The leaves with their weights, left to right. -/
def HufTree.weightedLeaves : HufTree → List (Byte × Weight)
  | .leaf w v => [(v, w)]
  | .node _ l r => l.weightedLeaves ++ r.weightedLeaves

/-- The code bit stream of a byte sequence (30_encoding.md R135). -/
def codeBits (t : HufTree) (d : List Byte) : List Bool :=
  d.flatMap fun x => (t.code? x).getD []

/-- The first stream bits of the body `B` are `S`: stream bit k is bit k mod 8 of byte k div 8
(30_encoding.md R136, 43_bitstream.md R277). Nothing is said of the bits after them (R280). -/
def startsWithBits (B : List Byte) (S : List Bool) : Prop :=
  ∀ k, (h : k < S.length) → ∃ x, B[k / 8]? = some x ∧ x.getLsbD (k % 8) = S[k]

/-- `artifact(d) = ser(t) ++ toBE_8(|d|) ++ body(d, t)` (30_encoding.md R133). -/
def artifact (t : HufTree) (d : List Byte) : List Byte :=
  t.ser.getD [] ++ toBE 8 d.length ++ packBits (codeBits t d)

/-! ## BUILD -/

/-- `A` is the entry of `S` with the least (w, seq) (41_analysis.md R195). -/
def IsLeast (A : Entry) (S : List Entry) : Prop :=
  A ∈ S ∧ ∀ x ∈ S, x ≠ A → A.before x = true

/-- The merging loop of 41_analysis.md R195 over an unordered set of entries, whatever structure holds it
(R52): `Builds S seq t` when the loop, started with the set `S` and the next sequence number `seq`, ends
with the tree `t`. -/
inductive Builds : List Entry → Nat → HufTree → Prop
  | root (e : Entry) (seq : Nat) : Builds [e] seq e.t
  | merge (S : List Entry) (seq : Nat) (A B : Entry) (t : HufTree) :
      IsLeast A S → IsLeast B (S.erase A) →
      Builds (joinEntries A B seq :: (S.erase A).erase B) (seq + 1) t → Builds S seq t

end Sys2Proof.Machine
end

