-- ==== Sys2Proof/Certificates/Slice0/Obligations.lean ====
section
/-! DEFINITION. The statements for the provers. A statement about a command has the pending command `p` as a
premise (`s.pend = some p`, what acceptance leaves) and concludes the whole next state: every field it does
not name keeps its value. -/

open Sys2Proof Sys2Proof.Machine

/-! ## Command words -/

/-- 30_encoding.md R120 to R124: no bit of an encoding is dropped, and every legal word has one meaning. -/
def Obligations.DecodeEncodeRoundTrip : Prop :=
  (∀ i : Instr, decode (encode i) = .ok i) ∧
    ∀ (w : Word) (i : Instr), decode w = .ok i → encode i = w

/-- 30_encoding.md R123: the match and mask table selects exactly what the decoder of R124 reads, and at
most one row selects a word. -/
def Obligations.DecodeSelectsMatchMaskRow : Prop :=
  (∀ (w : Word), ∀ r ∈ encodingTable,
    (r.selects w = true ↔ ∃ i, decode w = .ok i ∧ i.mnemonic = r.mnemonic)) ∧
    ∀ (w : Word), ∀ r ∈ encodingTable, ∀ r' ∈ encodingTable,
      r.selects w = true → r'.selects w = true → r = r'

/-- spec/opcode_table.json and V-CT1 of 95_test_vectors.md: words written out bit by bit. -/
def Obligations.WrittenWordsDecode : Prop :=
  decode 0b00000000000000000000000000000000 = .ok .nop ∧
    decode 0b00000000000000000110000100010010 = .ok (.path 0x61) ∧
    decode 0b00000000000000000000000100100001 = .ok (.deserialize true) ∧
    decode 0b00000000000000000000000000110010 = .ok .pack ∧
    decode 0b00000000000000000000000001000001 = .ok .decompress ∧
    decode 0b00000000000000000000000100010000 = .error .reservedBit ∧
    decode 0b00000000000000000000000001000010 = .error .undefinedOpcode

/-! ## Issue and completion -/

/-- 40_control.md R171: a CMD write while BUSY = 0. -/
def Obligations.AcceptanceOfCommandWord : Prop :=
  ∀ (s : State) (w : Word), s.pend = none →
    let r := s.hostAccess ⟨.write, 0x00000018, .word, w⟩
    r.1 = { s with cmd := w, pend := some ⟨w, s.inPtr, s.outLen⟩, done := false } ∧
      r.2.resp = .okay ∧ r.1.busy = true ∧ r.1.irq = (s.err && s.ieErr)

/-- 40_control.md R172: a CMD write while BUSY = 1. -/
def Obligations.CommandDroppedWhileBusy : Prop :=
  ∀ (s : State) (p : Pending) (w : Word), s.pend = some p →
    let r := s.hostAccess ⟨.write, 0x00000018, .word, w⟩
    r.1 = { s with cmdDropped := true } ∧ r.2.resp = .okay

/-- 40_control.md R173: the engine's step decodes the accepted word and runs that command, in a fresh epoch
of free draws (log 4), with the event taken off the agenda (log 2). -/
def Obligations.StepRunsDecodedCommand : Prop :=
  ∀ (s : State) (p : Pending) (i : Instr), s.pend = some p → decode p.word = .ok i →
    (s.agenda = [] → step s = exec i { s with draws := s.draws + 1 }) ∧
    ∀ rest, s.agenda = .engine :: rest →
      step s = exec i { s with draws := s.draws + 1, agenda := rest }

/-- The model's `withFetchWord` (log 2): the very next step runs exactly the encoded command. -/
def Obligations.FetchWordIsRunNext : Prop :=
  ∀ (s : State) (i : Instr),
    step (s.withFetchWord 32 (encode i).toNat) =
      exec i { s with
        cmd := encode i
        pend := some ⟨encode i, s.inPtr, s.outLen⟩
        done := false
        draws := s.draws + 1 }

/-- 30_encoding.md R125, 40_control.md R176: a word with an unlisted opcode or a nonzero reserved bit
completes with IllegalCommand and ERR_INFO = the word, and no other state changes. -/
def Obligations.IllegalWordAborts : Prop :=
  ∀ (s : State) (p : Pending) (rest : List Event), s.pend = some p → commandWordOk p.word = false →
    s.agenda = .engine :: rest →
    step s = .next
      (({ s with draws := s.draws + 1, agenda := rest } : State).aborted p .illegalCommand p.word)

/-- 60_exceptions.md R321 to R323, R325: the engine's step on a pending command always ends in one
completion, reported in RESULT with the command's opcode. -/
def Obligations.EveryCommandCompletes : Prop :=
  ∀ (s : State) (p : Pending), s.pend = some p →
    (s.agenda = [] ∨ ∃ rest, s.agenda = .engine :: rest) →
    ∃ s', step s = .next s' ∧ s'.pend = none ∧ s'.busy = false ∧ s'.done = true ∧
      s'.resultOpcode = opcodeOf p.word ∧
      s'.irq = (s'.ieDone || (s'.err && s'.ieErr)) ∧
      (s'.resultCode = .ok → s'.errInfo = 0 ∧ s'.err = s.err) ∧
      (s'.resultCode ≠ .ok → s'.err = true ∧ s'.inPtr = p.inPtr0 ∧ s'.outLen = p.outLen0)

/-- 10_state.md R24, column "written by commands", with R25, R26, R45, R46 and 20_memory.md R84: what each
command leaves alone, whether it succeeds or aborts. -/
def Obligations.CommandsWriteOnlyTheirRegisters : Prop :=
  ∀ (i : Instr) (s s' : State) (p : Pending), s.runs p → exec i s = .next s' →
    (s'.ibufSize = s.ibufSize ∧ s'.obufSize = s.obufSize ∧ s'.ieDone = s.ieDone ∧
      s'.ieErr = s.ieErr ∧ s'.hostConflict = s.hostConflict ∧ s'.cmdDropped = s.cmdDropped ∧
      s'.cmd = s.cmd ∧ s'.ibuf = s.ibuf ∧ s'.response = s.response ∧ s'.draws = s.draws ∧
      s'.agenda = s.agenda) ∧
    (i ≠ .clear → s'.inLen = s.inLen) ∧
    (i ≠ .clear → i ≠ .rdlen → i ≠ .unpack → i ≠ .decompress → (∀ e, i ≠ .deserialize e) →
      s'.inPtr = s.inPtr) ∧
    (i ≠ .clear → i ≠ .serialize → i ≠ .wrlen → i ≠ .pack → i ≠ .unpack → i ≠ .compress →
      i ≠ .decompress → s'.outLen = s.outLen) ∧
    (i ≠ .clear → i ≠ .count → i ≠ .rdlen → i ≠ .compress → i ≠ .decompress →
      s'.origLen = s.origLen) ∧
    (i ≠ .clear → i ≠ .pack → i ≠ .unpack → i ≠ .compress → i ≠ .decompress →
      s'.bitLen = s.bitLen) ∧
    (i ≠ .clear → i ≠ .build → i ≠ .compress → i ≠ .decompress → (∀ e, i ≠ .deserialize e) →
      s'.tree = s.tree) ∧
    (i ≠ .clear → i ≠ .count → i ≠ .compress → s'.freq = s.freq) ∧
    (i ≠ .clear → (∀ v, i ≠ .path v) →
      s'.pathFound = s.pathFound ∧ s'.pathLen = s.pathLen ∧ s'.pathBits = s.pathBits) ∧
    (i ≠ .serialize → i ≠ .wrlen → i ≠ .pack → i ≠ .unpack → i ≠ .compress → i ≠ .decompress →
      s'.obuf = s.obuf)

/-- 60_exceptions.md R326: the state after an abort of any command. The clauses on TREE and OBUF name the
errors that change them; a composite's first step has begun once its own checks have passed (log 18). -/
def Obligations.AbortRestoresAndKeeps : Prop :=
  ∀ (i : Instr) (s s' : State) (p : Pending), s.runs p → s.paramsOk = true →
    exec i s = .next s' → s'.resultCode ≠ .ok →
    s'.inPtr = s.inPtr ∧ s'.outLen = s.outLen ∧ s'.inLen = s.inLen ∧ s'.bitLen = s.bitLen ∧
    s'.ieDone = s.ieDone ∧ s'.ieErr = s.ieErr ∧ s'.ibuf = s.ibuf ∧
    s'.hostConflict = s.hostConflict ∧ s'.cmdDropped = s.cmdDropped ∧
    s'.pathFound = s.pathFound ∧ s'.pathLen = s.pathLen ∧ s'.pathBits = s.pathBits ∧
    (i = .build → s'.tree = none) ∧
    (∀ e, i = .deserialize e →
      s'.tree = if s'.resultCode = .formatError then none else s.tree) ∧
    (i ≠ .build → (∀ e, i ≠ .deserialize e) → i ≠ .compress → i ≠ .decompress →
      s'.tree = s.tree) ∧
    (i ≠ .compress → s'.freq = s.freq) ∧
    (i ≠ .compress → i ≠ .decompress → s'.origLen = s.origLen) ∧
    (if (i = .unpack ∧ s'.resultCode = .truncatedStream) ∨
        ((i = .compress ∨ i = .decompress) ∧ s'.resultCode ≠ .badRegion ∧
          s'.resultCode ≠ .emptyInput)
      then s.obuf.forgotten s'.obuf s.outLen.toNat else s'.obuf = s.obuf)

/-! ## Reset and the invariant -/

/-- 70_reset_and_hazards.md R361: the reset value of every piece of state, for every pair of buffer
sizes. -/
def Obligations.ResetValues : Prop :=
  ∀ (n m : Nat), let s := State.resetWith n m
    s.reads 0x000 0x48554643 ∧ s.reads 0x004 0x00010000 ∧
    s.reads 0x008 (BitVec.ofNat 32 n) ∧ s.reads 0x00C (BitVec.ofNat 32 m) ∧
    s.reads 0x010 0 ∧ s.reads 0x014 0 ∧ s.reads 0x018 0 ∧ s.reads 0x01C 0 ∧ s.reads 0x020 0 ∧
    s.reads 0x024 0 ∧ s.reads 0x028 0 ∧ s.reads 0x02C 0 ∧ s.reads 0x030 0 ∧ s.reads 0x034 0 ∧
    s.reads 0x038 0 ∧ s.reads 0x03C 0 ∧ s.reads 0x040 0 ∧ s.reads 0x044 0 ∧ s.reads 0x048 0 ∧
    (∀ j, j < 4 → s.reads (BitVec.ofNat 32 (0x050 + 4 * j)) 0) ∧
    (∀ j, j < 8 → s.reads (BitVec.ofNat 32 (0x060 + 4 * j)) 0) ∧
    (∀ j, j < 8 → s.reads (BitVec.ofNat 32 (0x080 + 4 * j)) 0) ∧
    (∀ v, s.freq.get v = 0) ∧ s.tree = none ∧
    s.pend = none ∧ s.irq = false ∧ (∀ a, s.ibuf.read? a = none) ∧ ∀ a, s.obuf.read? a = none

/-- 70_reset_and_hazards.md R360: the reset input discards a pending command and leaves the reset state; the
parameters, the model's epoch and its agenda stay (log 13). -/
def Obligations.ResetInputRestoresResetState : Prop :=
  ∀ (s : State) (rest : List Event), s.agenda = .reset :: rest →
    step s = .next { State.resetWith s.ibufSize s.obufSize with
      draws := s.draws + 1, agenda := rest }

/-- The invariant holds of the reset state of every block whose buffer sizes are legal (00_scope.md R9), the
sizes of `State.reset` (log 1) among them. -/
def Obligations.InvariantHoldsAtReset : Prop :=
  State.reset.Inv ∧ ∀ n m, 1 ≤ n → n ≤ 2 ^ 30 → 1 ≤ m → m ≤ 2 ^ 30 → (State.resetWith n m).Inv

/-- Every step, of the engine, of the host or of the reset input, keeps the invariant: buffers in canonical
form and inside their sizes, no repeated leaf value in TREE, counts within IBUF_SIZE, PEND in agreement with
CMD and the cursors, PATH_BITS clear above PATH_LEN. -/
def Obligations.EveryStepKeepsInvariant : Prop :=
  ∀ s s' : State, s.Inv → step s = .next s' → s'.Inv

/-! ## NOP and CLEAR -/

/-- 40_control.md R177: NOP completes and changes nothing else; a nonzero reserved bit makes the word
illegal. -/
def Obligations.NopOnlyCompletes : Prop :=
  (∀ (s : State) (p : Pending), s.pend = some p → exec .nop s = .next (s.finished p)) ∧
    ∀ w : Word, opcodeOf w = 0x00 → w ≠ 0 → decode w = .error .reservedBit

/-- 40_control.md R178, 70_reset_and_hazards.md R362: exactly the state CLEAR resets, and its completion. -/
def Obligations.ClearResetsItsState : Prop :=
  ∀ (s : State) (p : Pending), s.pend = some p →
    ∃ F : FreqTable, (∀ v, F.get v = 0) ∧
      exec .clear s = .next
        (({ s with
          freq := F
          tree := none
          inLen := 0
          inPtr := 0
          outLen := 0
          origLen := 0
          bitLen := 0
          pathLen := 0
          pathBits := 0
          pathFound := false } : State).finished p)

/-! ## COUNT, BUILD, PATH -/

/-- 41_analysis.md R192, R193: FREQ[v] is the number of region bytes equal to v, ORIG_LEN the length of the
region and the sum of the counts; nothing else changes. A bad region changes nothing. -/
def Obligations.CountTabulatesRegion : Prop :=
  ∀ (s : State) (p : Pending), s.pend = some p →
    (s.inRegionOk = false → exec .count s = .next (s.aborted p .badRegion 0)) ∧
    (s.inRegionOk = true → s.paramsOk = true →
      ∃ (F : FreqTable) (n : DWord),
        exec .count s = .next (({ s with freq := F, origLen := n } : State).finished p) ∧
        n.toNat = s.inLen.toNat - s.inPtr.toNat ∧ F.total = n.toNat ∧
        ∀ v, (F.get v).toNat = ((List.range (s.inLen.toNat - s.inPtr.toNat)).filter fun k =>
          s.ibufByte .count (s.inPtr.toNat + k) = v).length)

/-- 41_analysis.md R195: BUILD raises EmptyInput, and destroys TREE, exactly when every FREQ[v] = 0. -/
def Obligations.BuildWithoutCountsAborts : Prop :=
  ∀ (s : State) (p : Pending), s.pend = some p →
    ((∀ v, s.freq.get v = 0) ↔
      exec .build s = .next (({ s with tree := none } : State).aborted p .emptyInput 0))

/-- 41_analysis.md R197, R199, R202, R204: the tree BUILD leaves. Its leaves are the values with nonzero
counts, each with its count; weights add up; the left weight is at most the right one; n leaves have n − 1
nodes and codes of at most n − 1 bits. Nothing but TREE changes. -/
def Obligations.BuildMakesWeightedTree : Prop :=
  ∀ (s : State) (p : Pending), s.pend = some p → (∃ v, s.freq.get v ≠ 0) →
    s.freq.total < 2 ^ 128 →
    ∃ t, exec .build s = .next (({ s with tree := some t } : State).finished p) ∧
      t.weightsAdd = true ∧ t.leftLighter = true ∧ t.weight.toNat = s.freq.total ∧
      t.leaves.Nodup ∧ (∀ v w, (v, w) ∈ t.weightedLeaves ↔ w = s.freq.get v ∧ w ≠ 0) ∧
      t.nodes = 2 * t.leaves.length - 1 ∧
      ∀ v x, t.code? v = some x → x.length ≤ t.leaves.length - 1 ∧ x.length ≤ 255

/-- 41_analysis.md R195, R196 and 10_state.md R52: whatever structure holds the working set, BUILD's tree is
the one of the loop that extracts the least (weight, seq) twice and joins, from leaves numbered in ascending
byte value. -/
def Obligations.BuildFollowsTieBreak : Prop :=
  ∀ (s s' : State) (p : Pending) (t : HufTree), s.pend = some p → exec .build s = .next s' →
    s'.tree = some t →
    let used := ((List.range 256).map (BitVec.ofNat 8)).filter fun v => s.freq.get v ≠ 0
    ∃ S : List Entry, S.map Entry.t = used.map (fun v => HufTree.leaf (s.freq.get v) v) ∧
      S.map Entry.w = used.map s.freq.get ∧ S.map Entry.seq = List.range used.length ∧
      Builds S used.length t

/-- 41_analysis.md R205, R206, 10_state.md R37, R39, R47: PATH without a tree, with a leaf of that value,
and without one. The code is the path from the root to the leaf. -/
def Obligations.PathReturnsRootToLeafCode : Prop :=
  ∀ (s : State) (p : Pending) (v : Byte), s.pend = some p →
    (s.tree = none → exec (.path v) s = .next (s.aborted p .noTree 0)) ∧
    (∀ t, s.tree = some t → t.wf = true → s.leafMap.getLsbD v.toNat = true →
      ∃ (x : Code) (w : Weight) (P : BitVec 256) (L : BitVec 9),
        t.follow x = some (.leaf w v) ∧ L.toNat = x.length ∧
        (∀ i, P.getLsbD i = x.getD i false) ∧
        exec (.path v) s = .next
          (({ s with pathFound := true, pathLen := L, pathBits := P } : State).finished p)) ∧
    (∀ t, s.tree = some t → s.leafMap.getLsbD v.toNat = false →
      exec (.path v) s = .next
        (({ s with pathFound := false, pathLen := 0, pathBits := 0 } : State).finished p))

/-- 41_analysis.md R208: no code is the start of another one. -/
def Obligations.CodesArePrefixFree : Prop :=
  ∀ (t : HufTree) (u v : Byte) (x y : Code), t.code? u = some x → t.code? v = some y → u ≠ v →
    ¬ x <+: y ∧ ¬ y <+: x

/-! ## SERIALIZE, DESERIALIZE -/

/-- 30_encoding.md R131, 42_tree_codec.md R234: the size of a blob; no tree the block can hold reaches the
payload cap. -/
def Obligations.SerializedTreeSize : Prop :=
  (∀ w v b, (HufTree.leaf w v).ser = some b → b.length = 19) ∧
  (∀ w l r b p q, (HufTree.node w l r).ser = some b → l.ser = some p → r.ser = some q →
    b.length = 18 + p.length + q.length) ∧
  ∀ t : HufTree, t.wf = true →
    ∃ b, t.ser = some b ∧ b.length = 37 * t.leaves.length - 18 ∧ b.length ≤ 9454

/-- 42_tree_codec.md R232, R233: SERIALIZE appends exactly ser(TREE), or aborts before any write. -/
def Obligations.SerializeAppendsBlob : Prop :=
  ∀ (s : State) (p : Pending), s.pend = some p → s.paramsOk = true →
    (s.outRegionOk = false → exec .serialize s = .next (s.aborted p .badRegion 1)) ∧
    (s.outRegionOk = true → s.tree = none → exec .serialize s = .next (s.aborted p .noTree 0)) ∧
    (∀ t, s.outRegionOk = true → s.tree = some t → t.ser = none →
      exec .serialize s = .next (s.aborted p .oversizedSubtree 0)) ∧
    ∀ t b, s.outRegionOk = true → s.tree = some t → t.ser = some b →
      (s.outLen.toNat + b.length > s.obufSize →
        exec .serialize s = .next (s.aborted p .outputOverflow s.outLen)) ∧
      (s.outLen.toNat + b.length ≤ s.obufSize →
        ∃ (m : Memory) (n : Word), n.toNat = s.outLen.toNat + b.length ∧
          s.obuf.stored m s.outLen.toNat b ∧
          exec .serialize s = .next (({ s with obuf := m, outLen := n } : State).finished p))

/-- 42_tree_codec.md R244, R236: DESERIALIZE with EXACT = 1 over ser(t) yields t, and whatever region it
accepts is the serialization of the tree it leaves; with EXACT = 0 the region starts with that serialization
and IN_PTR moves past it. -/
def Obligations.DeserializeInvertsSerialize : Prop :=
  (∀ (s : State) (p : Pending) (t : HufTree) (b : List Byte), s.pend = some p → t.wf = true →
    t.ser = some b → s.regionIs b →
    exec (.deserialize true) s = .next
      (({ s with tree := some t, inPtr := s.inLen } : State).finished p)) ∧
  ∀ (s s' : State) (p : Pending) (e : Bool) (d : List Byte), s.pend = some p → s.regionIs d →
    exec (.deserialize e) s = .next s' → s'.resultCode = .ok →
    ∃ t b rest, s'.tree = some t ∧ t.ser = some b ∧ d = b ++ rest ∧
      s'.inPtr.toNat = s.inPtr.toNat + b.length ∧ (e = true → d = b)

/-- 42_tree_codec.md R236: with EXACT = 0 the blob is the prefix of the region that its root declares,
whatever stands after it, unwritten bytes among it. -/
def Obligations.DeserializeReadsLeadingBlob : Prop :=
  ∀ (s : State) (p : Pending) (t : HufTree) (b : List Byte), s.pend = some p →
    t.wf = true → t.ser = some b → s.regionStarts b →
    ∃ n : Word, n.toNat = s.inPtr.toNat + b.length ∧
      exec (.deserialize false) s = .next
        (({ s with tree := some t, inPtr := n } : State).finished p)

/-- 42_tree_codec.md R236, R240, R243, R245: how DESERIALIZE can end. A bad region changes nothing; a
FormatError names an offset of the region and destroys TREE, so that the summary registers read 0; a success
leaves a tree of at most 511 nodes without repeated values. -/
def Obligations.DeserializeOutcomes : Prop :=
  ∀ (s : State) (p : Pending) (e : Bool), s.pend = some p →
    (s.inRegionOk = false → exec (.deserialize e) s = .next (s.aborted p .badRegion 0)) ∧
    (s.inRegionOk = true →
      (∃ (t : HufTree) (n : Word), t.wf = true ∧ t.nodes ≤ 511 ∧
        n.toNat = s.inPtr.toNat + t.blobLen ∧ n.toNat ≤ s.inLen.toNat ∧
        (e = true → n = s.inLen) ∧
        exec (.deserialize e) s = .next
          (({ s with tree := some t, inPtr := n } : State).finished p)) ∨
      (∃ a : Word, s.inPtr.toNat ≤ a.toNat ∧ a.toNat ≤ s.inLen.toNat ∧
        let s' := ({ s with tree := none } : State).aborted p .formatError a
        exec (.deserialize e) s = .next s' ∧ s'.nLeaves = 0 ∧ s'.blobLen = 0 ∧
          s'.rootWeight = 0 ∧ s'.leafMap = 0))

/-- 42_tree_codec.md R246: a blob whose root payload-size field has another value is a FormatError at
IN_PTR. -/
def Obligations.RootSizeCorruptionIsFormatError : Prop :=
  ∀ (s : State) (p : Pending) (t : HufTree) (b : List Byte) (ps : Nat), s.pend = some p →
    t.ser = some b → ps < 65536 → 18 + ps ≠ b.length →
    s.regionIs (b.take 16 ++ toBE 2 ps ++ b.drop 18) →
    exec (.deserialize true) s = .next
      (({ s with tree := none } : State).aborted p .formatError s.inPtr)

/-- 42_tree_codec.md R239: a blob in which two leaves carry the same value is a FormatError; for two sibling
leaves the offset is the second one's header. -/
def Obligations.DuplicateLeafIsFormatError : Prop :=
  (∀ (s : State) (p : Pending) (t : HufTree) (b : List Byte), s.pend = some p →
    t.ser = some b → ¬ t.leaves.Nodup → s.regionIs b →
    ∃ a : Word, exec (.deserialize true) s = .next
      (({ s with tree := none } : State).aborted p .formatError a)) ∧
  ∀ (s : State) (p : Pending) (w wl wr : Weight) (v : Byte) (b : List Byte), s.pend = some p →
    (HufTree.node w (.leaf wl v) (.leaf wr v)).ser = some b → s.regionIs b →
    exec (.deserialize true) s = .next
      (({ s with tree := none } : State).aborted p .formatError (s.inPtr + 37))

/-! ## WRLEN, RDLEN, PACK, UNPACK -/

/-- 43_bitstream.md R262: WRLEN appends ORIG_LEN as eight bytes, the most significant first, or aborts before
any write. -/
def Obligations.WrlenAppendsBigEndianLength : Prop :=
  ∀ (s : State) (p : Pending), s.pend = some p → s.paramsOk = true →
    (s.outRegionOk = false → exec .wrlen s = .next (s.aborted p .badRegion 1)) ∧
    (s.outRegionOk = true → s.outLen.toNat + 8 > s.obufSize →
      exec .wrlen s = .next (s.aborted p .outputOverflow s.outLen)) ∧
    (s.outLen.toNat + 8 ≤ s.obufSize →
      ∃ (m : Memory) (n : Word), n.toNat = s.outLen.toNat + 8 ∧
        s.obuf.stored m s.outLen.toNat
          ((List.range 8).map fun k => s.origLen.extractLsb' (56 - 8 * k) 8) ∧
        exec .wrlen s = .next (({ s with obuf := m, outLen := n } : State).finished p))

/-- 43_bitstream.md R266: RDLEN loads ORIG_LEN from eight bytes, the most significant first, and advances
IN_PTR; fewer than eight bytes are a FormatError at IN_PTR. -/
def Obligations.RdlenLoadsBigEndianLength : Prop :=
  ∀ (s : State) (p : Pending), s.pend = some p →
    (s.inRegionOk = false → exec .rdlen s = .next (s.aborted p .badRegion 0)) ∧
    (s.inRegionOk = true → s.inLen.toNat - s.inPtr.toNat < 8 →
      exec .rdlen s = .next (s.aborted p .formatError s.inPtr)) ∧
    (s.inRegionOk = true → 8 ≤ s.inLen.toNat - s.inPtr.toNat →
      ∃ (v : DWord) (n : Word), n.toNat = s.inPtr.toNat + 8 ∧
        (∀ k, k < 8 →
          v.extractLsb' (56 - 8 * k) 8 = s.ibufByte .length (s.inPtr.toNat + k)) ∧
        exec .rdlen s = .next (({ s with origLen := v, inPtr := n } : State).finished p))

/-- 30_encoding.md R136: stream bit k is in body byte k div 8 at bit k mod 8, and the unused high bits of the
last byte are 0. -/
def Obligations.PackedBitPositions : Prop :=
  ∀ S : List Bool, (packBits S).length = (S.length + 7) / 8 ∧
    (∀ k, (h : k < S.length) → ∃ B, (packBits S)[k / 8]? = some B ∧ B.getLsbD (k % 8) = S[k]) ∧
    ∀ (j : Nat) (B : Byte), (packBits S)[j]? = some B →
      ∀ i, i < 8 → S.length ≤ 8 * j + i → B.getLsbD i = false

/-- 43_bitstream.md R270 to R272, over a written region: PACK appends the packed code stream and sets
BIT_LEN to its length, or aborts before any write. -/
def Obligations.PackAppendsCodeStream : Prop :=
  ∀ (s : State) (p : Pending), s.pend = some p →
    (s.inRegionOk = false → exec .pack s = .next (s.aborted p .badRegion 0)) ∧
    (s.inRegionOk = true → s.outRegionOk = false →
      exec .pack s = .next (s.aborted p .badRegion 1)) ∧
    (s.inRegionOk = true → s.outRegionOk = true → s.tree = none →
      exec .pack s = .next (s.aborted p .noTree 0)) ∧
    ∀ (t : HufTree) (d : List Byte), s.regionIs d → s.outRegionOk = true → s.tree = some t →
      t.wf = true → s.paramsOk = true → (∀ v ∈ d, v ∈ t.leaves) →
      (s.outLen.toNat + ((codeBits t d).length + 7) / 8 > s.obufSize →
        exec .pack s = .next (s.aborted p .outputOverflow s.outLen)) ∧
      (s.outLen.toNat + ((codeBits t d).length + 7) / 8 ≤ s.obufSize →
        ∃ (m : Memory) (n : Word) (T : DWord), T.toNat = (codeBits t d).length ∧
          n.toNat = s.outLen.toNat + ((codeBits t d).length + 7) / 8 ∧
          s.obuf.stored m s.outLen.toNat (packBits (codeBits t d)) ∧
          exec .pack s = .next
            (({ s with obuf := m, outLen := n, bitLen := T } : State).finished p))

/-- 43_bitstream.md R273: the first byte without a leaf ends PACK with NotInTree at its offset, before the
capacity check and before any write. -/
def Obligations.PackRefusesByteWithoutLeaf : Prop :=
  ∀ (s : State) (p : Pending) (t : HufTree) (d e : List Byte) (x : Byte), s.pend = some p →
    s.regionIs (d ++ x :: e) → s.outRegionOk = true → s.tree = some t →
    (∀ v ∈ d, v ∈ t.leaves) → x ∉ t.leaves →
    ∃ a : Word, a.toNat = s.inPtr.toNat + d.length ∧
      exec .pack s = .next (s.aborted p .notInTree a)

/-- 43_bitstream.md R282, R280: UNPACK of a body whose first stream bits are the codes of `d` emits exactly
`d`, consumes exactly those bits and stops there, whatever the padding bits and the bytes after them are; the
bytes PACK of `d` wrote are such a body. -/
def Obligations.UnpackInvertsPack : Prop :=
  (∀ (s : State) (p : Pending) (t : HufTree) (d B : List Byte), s.pend = some p →
    s.paramsOk = true → s.tree = some t → (∀ v ∈ d, v ∈ t.leaves) →
    s.origLen.toNat = d.length → s.outLen.toNat + d.length ≤ s.obufSize →
    s.regionStarts B → startsWithBits B (codeBits t d) →
    ∃ (m : Memory) (n k : Word) (T : DWord), n.toNat = s.outLen.toNat + d.length ∧
      k.toNat = s.inPtr.toNat + ((codeBits t d).length + 7) / 8 ∧
      T.toNat = (codeBits t d).length ∧ s.obuf.stored m s.outLen.toNat d ∧
      exec .unpack s = .next
        (({ s with obuf := m, outLen := n, inPtr := k, bitLen := T } : State).finished p)) ∧
  ∀ (s s' u : State) (p q : Pending) (t : HufTree) (d B : List Byte), s.pend = some p →
    s.paramsOk = true → s.tree = some t → t.wf = true → s.regionIs d → (∀ v ∈ d, v ∈ t.leaves) →
    exec .pack s = .next s' → s'.resultCode = .ok → s'.obuf.holds s.outLen.toNat B →
    s'.outLen.toNat = s.outLen.toNat + B.length →
    u.pend = some q → u.paramsOk = true → u.tree = some t → u.origLen.toNat = d.length →
    u.outLen.toNat + d.length ≤ u.obufSize → u.regionStarts B →
    B.length = (s'.bitLen.toNat + 7) / 8 ∧
      ∃ (m : Memory) (n k : Word), n.toNat = u.outLen.toNat + d.length ∧
        k.toNat = u.inPtr.toNat + B.length ∧ u.obuf.stored m u.outLen.toNat d ∧
        exec .unpack u = .next
          (({ u with obuf := m, outLen := n, inPtr := k, bitLen := s'.bitLen } :
            State).finished q)

/-- 43_bitstream.md R276, R278, R281: UNPACK's checks, and the two cases in which it reads no bit: a
single-leaf tree, and ORIG_LEN = 0 with any tree. -/
def Obligations.UnpackWithoutReadingBits : Prop :=
  ∀ (s : State) (p : Pending), s.pend = some p → s.paramsOk = true →
    (s.inRegionOk = false → exec .unpack s = .next (s.aborted p .badRegion 0)) ∧
    (s.inRegionOk = true → s.outRegionOk = false →
      exec .unpack s = .next (s.aborted p .badRegion 1)) ∧
    (s.inRegionOk = true → s.outRegionOk = true → s.tree = none →
      exec .unpack s = .next (s.aborted p .noTree 0)) ∧
    (∀ t, s.inRegionOk = true → s.outRegionOk = true → s.tree = some t →
      s.outLen.toNat + s.origLen.toNat > s.obufSize →
      exec .unpack s = .next (s.aborted p .outputOverflow s.outLen)) ∧
    (∀ w v, s.inRegionOk = true → s.tree = some (.leaf w v) →
      s.outLen.toNat + s.origLen.toNat ≤ s.obufSize →
      ∃ (m : Memory) (n : Word), n.toNat = s.outLen.toNat + s.origLen.toNat ∧
        s.obuf.stored m s.outLen.toNat (List.replicate s.origLen.toNat v) ∧
        exec .unpack s = .next
          (({ s with obuf := m, outLen := n, bitLen := 0 } : State).finished p)) ∧
    (∀ t, s.inRegionOk = true → s.outRegionOk = true → s.tree = some t → s.origLen = 0 →
      exec .unpack s = .next (({ s with bitLen := 0 } : State).finished p))

/-- 43_bitstream.md R276, R279, 60_exceptions.md R326: a body cut off inside the code of byte `c` (counting
from 0) is TruncatedStream with ERR_INFO = `c`; OBUF is unspecified from OUT_LEN0 on and nothing else
changes. -/
def Obligations.UnpackTruncatedBody : Prop :=
  ∀ (s : State) (p : Pending) (t : HufTree) (d : List Byte) (n c : Nat), s.runs p →
    s.paramsOk = true → s.tree = some t → (∀ v ∈ d, v ∈ t.leaves) →
    s.origLen.toNat = d.length → s.outLen.toNat + d.length ≤ s.obufSize →
    n ≤ ((codeBits t d).length + 7) / 8 → s.regionIs ((packBits (codeBits t d)).take n) →
    c < d.length → (codeBits t (d.take c)).length ≤ 8 * n →
    8 * n < (codeBits t (d.take (c + 1))).length →
    ∃ (m : Memory) (a : Word), a.toNat = c ∧ s.obuf.forgotten m s.outLen.toNat ∧
      exec .unpack s = .next
        (({ s with obuf := m } : State).aborted p .truncatedStream a)

/-! ## COMPRESS, DECOMPRESS -/

/-- 44_pipeline.md R302, 30_encoding.md R133: COMPRESS of a written region `d` leaves artifact(d) in OBUF,
where `t` is the tree BUILD makes from d's counts. -/
def Obligations.CompressWritesArtifact : Prop :=
  ∀ (s : State) (p : Pending) (d : List Byte), s.runs p → s.paramsOk = true → s.regionIs d →
    d ≠ [] →
    ∃ (F : FreqTable) (t : HufTree), (∀ v, (F.get v).toNat = d.count v) ∧
      exec .build { s with freq := F } =
        .next (({ s with freq := F, tree := some t } : State).finished p) ∧
      (artifact t d).length =
        37 * t.leaves.length - 18 + 8 + ((codeBits t d).length + 7) / 8 ∧
      (s.outLen.toNat + (artifact t d).length ≤ s.obufSize →
        ∃ (m : Memory) (n : Word) (N T : DWord),
          n.toNat = s.outLen.toNat + (artifact t d).length ∧ N.toNat = d.length ∧
          T.toNat = (codeBits t d).length ∧ s.obuf.stored m s.outLen.toNat (artifact t d) ∧
          exec .compress s = .next
            (({ s with
              freq := F
              tree := some t
              origLen := N
              bitLen := T
              obuf := m
              outLen := n } : State).finished p))

/-- 44_pipeline.md R300, R301: where the artifact does not fit, COMPRESS reports OutputOverflow at the start
of the step that fails; COUNT's and BUILD's effects remain, the cursors return and OBUF is unspecified from
OUT_LEN0 on. -/
def Obligations.CompressOverflowKeepsFinishedSteps : Prop :=
  ∀ (s : State) (p : Pending) (d : List Byte) (t : HufTree) (b : List Byte), s.runs p →
    s.paramsOk = true → s.outRegionOk = true → s.regionIs d → d ≠ [] →
    buildTree (countBytes d) = some t → t.ser = some b →
    s.outLen.toNat + (artifact t d).length > s.obufSize →
    ∃ (m : Memory) (N : DWord) (a : Word), N.toNat = d.length ∧
      s.obuf.forgotten m s.outLen.toNat ∧
      a.toNat = s.outLen.toNat +
        (if s.outLen.toNat + b.length > s.obufSize then 0
          else if s.outLen.toNat + b.length + 8 > s.obufSize then b.length
          else b.length + 8) ∧
      exec .compress s = .next
        (({ s with freq := countBytes d, tree := some t, origLen := N, obuf := m } :
          State).aborted p .outputOverflow a)

/-- 44_pipeline.md R301, R307, 40_control.md R175: COMPRESS's own checks change nothing. -/
def Obligations.CompressChecks : Prop :=
  ∀ (s : State) (p : Pending), s.pend = some p →
    (s.inRegionOk = false → exec .compress s = .next (s.aborted p .badRegion 0)) ∧
    (s.inRegionOk = true → s.outRegionOk = false →
      exec .compress s = .next (s.aborted p .badRegion 1)) ∧
    (s.inRegionOk = true → s.outRegionOk = true → s.inPtr = s.inLen →
      exec .compress s = .next (s.aborted p .emptyInput 0))

/-- 44_pipeline.md R303: COMPRESS of `N` copies of one value writes 27 bytes and no body. -/
def Obligations.CompressSingleSymbol : Prop :=
  ∀ (s : State) (p : Pending) (v : Byte) (N : Nat), s.runs p → s.paramsOk = true → 1 ≤ N →
    s.regionIs (List.replicate N v) → s.outLen.toNat + 27 ≤ s.obufSize →
    ∃ s', exec .compress s = .next s' ∧ s'.resultCode = .ok ∧
      s'.outLen.toNat = s.outLen.toNat + 27 ∧ s'.bitLen = 0 ∧
      s.obuf.stored s'.obuf s.outLen.toNat
        (toBE 16 N ++ [0x00, 0x01] ++ [v] ++ toBE 8 N)

/-- 44_pipeline.md R304, 43_bitstream.md R280: DECOMPRESS of a blob, a length field and a body whose first
stream bits are the codes of `d` writes exactly `d`, whatever the padding bits and the bytes after them are;
FREQ is not changed. -/
def Obligations.DecompressReadsArtifact : Prop :=
  ∀ (s : State) (p : Pending) (t : HufTree) (d b B : List Byte), s.runs p →
    s.paramsOk = true → t.wf = true → (∀ v ∈ d, v ∈ t.leaves) → t.ser = some b →
    s.regionStarts (b ++ toBE 8 d.length ++ B) → startsWithBits B (codeBits t d) →
    s.outLen.toNat + d.length ≤ s.obufSize →
    ∃ (m : Memory) (n k : Word) (N T : DWord), n.toNat = s.outLen.toNat + d.length ∧
      k.toNat = s.inPtr.toNat + (artifact t d).length ∧ N.toNat = d.length ∧
      T.toNat = (codeBits t d).length ∧ s.obuf.stored m s.outLen.toNat d ∧
      exec .decompress s = .next
        (({ s with
          tree := some t
          origLen := N
          bitLen := T
          obuf := m
          outLen := n
          inPtr := k } : State).finished p)

/-- 44_pipeline.md R305: decompressing what COMPRESS wrote for a nonempty `d` gives `d` back, on any other
state with room for it. -/
def Obligations.DecompressInvertsCompress : Prop :=
  ∀ (s s' u : State) (p q : Pending) (d a : List Byte), s.runs p → s.paramsOk = true →
    s.regionIs d → d ≠ [] → exec .compress s = .next s' → s'.resultCode = .ok →
    s'.obuf.holds s.outLen.toNat a → s'.outLen.toNat = s.outLen.toNat + a.length →
    u.runs q → u.paramsOk = true → u.regionIs a → u.outLen.toNat + d.length ≤ u.obufSize →
    ∃ u', exec .decompress u = .next u' ∧ u'.resultCode = .ok ∧
      u'.outLen.toNat = u.outLen.toNat + d.length ∧ u'.inPtr = u.inLen ∧
      u.obuf.stored u'.obuf u.outLen.toNat d

/-- 44_pipeline.md R300, R304: DECOMPRESS's own checks change nothing. After them, a FormatError of its
DESERIALIZE leaves TREE = none; where the length field is missing the tree it has read remains; where the
output does not fit, or the body is cut off inside the code of byte `c`, the length remains too. The cursors
return and OBUF is unspecified from OUT_LEN0 on (for an error of the first step: log 18). -/
def Obligations.DecompressKeepsFinishedSteps : Prop :=
  ∀ (s : State) (p : Pending), s.runs p → s.paramsOk = true →
    (s.inRegionOk = false → exec .decompress s = .next (s.aborted p .badRegion 0)) ∧
    (s.inRegionOk = true → s.outRegionOk = false →
      exec .decompress s = .next (s.aborted p .badRegion 1)) ∧
    (∀ s1 : State, s.inRegionOk = true → s.outRegionOk = true →
      exec (.deserialize false) s = .next s1 → s1.resultCode = .formatError →
      ∃ m : Memory, s.obuf.forgotten m s.outLen.toNat ∧
        exec .decompress s = .next
          (({ s with tree := none, obuf := m } : State).aborted p .formatError s1.errInfo)) ∧
    ∀ (t : HufTree) (b : List Byte), s.outRegionOk = true → t.wf = true →
      t.ser = some b → s.regionStarts b →
      (s.inLen.toNat - s.inPtr.toNat < b.length + 8 →
        ∃ (m : Memory) (a : Word), a.toNat = s.inPtr.toNat + b.length ∧
          s.obuf.forgotten m s.outLen.toNat ∧
          exec .decompress s = .next
            (({ s with tree := some t, obuf := m } : State).aborted p .formatError a)) ∧
      (∀ N : DWord, s.regionStarts (b ++ toBE 8 N.toNat) →
        s.outLen.toNat + N.toNat > s.obufSize →
        ∃ m : Memory, s.obuf.forgotten m s.outLen.toNat ∧
          exec .decompress s = .next
            (({ s with tree := some t, origLen := N, obuf := m } : State).aborted p
              .outputOverflow s.outLen)) ∧
      ∀ (d : List Byte) (n c : Nat), (∀ v ∈ d, v ∈ t.leaves) →
        s.outLen.toNat + d.length ≤ s.obufSize → n ≤ ((codeBits t d).length + 7) / 8 →
        s.regionIs (b ++ toBE 8 d.length ++ (packBits (codeBits t d)).take n) →
        c < d.length → (codeBits t (d.take c)).length ≤ 8 * n →
        8 * n < (codeBits t (d.take (c + 1))).length →
        ∃ (m : Memory) (N : DWord) (a : Word), N.toNat = d.length ∧ a.toNat = c ∧
          s.obuf.forgotten m s.outLen.toNat ∧
          exec .decompress s = .next
            (({ s with tree := some t, origLen := N, obuf := m } : State).aborted p
              .truncatedStream a)

/-- 44_pipeline.md R306: the outputs of COMPRESS and DECOMPRESS do not depend on FREQ, TREE, ORIG_LEN, BIT_LEN
or PATH_* as they stood before (on bytes never written: with the same free draws, log 3). -/
def Obligations.CompositesCarryNothingOver : Prop :=
  ∀ (i : Instr) (s s' t' : State) (F : FreqTable) (o : Option HufTree) (N T : DWord) (f : Bool)
    (L : BitVec 9) (P : BitVec 256), i = .compress ∨ i = .decompress → exec i s = .next s' →
    exec i { s with
      freq := F, tree := o, origLen := N, bitLen := T, pathFound := f, pathLen := L,
      pathBits := P } = .next t' →
    t'.obuf = s'.obuf ∧ t'.outLen = s'.outLen ∧ t'.inPtr = s'.inPtr ∧
      t'.resultCode = s'.resultCode ∧ t'.errInfo = s'.errInfo

/-! ## The host's bus -/

/-- 10_state.md R21 to R42, R51, 20_memory.md R93, 70_reset_and_hazards.md R372: what a word read of each
register returns, also while a command runs (STATUS, RESULT and the tree summaries: StatusWordBits,
ResultWordAndCodes, TreeSummaryRegisters); reserved offsets read 0, and writes to them and to read-only
registers are ignored with OKAY. -/
def Obligations.RegisterReadsFollowMap : Prop :=
  ∀ s : State,
    s.reads 0x000 0x48554643 ∧ s.reads 0x004 0x00010000 ∧
    s.reads 0x008 (BitVec.ofNat 32 s.ibufSize) ∧ s.reads 0x00C (BitVec.ofNat 32 s.obufSize) ∧
    (∃ c : Word, s.reads 0x010 c ∧ c.getLsbD 0 = s.ieDone ∧ c.getLsbD 1 = s.ieErr ∧
      ∀ i, 2 ≤ i → c.getLsbD i = false) ∧
    s.reads 0x018 s.cmd ∧ s.reads 0x020 s.errInfo ∧ s.reads 0x024 s.inLen ∧
    s.reads 0x028 s.inPtr ∧ s.reads 0x02C s.outLen ∧
    s.reads 0x030 (s.origLen.extractLsb' 0 32) ∧ s.reads 0x034 (s.origLen.extractLsb' 32 32) ∧
    s.reads 0x038 (s.bitLen.extractLsb' 0 32) ∧ s.reads 0x03C (s.bitLen.extractLsb' 32 32) ∧
    (∃ L : Word, s.reads 0x048 L ∧ L.toNat = s.pathLen.toNat) ∧
    (∀ j, j < 8 →
      s.reads (BitVec.ofNat 32 (0x060 + 4 * j)) (s.pathBits.extractLsb' (32 * j) 32)) ∧
    (∀ off, off % 4 = 0 → (off = 0x04C ∨ (0x0A0 ≤ off ∧ off ≤ 0xFFC)) →
      s.reads (BitVec.ofNat 32 off) 0) ∧
    ∀ off w, off % 4 = 0 →
      (off ≤ 0x00C ∨ off = 0x01C ∨ off = 0x020 ∨ (0x038 ≤ off ∧ off ≤ 0xFFC)) →
      (s.hostAccess ⟨.write, BitVec.ofNat 32 off, .word, w⟩).1 = s ∧
        (s.hostAccess ⟨.write, BitVec.ofNat 32 off, .word, w⟩).2.resp = .okay

/-- 10_state.md R26, R53, 60_exceptions.md R330: the bits of STATUS as read at 0x014, and irq. -/
def Obligations.StatusWordBits : Prop :=
  ∀ s : State, s.irq = ((s.done && s.ieDone) || (s.err && s.ieErr)) ∧
    ∃ c : Word, s.reads 0x014 c ∧
      c.getLsbD 0 = s.pend.isSome ∧ c.getLsbD 1 = s.done ∧ c.getLsbD 2 = s.err ∧
      c.getLsbD 3 = s.tree.isSome ∧ c.getLsbD 4 = s.pathFound ∧ c.getLsbD 5 = s.hostConflict ∧
      c.getLsbD 6 = s.cmdDropped ∧ c.getLsbD 7 = s.irq ∧ ∀ i, 8 ≤ i → c.getLsbD i = false

/-- 10_state.md R25, R26, 60_exceptions.md R333, 70_reset_and_hazards.md R372: a STATUS write clears exactly
the W1C bits written 1, a CTRL write sets the two enables, at any time. -/
def Obligations.StatusAndCtrlWrites : Prop :=
  ∀ (s : State) (w : Word),
    (s.hostAccess ⟨.write, 0x00000014, .word, w⟩).1 =
      { s with
        done := s.done && !w.getLsbD 1
        err := s.err && !w.getLsbD 2
        hostConflict := s.hostConflict && !w.getLsbD 5
        cmdDropped := s.cmdDropped && !w.getLsbD 6 } ∧
    (s.hostAccess ⟨.write, 0x00000010, .word, w⟩).1 =
      { s with ieDone := w.getLsbD 0, ieErr := w.getLsbD 1 }

/-- 10_state.md R30 to R33, 70_reset_and_hazards.md R374: a host write of an operand register while idle. -/
def Obligations.OperandRegisterWrites : Prop :=
  ∀ (s : State) (w : Word), s.pend = none →
    (s.hostAccess ⟨.write, 0x00000024, .word, w⟩).1 = { s with inLen := w } ∧
    (s.hostAccess ⟨.write, 0x00000028, .word, w⟩).1 = { s with inPtr := w } ∧
    (s.hostAccess ⟨.write, 0x0000002C, .word, w⟩).1 = { s with outLen := w } ∧
    (∃ n : DWord, (s.hostAccess ⟨.write, 0x00000030, .word, w⟩).1 = { s with origLen := n } ∧
      n.extractLsb' 0 32 = w ∧ n.extractLsb' 32 32 = s.origLen.extractLsb' 32 32) ∧
    ∃ n : DWord, (s.hostAccess ⟨.write, 0x00000034, .word, w⟩).1 = { s with origLen := n } ∧
      n.extractLsb' 32 32 = w ∧ n.extractLsb' 0 32 = s.origLen.extractLsb' 0 32

/-- 20_memory.md R81, R82, R85 to R88: exactly the transactions that get ERROR; those read 0 and change
nothing. That ERROR comes before the refusal of a busy block is the model's choice (log 7). -/
def Obligations.BusErrorsExactly : Prop :=
  ∀ (s : State) (t : Transaction), let x := t.addr.toNat
    ((s.hostAccess t).2.resp = .error ↔
      t.size = .half ∨
      (x < 0x2000 ∧ (t.size ≠ .word ∨ x % 4 ≠ 0)) ∨
      (0x2000 ≤ x ∧ x < 0x40000000) ∨
      (0x40000000 ≤ x ∧ x < 0x80000000 ∧ (s.ibufSize ≤ x - 0x40000000 ∨
        (t.size = .word ∧ (x % 4 ≠ 0 ∨ s.ibufSize < x - 0x40000000 + 4)))) ∨
      (0x80000000 ≤ x ∧ x < 0xC0000000 ∧ (s.obufSize ≤ x - 0x80000000 ∨
        (t.size = .word ∧ (x % 4 ≠ 0 ∨ s.obufSize < x - 0x80000000 + 4)))) ∨
      0xC0000000 ≤ x) ∧
    ((s.hostAccess t).2.resp = .error → s.hostAccess t = (s, ⟨.error, 0⟩))

/-- 20_memory.md R85, R86: byte and little-endian word accesses to IBUF and OBUF while idle. -/
def Obligations.BufferAccesses : Prop :=
  ∀ (s : State) (a : Nat) (w : Word), s.pend = none → s.paramsOk = true →
    (a < s.ibufSize → ∃ m : Memory, s.ibuf.stored m a [w.extractLsb' 0 8] ∧
      (s.hostAccess ⟨.write, BitVec.ofNat 32 (0x40000000 + a), .byte, w⟩).1 =
        { s with ibuf := m }) ∧
    (a % 4 = 0 → a + 4 ≤ s.ibufSize → ∃ m : Memory,
      s.ibuf.stored m a
        [w.extractLsb' 0 8, w.extractLsb' 8 8, w.extractLsb' 16 8, w.extractLsb' 24 8] ∧
      (s.hostAccess ⟨.write, BitVec.ofNat 32 (0x40000000 + a), .word, w⟩).1 =
        { s with ibuf := m }) ∧
    (a < s.obufSize → ∃ m : Memory, s.obuf.stored m a [w.extractLsb' 0 8] ∧
      (s.hostAccess ⟨.write, BitVec.ofNat 32 (0x80000000 + a), .byte, w⟩).1 =
        { s with obuf := m }) ∧
    (a % 4 = 0 → a + 4 ≤ s.obufSize → ∃ m : Memory,
      s.obuf.stored m a
        [w.extractLsb' 0 8, w.extractLsb' 8 8, w.extractLsb' 16 8, w.extractLsb' 24 8] ∧
      (s.hostAccess ⟨.write, BitVec.ofNat 32 (0x80000000 + a), .word, w⟩).1 =
        { s with obuf := m }) ∧
    (∀ b : Byte, a < s.ibufSize → s.ibuf.read? a = some b →
      s.hostAccess ⟨.read, BitVec.ofNat 32 (0x40000000 + a), .byte, w⟩ =
        (s, ⟨.okay, b.setWidth 32⟩)) ∧
    (∀ b0 b1 b2 b3 : Byte, a % 4 = 0 → a + 4 ≤ s.ibufSize →
      s.ibuf.holds a [b0, b1, b2, b3] →
      s.hostAccess ⟨.read, BitVec.ofNat 32 (0x40000000 + a), .word, w⟩ =
        (s, ⟨.okay, b3 ++ b2 ++ b1 ++ b0⟩)) ∧
    (∀ b : Byte, a < s.obufSize → s.obuf.read? a = some b →
      s.hostAccess ⟨.read, BitVec.ofNat 32 (0x80000000 + a), .byte, w⟩ =
        (s, ⟨.okay, b.setWidth 32⟩)) ∧
    (∀ b0 b1 b2 b3 : Byte, a % 4 = 0 → a + 4 ≤ s.obufSize →
      s.obuf.holds a [b0, b1, b2, b3] →
      s.hostAccess ⟨.read, BitVec.ofNat 32 (0x80000000 + a), .word, w⟩ =
        (s, ⟨.okay, b3 ++ b2 ++ b1 ++ b0⟩))

/-- 10_state.md R41: the FREQ window while idle; its writes are ignored. -/
def Obligations.FreqWindowReadsCounters : Prop :=
  ∀ (s : State) (v : Byte) (j : Nat) (w : Word), s.pend = none → j < 4 →
    s.hostAccess ⟨.read, BitVec.ofNat 32 (0x1000 + 16 * v.toNat + 4 * j), .word, w⟩ =
      (s, ⟨.okay, (s.freq.get v).extractLsb' (32 * j) 32⟩) ∧
    (s.hostAccess ⟨.write, BitVec.ofNat 32 (0x1000 + 16 * v.toNat + 4 * j), .word, w⟩).1 = s ∧
    (s.hostAccess ⟨.write, BitVec.ofNat 32 (0x1000 + 16 * v.toNat + 4 * j), .word, w⟩).2.resp =
      .okay

/-- 10_state.md R24, R35, R36, R38, R40, R48: the tree summary registers, as read at their offsets. -/
def Obligations.TreeSummaryRegisters : Prop :=
  ∀ s : State,
    (s.tree = none → s.reads 0x040 0 ∧ s.reads 0x044 0 ∧
      (∀ j, j < 4 → s.reads (BitVec.ofNat 32 (0x050 + 4 * j)) 0) ∧
      ∀ j, j < 8 → s.reads (BitVec.ofNat 32 (0x080 + 4 * j)) 0) ∧
    ∀ t, s.tree = some t → t.wf = true →
      (∃ n : Word, s.reads 0x040 n ∧ n.toNat = t.leaves.length) ∧
      (∃ (b : List Byte) (n : Word), t.ser = some b ∧ s.reads 0x044 n ∧ n.toNat = b.length) ∧
      (∀ j, j < 4 →
        s.reads (BitVec.ofNat 32 (0x050 + 4 * j)) (t.weight.extractLsb' (32 * j) 32)) ∧
      ∀ v : Byte, ∃ M : Word, s.reads (BitVec.ofNat 32 (0x080 + 4 * (v.toNat / 32))) M ∧
        (M.getLsbD (v.toNat % 32) = true ↔ v ∈ t.leaves)

/-- 20_memory.md R89, 70_reset_and_hazards.md R373: the accesses refused while BUSY = 1 answer OKAY, read 0,
set HOST_CONFLICT and do nothing else. The FREQ window's writes are among them (log 8). -/
def Obligations.BusyAccessesRefused : Prop :=
  ∀ (s : State) (t : Transaction), s.busy = true → (s.hostAccess t).2.resp = .okay →
    (0x1000 ≤ t.addr.toNat ∨
      (t.kind = .write ∧ t.addr.toNat ∈ [0x024, 0x028, 0x02C, 0x030, 0x034])) →
    (s.hostAccess t).1 = { s with hostConflict := true } ∧
      (t.kind = .read → (s.hostAccess t).2.rdata = 0)

/-- 20_memory.md R92, R94, 70_reset_and_hazards.md R373: whatever transactions the host issues while a command
is pending, the command ends as it would have without them. Both runs read bytes never written with the same
free draws (log 3); in a run of `step` each event opens a new epoch of draws (log 4). -/
def Obligations.HostCannotDisturbCommand : Prop :=
  ∀ (i : Instr) (s u u' : State) (p : Pending) (ts : List Transaction), s.pend = some p →
    exec i s = .next u →
    exec i (ts.foldl (fun s t => (s.hostAccess t).1) s) = .next u' →
    u'.resultOpcode = u.resultOpcode ∧ u'.resultCode = u.resultCode ∧ u'.errInfo = u.errInfo ∧
      u'.tree = u.tree ∧ u'.freq = u.freq ∧ u'.ibuf = u.ibuf ∧ u'.obuf = u.obuf ∧
      u'.inPtr = u.inPtr ∧ u'.inLen = u.inLen ∧ u'.outLen = u.outLen ∧
      u'.origLen = u.origLen ∧ u'.bitLen = u.bitLen ∧ u'.pathFound = u.pathFound ∧
      u'.pathLen = u.pathLen ∧ u'.pathBits = u.pathBits ∧ u'.cmd = u.cmd ∧
      u'.pend = none ∧ u'.done = true

/-- 10_state.md R28, 60_exceptions.md R324: RESULT as read at 0x01C: CODE in [7:0] with the numbers of the
ten codes, OPCODE in [15:8], 0 above. -/
def Obligations.ResultWordAndCodes : Prop :=
  ∀ s : State, ∃ c : Word, s.reads 0x01C c ∧ c.extractLsb' 8 8 = s.resultOpcode ∧
    (∀ i, 16 ≤ i → c.getLsbD i = false) ∧
    (s.resultCode = .ok → c.extractLsb' 0 8 = 0x00) ∧
    (s.resultCode = .emptyInput → c.extractLsb' 0 8 = 0x01) ∧
    (s.resultCode = .formatError → c.extractLsb' 0 8 = 0x02) ∧
    (s.resultCode = .truncatedStream → c.extractLsb' 0 8 = 0x03) ∧
    (s.resultCode = .oversizedSubtree → c.extractLsb' 0 8 = 0x04) ∧
    (s.resultCode = .illegalCommand → c.extractLsb' 0 8 = 0x10) ∧
    (s.resultCode = .badRegion → c.extractLsb' 0 8 = 0x11) ∧
    (s.resultCode = .outputOverflow → c.extractLsb' 0 8 = 0x12) ∧
    (s.resultCode = .noTree → c.extractLsb' 0 8 = 0x13) ∧
    (s.resultCode = .notInTree → c.extractLsb' 0 8 = 0x14)

/-- 20_memory.md R83: a host transaction as a step. With an access next on the agenda, the step leaves the
state of that access, in a fresh epoch of draws (log 4), with the event taken off (log 2) and its response
recorded (log 14). -/
def Obligations.StepPerformsHostAccess : Prop :=
  ∀ (s : State) (t : Transaction) (rest : List Event), s.agenda = .access t :: rest →
    let r := ({ s with draws := s.draws + 1, agenda := rest } : State).hostAccess t
    step s = .next { r.1 with response := some r.2 }
end

