-- ==== Sys2Proof/Laws/Bytes.lean ====
section
/-! SUPPORT. Big-endian fields and packed bits: lengths, round trips, bit positions. -/

namespace Sys2Proof.Machine

theorem toBE_length (n v : Nat) : (toBE n v).length = n := by
  induction n with
  | zero => rfl
  | succ n ih => simp [toBE, ih]

theorem ofBE_foldl (s : List Byte) (acc : Nat) :
    s.foldl (fun a b => a * 256 + b.toNat) acc = acc * 256 ^ s.length + ofBE s := by
  induction s generalizing acc with
  | nil => simp [ofBE]
  | cons b s ih =>
    simp only [List.foldl_cons, List.length_cons, ofBE]
    rw [ih, ih (0 * 256 + b.toNat)]
    ring

theorem ofBE_cons (b : Byte) (s : List Byte) :
    ofBE (b :: s) = b.toNat * 256 ^ s.length + ofBE s := by
  have h : ofBE (b :: s) = s.foldl (fun a c => a * 256 + c.toNat) (0 * 256 + b.toNat) := rfl
  rw [h, ofBE_foldl, Nat.zero_mul, Nat.zero_add]

theorem ofBE_lt (s : List Byte) : ofBE s < 256 ^ s.length := by
  induction s with
  | nil => simp [ofBE]
  | cons b s ih =>
    rw [ofBE_cons, List.length_cons, pow_succ]
    have := b.isLt
    nlinarith [Nat.zero_le (256 ^ s.length)]

/-- Reading back what `toBE` wrote (00_scope.md R12). -/
theorem ofBE_toBE (n v : Nat) : ofBE (toBE n v) = v % 256 ^ n := by
  induction n with
  | zero => simp [toBE, ofBE, Nat.mod_one]
  | succ n ih =>
    rw [toBE, ofBE_cons, toBE_length, ih, BitVec.toNat_ofNat, pow_succ (256 : Nat), Nat.mod_mul]
    ring

theorem toBE_add (n m v : Nat) : toBE n (v + m * 256 ^ n) = toBE n v := by
  induction n generalizing m with
  | zero => rfl
  | succ n ih =>
    have h : v + m * 256 ^ (n + 1) = v + (m * 256) * 256 ^ n := by ring
    rw [toBE, toBE, h, ih, Nat.add_mul_div_right _ _ (by positivity)]
    congr 1
    apply BitVec.eq_of_toNat_eq
    simp only [BitVec.toNat_ofNat]
    omega

/-- Writing back what `ofBE` read. -/
theorem toBE_ofBE (s : List Byte) : toBE s.length (ofBE s) = s := by
  induction s with
  | nil => rfl
  | cons b s ih =>
    have hlt := ofBE_lt s
    rw [ofBE_cons, List.length_cons, toBE, Nat.add_comm (b.toNat * _), toBE_add, ih,
      Nat.add_mul_div_right _ _ (by positivity), Nat.div_eq_of_lt hlt, Nat.zero_add]
    congr 1
    exact BitVec.eq_of_toNat_eq (by simp)

/-- The eight big-endian bytes of a 64-bit register, as bit fields (00_scope.md R12). -/
theorem toBE_eq_extract (n : DWord) :
    toBE 8 n.toNat = (List.range 8).map fun k => n.extractLsb' (56 - 8 * k) 8 := by
  have : List.range 8 = [0, 1, 2, 3, 4, 5, 6, 7] := rfl
  rw [this]
  simp only [toBE, List.map_cons, List.map_nil, List.cons.injEq, and_true]
  refine ⟨?_, ?_, ?_, ?_, ?_, ?_, ?_, ?_⟩ <;>
  · apply BitVec.eq_of_toNat_eq
    simp [BitVec.extractLsb'_toNat, Nat.shiftRight_eq_div_pow]

theorem ceil8_mul_ge (n : Nat) : n ≤ 8 * ceil8 n := by unfold ceil8; omega

theorem packBits_length (S : List Bool) : (packBits S).length = ceil8 S.length := by
  simp [packBits]

/-- Bit i of a packed byte. -/
theorem packByte_getLsbD (f : Nat → Bool) (i : Nat) (hi : i < 8) :
    (packByte f).getLsbD i = f i := by
  have h : ∀ b : Fin 8 → Bool, ∀ i : Fin 8,
      (BitVec.ofNat 8 ((b 0).toNat * 1 + (b 1).toNat * 2 + (b 2).toNat * 4 + (b 3).toNat * 8 +
        (b 4).toNat * 16 + (b 5).toNat * 32 + (b 6).toNat * 64 + (b 7).toNat * 128)).getLsbD i.val
        = b i := by
    decide +kernel
  have := h (fun j => f j.val) ⟨i, hi⟩
  simp only [packByte, List.range, List.range.loop, List.map_cons, List.map_nil, List.sum_cons,
    List.sum_nil] at *
  simpa [Nat.add_assoc] using this

/-- Stream bit k of a packed body is `S[k]`, and 0 past its end (30_encoding.md R136). -/
theorem packBits_bit (S : List Bool) (k : Nat) (hk : k < 8 * (packBits S).length) :
    ((packBits S).getD (k / 8) 0).getLsbD (k % 8) = S.getD k false := by
  have h1 : k / 8 < ceil8 S.length := by rw [packBits_length] at hk; omega
  have h2 : 8 * (k / 8) + k % 8 = k := Nat.div_add_mod k 8
  rw [List.getD_eq_getElem?_getD, packBits, List.getElem?_map, List.getElem?_range h1]
  simp only [Option.map_some, Option.getD_some]
  rw [packByte_getLsbD _ _ (Nat.mod_lt _ (by decide)), h2]

end Sys2Proof.Machine
end

