-- ==== Sys2Proof/Laws/HufTree.lean ====
section
/-! SUPPORT. Trees: sizes, codes, leaf maps (10_state.md R40, R47, R49; 30_encoding.md R131). -/

namespace Sys2Proof.Machine

theorem HufTree.leaves_length_pos (t : HufTree) : 0 < t.leaves.length := by
  induction t with
  | leaf => simp [HufTree.leaves]
  | node w l r ihl _ => simp only [HufTree.leaves, List.length_append]; omega

/-- A strict binary tree of n leaves has 2n − 1 nodes (10_state.md R49). -/
theorem HufTree.nodes_eq (t : HufTree) : t.nodes + 1 = 2 * t.leaves.length := by
  induction t with
  | leaf => rfl
  | node w l r ihl ihr => simp only [HufTree.leaves, HufTree.nodes, List.length_append]; omega

/-- |ser(t)| = 37n − 18 (30_encoding.md R131). -/
theorem HufTree.blobLen_eq (t : HufTree) : t.blobLen + 18 = 37 * t.leaves.length := by
  induction t with
  | leaf => rfl
  | node w l r ihl ihr => simp only [HufTree.leaves, HufTree.blobLen, List.length_append]; omega

theorem nodup_bytes_length_le {d : List Byte} (h : d.Nodup) : d.length ≤ 256 := by
  have h1 : (d.map BitVec.toFin).Nodup := h.map fun a b hab => BitVec.eq_of_toFin_eq hab
  have h2 := h1.length_le_card
  simpa using h2

theorem HufTree.wf_leaves_le {t : HufTree} (h : t.wf = true) : t.leaves.length ≤ 256 :=
  nodup_bytes_length_le (by simpa [HufTree.wf] using h)

theorem HufTree.wf_blobLen_le {t : HufTree} (h : t.wf = true) : t.blobLen ≤ 9454 := by
  have := HufTree.wf_leaves_le h
  have := t.blobLen_eq
  omega

theorem HufTree.wf_node {w : Weight} {l r : HufTree} (h : (HufTree.node w l r).wf = true) :
    l.wf = true ∧ r.wf = true ∧ ∀ v ∈ l.leaves, v ∉ r.leaves := by
  simp only [HufTree.wf, HufTree.leaves, decide_eq_true_eq, List.nodup_append] at h ⊢
  exact ⟨h.1, h.2.1, fun v hl hr => h.2.2 v hl v hr rfl⟩

/-- A tree whose blob stays below the payload cap serializes, to |ser(t)| bytes. -/
theorem HufTree.ser_some {t : HufTree} (h : t.blobLen ≤ 65535) :
    ∃ b, t.ser = some b ∧ b.length = t.blobLen := by
  induction t with
  | leaf w v => exact ⟨_, rfl, by simp [toBE_length, HufTree.blobLen]⟩
  | node w l r ihl ihr =>
    simp only [HufTree.blobLen] at h
    obtain ⟨p, hp, lp⟩ := ihl (by omega)
    obtain ⟨q, hq, lq⟩ := ihr (by omega)
    refine ⟨toBE 16 w.toNat ++ toBE 2 (p ++ q).length ++ (p ++ q), ?_, ?_⟩
    · simp only [HufTree.ser, hp, hq, List.length_append]
      rw [if_neg (by omega)]
    · simp only [List.length_append, toBE_length, HufTree.blobLen]
      omega

theorem HufTree.ser_length {t : HufTree} {b : List Byte} (h : t.ser = some b) :
    b.length = t.blobLen := by
  induction t generalizing b with
  | leaf w v =>
    simp only [HufTree.ser, Option.some.injEq] at h
    subst h
    simp [toBE_length, HufTree.blobLen]
  | node w l r ihl ihr =>
    simp only [HufTree.ser] at h
    split at h
    · next p q hp hq =>
      split_ifs at h
      simp only [Option.some.injEq] at h
      subst h
      simp only [List.length_append, toBE_length, HufTree.blobLen, ihl hp, ihr hq]
      omega
    · simp at h

/-- A serialized node, taken apart (30_encoding.md R130). -/
theorem HufTree.ser_node {w : Weight} {l r : HufTree} {b : List Byte}
    (h : (HufTree.node w l r).ser = some b) :
    ∃ p q, l.ser = some p ∧ r.ser = some q ∧ (p ++ q).length ≤ 65535 ∧
      b = toBE 16 w.toNat ++ toBE 2 (p ++ q).length ++ (p ++ q) := by
  simp only [HufTree.ser] at h
  split at h
  · next p q hp hq =>
    split_ifs at h with hle
    exact ⟨p, q, hp, hq, by omega, by simpa using h.symm⟩
  · simp at h

theorem HufTree.code?_isSome (t : HufTree) (v : Byte) :
    (t.code? v).isSome = true ↔ v ∈ t.leaves := by
  induction t with
  | leaf w u =>
    simp only [HufTree.code?, HufTree.leaves, List.mem_singleton]
    split_ifs with h <;> simp [h]
    exact fun h' => h h'.symm
  | node w l r ihl ihr =>
    simp only [HufTree.code?, HufTree.leaves, List.mem_append, ← ihl, ← ihr]
    cases hl : l.code? v <;> simp

theorem HufTree.code?_of_mem {t : HufTree} {v : Byte} (h : v ∈ t.leaves) :
    ∃ c, t.code? v = some c :=
  Option.isSome_iff_exists.mp ((t.code?_isSome v).mpr h)

theorem HufTree.mem_of_code? {t : HufTree} {v : Byte} {c : Code} (h : t.code? v = some c) :
    v ∈ t.leaves :=
  (t.code?_isSome v).mp (by simp [h])

/-- A code is the path to its leaf (10_state.md R47). -/
theorem HufTree.follow_code {t : HufTree} {v : Byte} {c : Code} (h : t.code? v = some c) :
    ∃ w, t.follow c = some (.leaf w v) := by
  induction t generalizing c with
  | leaf w u =>
    simp only [HufTree.code?] at h
    split_ifs at h with huv
    simp only [Option.some.injEq] at h
    subst h huv
    exact ⟨w, rfl⟩
  | node w l r ihl ihr =>
    simp only [HufTree.code?] at h
    split at h
    · next p hp =>
      simp only [Option.some.injEq] at h
      subst h
      exact ihl hp
    · simp only [Option.map_eq_some_iff] at h
      obtain ⟨p, hp, rfl⟩ := h
      exact ihr hp

/-- A code is shorter than the number of leaves (00_scope.md R9, MAX_CODE_LEN). -/
theorem HufTree.code_length_lt {t : HufTree} {v : Byte} {c : Code} (h : t.code? v = some c) :
    c.length < t.leaves.length := by
  induction t generalizing c with
  | leaf w u =>
    simp only [HufTree.code?] at h
    split_ifs at h
    simp only [Option.some.injEq] at h
    subst h
    simp [HufTree.leaves]
  | node w l r ihl ihr =>
    have hl := l.leaves_length_pos
    have hr := r.leaves_length_pos
    simp only [HufTree.code?] at h
    simp only [HufTree.leaves, List.length_append]
    split at h
    · next p hp =>
      simp only [Option.some.injEq] at h
      subst h
      have := ihl hp
      simp only [List.length_cons]; omega
    · simp only [Option.map_eq_some_iff] at h
      obtain ⟨p, hp, rfl⟩ := h
      have := ihr hp
      simp only [List.length_cons]; omega

/-- Two codes that lead to leaves, one the start of the other, are equal (41_analysis.md R208). -/
theorem HufTree.follow_leaf_append {t : HufTree} {c e : Code} {w w' : Weight} {v v' : Byte}
    (h : t.follow c = some (.leaf w v)) (h' : t.follow (c ++ e) = some (.leaf w' v')) :
    e = [] ∧ v = v' := by
  induction c generalizing t with
  | nil =>
    simp only [HufTree.follow, Option.some.injEq] at h
    subst h
    cases e with
    | nil =>
      simp only [List.nil_append, HufTree.follow, Option.some.injEq, HufTree.leaf.injEq] at h'
      exact ⟨rfl, h'.2⟩
    | cons b e => simp [HufTree.follow] at h'
  | cons b c ih =>
    cases t with
    | leaf => simp [HufTree.follow] at h
    | node w l r =>
      simp only [HufTree.follow, List.cons_append] at h h'
      split_ifs at h h' <;> exact ih h h'

theorem HufTree.leafMap_getLsbD (t : HufTree) (v : Byte) :
    t.leafMap.getLsbD v.toNat = true ↔ v ∈ t.leaves := by
  have hv : v.toNat < 256 := v.isLt
  induction t with
  | leaf w u =>
    simp only [HufTree.leafMap, HufTree.leaves, List.mem_singleton, BitVec.getLsbD_shiftLeft,
      BitVec.getLsbD_one]
    constructor
    · intro h
      simp at h
      exact BitVec.eq_of_toNat_eq (by omega)
    · rintro rfl
      simp [hv]
  | node w l r ihl ihr =>
    simp only [HufTree.leafMap, HufTree.leaves, BitVec.getLsbD_or, Bool.or_eq_true, List.mem_append,
      ihl, ihr]

/-- In a tree without repeated leaf values each leaf's code is the path to it (10_state.md R47). -/
theorem HufTree.code?_of_follow {t : HufTree} (hwf : t.wf = true) {v : Byte} {w : Weight} {c : Code}
    (h : t.follow c = some (.leaf w v)) : t.code? v = some c := by
  have mem : ∀ {t : HufTree} {c : Code}, t.follow c = some (.leaf w v) → v ∈ t.leaves := by
    intro t c h
    induction c generalizing t with
    | nil =>
      simp only [HufTree.follow, Option.some.injEq] at h
      subst h
      simp [HufTree.leaves]
    | cons b c ih =>
      cases t with
      | leaf => simp [HufTree.follow] at h
      | node w l r =>
        simp only [HufTree.follow] at h
        simp only [HufTree.leaves, List.mem_append]
        split_ifs at h
        · exact .inl (ih h)
        · exact .inr (ih h)
  induction t generalizing c with
  | leaf w' u =>
    cases c with
    | nil =>
      simp only [HufTree.follow, Option.some.injEq, HufTree.leaf.injEq] at h
      simp [HufTree.code?, h.2]
    | cons => simp [HufTree.follow] at h
  | node w' l r ihl ihr =>
    obtain ⟨hl, hr, hd⟩ := HufTree.wf_node hwf
    cases c with
    | nil => simp [HufTree.follow] at h
    | cons b c =>
      simp only [HufTree.follow] at h
      split_ifs at h with hb
      · simp [HufTree.code?, ihl hl h, hb]
      · have hn : l.code? v = none := by
          by_contra hne
          have := (l.code?_isSome v).mp (Option.isSome_iff_ne_none.mpr hne)
          exact hd v this (mem h)
        simp [HufTree.code?, hn, ihr hr h, hb]

end Sys2Proof.Machine
end

