-- ==== Sys2Proof/Laws/Analysis.lean ====
section
/-! SUPPORT. COUNT's table and BUILD's tree (41_analysis.md R192 to R202). -/

namespace Sys2Proof.Machine

/-! ### COUNT -/

theorem FreqTable.get_eq (F : FreqTable) (v : Byte) : F.get v = F[v.toNat]'v.isLt := rfl

theorem FreqTable.get_zero (v : Byte) : FreqTable.zero.get v = 0 := by
  simp [FreqTable.get_eq, FreqTable.zero]

theorem FreqTable.get_bump (F : FreqTable) (x v : Byte) :
    (F.bump x).get v = if x = v then F.get x + 1 else F.get v := by
  simp only [FreqTable.get_eq, FreqTable.bump]
  rw [Vector.getElem_set]
  by_cases h : x = v
  · subst h; simp
  · rw [if_neg h, if_neg fun h' => h (BitVec.eq_of_toNat_eq h')]

theorem get_foldl_bump (d : List Byte) (F : FreqTable) (v : Byte) :
    (d.foldl FreqTable.bump F).get v = F.get v + BitVec.ofNat 128 (d.count v) := by
  induction d generalizing F with
  | nil => simp
  | cons x d ih =>
    rw [List.foldl_cons, ih, FreqTable.get_bump, List.count_cons]
    by_cases h : x = v
    · subst h
      simp only [if_true, beq_self_eq_true, BitVec.ofNat_add]
      rw [BitVec.add_assoc, BitVec.add_comm 1]
      rfl
    · simp [h]

/-- FREQ[v] is the number of occurrences of v (41_analysis.md R190, R192). -/
theorem countBytes_get (d : List Byte) (v : Byte) :
    (countBytes d).get v = BitVec.ofNat 128 (d.count v) := by
  rw [countBytes, get_foldl_bump, FreqTable.get_zero]
  exact BitVec.zero_add _

theorem countBytes_get_toNat {d : List Byte} (h : d.length < 2 ^ 128) (v : Byte) :
    ((countBytes d).get v).toNat = d.count v := by
  rw [countBytes_get, BitVec.toNat_ofNat, Nat.mod_eq_of_lt]
  exact lt_of_le_of_lt (List.count_le_length) h

theorem sum_set_nat (l : List Nat) (i x : Nat) (h : i < l.length) :
    (l.set i x).sum + l[i] = l.sum + x := by
  induction l generalizing i with
  | nil => simp at h
  | cons a l ih =>
    cases i with
    | zero => simp; omega
    | succ i =>
      have := ih i (by simpa using h)
      simp only [List.set_cons_succ, List.sum_cons, List.getElem_cons_succ]
      omega

theorem FreqTable.total_zero : FreqTable.zero.total = 0 := by
  have h : FreqTable.zero.toList = List.replicate 256 (0 : Weight) := Vector.toList_replicate
  rw [FreqTable.total, h, List.map_replicate, List.sum_replicate]
  rfl

theorem FreqTable.total_bump {F : FreqTable} {x : Byte} (h : (F.get x).toNat + 1 < 2 ^ 128) :
    (F.bump x).total = F.total + 1 := by
  have hlen : x.toNat < (F.toList.map BitVec.toNat).length := by simpa using x.isLt
  have hs := sum_set_nat (F.toList.map BitVec.toNat) x.toNat ((F.get x).toNat + 1) hlen
  have hset : (F.bump x).toList.map BitVec.toNat =
      (F.toList.map BitVec.toNat).set x.toNat ((F.get x).toNat + 1) := by
    simp only [FreqTable.bump, Vector.toList_set, List.map_set]
    congr 1
    rw [BitVec.toNat_add]
    simpa using Nat.mod_eq_of_lt h
  have hget : (F.toList.map BitVec.toNat)[x.toNat] = (F.get x).toNat := by
    simp [FreqTable.get_eq]
  rw [FreqTable.total, hset]
  rw [hget] at hs
  simp only [FreqTable.total]
  omega

theorem FreqTable.get_le_total (F : FreqTable) (v : Byte) : (F.get v).toNat ≤ F.total := by
  apply List.le_sum_of_mem
  simp only [List.mem_map, Vector.mem_toList_iff]
  exact ⟨F.get v, by rw [FreqTable.get_eq]; exact Vector.getElem_mem _, rfl⟩

theorem total_foldl_bump (d : List Byte) (F : FreqTable) (h : F.total + d.length < 2 ^ 128) :
    (d.foldl FreqTable.bump F).total = F.total + d.length := by
  induction d generalizing F with
  | nil => rfl
  | cons x d ih =>
    simp only [List.length_cons] at h
    have hx := F.get_le_total x
    have hb : (F.bump x).total = F.total + 1 := FreqTable.total_bump (by omega)
    rw [List.foldl_cons, ih _ (by omega), hb, List.length_cons]
    omega

/-- Σ_v FREQ[v] is the number of bytes counted (41_analysis.md R193). -/
theorem countBytes_total {d : List Byte} (h : d.length < 2 ^ 128) :
    (countBytes d).total = d.length := by
  rw [countBytes, total_foldl_bump _ _ (by rw [FreqTable.total_zero]; omega),
    FreqTable.total_zero, Nat.zero_add]

/-! ### The order on entries -/

theorem Entry.before_iff {a b : Entry} :
    a.before b = true ↔ a.w.toNat < b.w.toNat ∨ (a.w.toNat = b.w.toNat ∧ a.seq < b.seq) := by
  simp only [Entry.before, Bool.or_eq_true, Bool.and_eq_true, decide_eq_true_eq,
    BitVec.toNat_inj]

theorem Entry.before_trans {a b c : Entry} (h1 : a.before b = true) (h2 : b.before c = true) :
    a.before c = true := by
  rw [Entry.before_iff] at *; omega

theorem Entry.before_total {a b : Entry} (h : a.seq ≠ b.seq) (hn : a.before b = false) :
    b.before a = true := by
  have : ¬ a.before b = true := by simp [hn]
  rw [Entry.before_iff] at *; omega

/-- A working set kept in rising (w, seq) order. -/
def SortedEntries (S : List Entry) : Prop := S.Pairwise fun a b => a.before b = true

theorem insertEntry_perm (e : Entry) (S : List Entry) : (insertEntry e S).Perm (e :: S) := by
  induction S with
  | nil => exact List.Perm.refl _
  | cons x S ih =>
    simp only [insertEntry]
    split_ifs
    · exact List.Perm.refl _
    · exact (ih.cons x).trans (List.Perm.swap e x S)

theorem insertEntry_sorted {e : Entry} {S : List Entry} (hS : SortedEntries S)
    (he : ∀ x ∈ S, e.seq ≠ x.seq) : SortedEntries (insertEntry e S) := by
  induction S with
  | nil => exact List.pairwise_singleton _ _
  | cons x S ih =>
    simp only [SortedEntries, List.pairwise_cons] at hS
    simp only [insertEntry]
    split_ifs with hb
    · simp only [SortedEntries, List.pairwise_cons]
      refine ⟨fun y hy => ?_, hS.1, hS.2⟩
      rcases List.mem_cons.mp hy with rfl | hy
      · exact hb
      · exact Entry.before_trans hb (hS.1 y hy)
    · simp only [SortedEntries, List.pairwise_cons]
      refine ⟨fun y hy => ?_, ih hS.2 fun y hy => he y (by simp [hy])⟩
      rcases List.mem_cons.mp ((insertEntry_perm e S).mem_iff.mp hy) with rfl | hy
      · exact Entry.before_total (he x (by simp)) (by simpa using hb)
      · exact hS.1 y hy

theorem foldr_insertEntry_perm (S : List Entry) : (S.foldr insertEntry []).Perm S := by
  induction S with
  | nil => exact List.Perm.refl _
  | cons x S ih => exact (insertEntry_perm x _).trans (ih.cons x)

theorem foldr_insertEntry_sorted {S : List Entry} (h : (S.map Entry.seq).Nodup) :
    SortedEntries (S.foldr insertEntry []) := by
  induction S with
  | nil => exact List.Pairwise.nil
  | cons x S ih =>
    simp only [List.map_cons, List.nodup_cons] at h
    refine insertEntry_sorted (ih h.2) fun y hy hxy => h.1 ?_
    rw [hxy]
    exact List.mem_map_of_mem ((foldr_insertEntry_perm S).mem_iff.mp hy)

/-! ### The merging loop -/

theorem insertEntry_length (e : Entry) (S : List Entry) :
    (insertEntry e S).length = S.length + 1 := by
  simpa using (insertEntry_perm e S).length_eq

/-- One law for the loop: what holds of a one-entry set, and of a set when it holds after joining its two
first entries, holds of the whole loop. -/
theorem mergeEntries_induction {P : List Entry → Nat → HufTree → Prop} {G : List Entry → Nat → Prop}
    (root : ∀ e seq, G [e] seq → P [e] seq e.t)
    (keeps : ∀ a b rest seq, G (a :: b :: rest) seq →
      G (insertEntry (joinEntries a b seq) rest) (seq + 1))
    (back : ∀ a b rest seq t, G (a :: b :: rest) seq →
      P (insertEntry (joinEntries a b seq) rest) (seq + 1) t → P (a :: b :: rest) seq t)
    {n : Nat} {S : List Entry} {seq : Nat} {t : HufTree} (hG : G S seq)
    (h : mergeEntries n S seq = some t) : P S seq t := by
  induction n generalizing S seq with
  | zero =>
    match S with
    | [] => simp [mergeEntries] at h
    | [e] =>
      simp only [mergeEntries, Option.some.injEq] at h
      exact h ▸ root e seq hG
    | _ :: _ :: _ => simp [mergeEntries] at h
  | succ n ih =>
    match S with
    | [] => simp [mergeEntries] at h
    | [e] =>
      simp only [mergeEntries, Option.some.injEq] at h
      exact h ▸ root e seq hG
    | a :: b :: rest =>
      simp only [mergeEntries] at h
      exact back a b rest seq t hG (ih (keeps a b rest seq hG) h)

theorem mergeEntries_isSome {n : Nat} {S : List Entry} {seq : Nat} (h0 : S ≠ [])
    (hn : S.length ≤ n + 1) : ∃ t, mergeEntries n S seq = some t := by
  induction n generalizing S seq with
  | zero =>
    match S with
    | [] => simp at h0
    | [e] => exact ⟨e.t, rfl⟩
    | _ :: _ :: _ => simp at hn
  | succ n ih =>
    match S with
    | [] => simp at h0
    | [e] => exact ⟨e.t, rfl⟩
    | a :: b :: rest =>
      simp only [mergeEntries]
      apply ih
      · intro h
        have := insertEntry_length (joinEntries a b seq) rest
        rw [h] at this
        simp at this
      · rw [insertEntry_length]; simpa using hn

theorem buildTree_eq (F : FreqTable) : buildTree F =
    mergeEntries (leafEntries F).length ((leafEntries F).foldr insertEntry [])
      (leafEntries F).length := rfl

theorem leafEntries_length (F : FreqTable) : (leafEntries F).length = (usedValues F).length := by
  simp [leafEntries]

theorem mem_usedValues {F : FreqTable} {v : Byte} : v ∈ usedValues F ↔ F.get v ≠ 0 := by
  simp only [usedValues, List.mem_filter, List.mem_map, List.mem_range, bne_iff_ne, ne_eq,
    and_iff_right_iff_imp]
  intro _
  exact ⟨v.toNat, v.isLt, by simp⟩

theorem usedValues_nodup (F : FreqTable) : (usedValues F).Nodup := by
  apply List.Nodup.filter
  rw [List.nodup_map_iff_inj_on List.nodup_range]
  intro x hx y hy hxy
  have hx := List.mem_range.mp hx
  have hy := List.mem_range.mp hy
  have := congrArg BitVec.toNat hxy
  simp only [BitVec.toNat_ofNat] at this
  omega

/-- BUILD has no tree exactly where every FREQ[v] = 0 (41_analysis.md R195). -/
theorem buildTree_none_iff (F : FreqTable) : buildTree F = none ↔ ∀ v, F.get v = 0 := by
  constructor
  · intro h v
    by_contra hv
    have hm : v ∈ usedValues F := mem_usedValues.mpr hv
    have hne : (leafEntries F).foldr insertEntry [] ≠ [] := by
      intro h0
      have := (foldr_insertEntry_perm (leafEntries F)).length_eq
      rw [h0, leafEntries_length] at this
      have := List.length_pos_of_mem hm
      simp at *; omega
    obtain ⟨t, ht⟩ := mergeEntries_isSome (n := (leafEntries F).length)
      (seq := (leafEntries F).length) hne
      (by rw [(foldr_insertEntry_perm (leafEntries F)).length_eq]; omega)
    rw [buildTree_eq, ht] at h
    simp at h
  · intro h
    have h0 : usedValues F = [] := by
      rw [List.eq_nil_iff_forall_not_mem]
      exact fun v hv => mem_usedValues.mp hv (h v)
    simp [buildTree_eq, leafEntries, h0, mergeEntries]

theorem leafEntries_seq (F : FreqTable) :
    (leafEntries F).map Entry.seq = List.range (usedValues F).length := by
  simp only [leafEntries, List.map_map]
  have : (Entry.seq ∘ fun p : Byte × Nat => (⟨F.get p.1, p.2, .leaf (F.get p.1) p.1⟩ : Entry)) =
      Prod.snd := rfl
  rw [this, List.zipIdx_map_snd, List.range_eq_range']

/-- The loop's working set: in order, with sequence numbers below the next one and all different. -/
def EntriesOk (S : List Entry) (seq : Nat) : Prop :=
  SortedEntries S ∧ (S.map Entry.seq).Nodup ∧ ∀ e ∈ S, e.seq < seq

theorem entriesOk_init (F : FreqTable) :
    EntriesOk ((leafEntries F).foldr insertEntry []) (leafEntries F).length := by
  have hp := foldr_insertEntry_perm (leafEntries F)
  have hs : ((leafEntries F).map Entry.seq).Nodup := by
    rw [leafEntries_seq]; exact List.nodup_range
  refine ⟨foldr_insertEntry_sorted hs, ((hp.map _).nodup_iff).mpr hs, fun e he => ?_⟩
  have : e.seq ∈ (leafEntries F).map Entry.seq := List.mem_map_of_mem (hp.mem_iff.mp he)
  rw [leafEntries_seq] at this
  rw [leafEntries_length]
  exact List.mem_range.mp this

theorem entriesOk_join {a b : Entry} {rest : List Entry} {seq : Nat}
    (h : EntriesOk (a :: b :: rest) seq) :
    EntriesOk (insertEntry (joinEntries a b seq) rest) (seq + 1) := by
  obtain ⟨hs, hn, hlt⟩ := h
  have hp := insertEntry_perm (joinEntries a b seq) rest
  have hrest : ∀ x ∈ rest, x.seq < seq := fun x hx => hlt x (by simp [hx])
  simp only [SortedEntries, List.pairwise_cons] at hs
  simp only [List.map_cons, List.nodup_cons] at hn
  refine ⟨insertEntry_sorted hs.2.2 fun x hx h' => ?_, ?_, fun e he => ?_⟩
  · have := hrest x hx
    simp only [joinEntries] at h'
    omega
  · rw [(hp.map _).nodup_iff]
    simp only [List.map_cons, List.nodup_cons, joinEntries]
    refine ⟨fun hm => ?_, hn.2.2⟩
    obtain ⟨x, hx, hxs⟩ := List.mem_map.mp hm
    have := hrest x hx
    omega
  · rcases List.mem_cons.mp (hp.mem_iff.mp he) with rfl | he
    · simp [joinEntries]
    · have := hrest e he
      omega

/-! ### What BUILD's tree is -/

theorem mergeEntries_weightedLeaves {n seq : Nat} {S : List Entry} {t : HufTree}
    (h : mergeEntries n S seq = some t) :
    t.weightedLeaves.Perm (S.flatMap fun e => e.t.weightedLeaves) := by
  refine mergeEntries_induction (G := fun _ _ => True)
    (P := fun S _ t => t.weightedLeaves.Perm (S.flatMap fun e => e.t.weightedLeaves))
    (fun e _ _ => by simp) (fun _ _ _ _ _ => trivial) (fun a b rest seq t _ ht => ?_) trivial h
  refine ht.trans (((insertEntry_perm _ _).flatMap_right _).trans ?_)
  simp [joinEntries, HufTree.weightedLeaves]

theorem weightedLeaves_fst (t : HufTree) : t.weightedLeaves.map Prod.fst = t.leaves := by
  induction t with
  | leaf => rfl
  | node w l r ihl ihr => simp [HufTree.weightedLeaves, HufTree.leaves, ihl, ihr]

/-- The leaves of BUILD's tree are the used values with their counts (41_analysis.md R197, R202). -/
theorem buildTree_weightedLeaves {F : FreqTable} {t : HufTree} (h : buildTree F = some t) :
    t.weightedLeaves.Perm ((usedValues F).map fun v => (v, F.get v)) := by
  rw [buildTree_eq] at h
  refine (mergeEntries_weightedLeaves h).trans
    (((foldr_insertEntry_perm _).flatMap_right _).trans ?_)
  have h2 : ((leafEntries F).flatMap fun e => e.t.weightedLeaves) =
      (usedValues F).map fun v => (v, F.get v) := by
    simp only [leafEntries, List.flatMap_map, HufTree.weightedLeaves]
    rw [← List.map_eq_flatMap]
    conv_rhs => rw [← List.zipIdx_map_fst 0 (usedValues F), List.map_map]
    rfl
  rw [h2]

theorem buildTree_leaves_perm {F : FreqTable} {t : HufTree} (h : buildTree F = some t) :
    t.leaves.Perm (usedValues F) := by
  have := (buildTree_weightedLeaves h).map Prod.fst
  rw [weightedLeaves_fst, List.map_map] at this
  simpa [Function.comp_def] using this

theorem buildTree_mem_leaves {F : FreqTable} {t : HufTree} (h : buildTree F = some t) (v : Byte) :
    v ∈ t.leaves ↔ F.get v ≠ 0 := by
  rw [(buildTree_leaves_perm h).mem_iff, mem_usedValues]

/-- BUILD's tree has no repeated leaf value (10_state.md R49). -/
theorem buildTree_wf {F : FreqTable} {t : HufTree} (h : buildTree F = some t) : t.wf = true := by
  simp only [HufTree.wf, decide_eq_true_eq]
  exact (buildTree_leaves_perm h).nodup_iff.mpr (usedValues_nodup F)

theorem buildTree_leftLighter {F : FreqTable} {t : HufTree} (h : buildTree F = some t) :
    t.leftLighter = true := by
  rw [buildTree_eq] at h
  have hinit : EntriesOk ((leafEntries F).foldr insertEntry []) (leafEntries F).length ∧
      ∀ e ∈ (leafEntries F).foldr insertEntry [], e.w = e.t.weight ∧ e.t.leftLighter = true := by
    refine ⟨entriesOk_init F, fun e he => ?_⟩
    have he := (foldr_insertEntry_perm _).mem_iff.mp he
    simp only [leafEntries, List.mem_map] at he
    obtain ⟨p, _, rfl⟩ := he
    exact ⟨rfl, rfl⟩
  refine mergeEntries_induction
    (G := fun S seq => EntriesOk S seq ∧ ∀ e ∈ S, e.w = e.t.weight ∧ e.t.leftLighter = true)
    (P := fun _ _ t => t.leftLighter = true)
    (fun e _ hG => (hG.2 e (by simp)).2) (fun a b rest seq hG => ⟨entriesOk_join hG.1, ?_⟩)
    (fun _ _ _ _ _ _ ht => ht) hinit h
  intro e he
  rcases List.mem_cons.mp ((insertEntry_perm _ _).mem_iff.mp he) with rfl | he
  · obtain ⟨ha, ha'⟩ := hG.2 a (by simp)
    obtain ⟨hb, hb'⟩ := hG.2 b (by simp)
    have hab : a.before b = true := by
      have := hG.1.1
      simp only [SortedEntries, List.pairwise_cons] at this
      exact this.1 b (by simp)
    rw [Entry.before_iff] at hab
    refine ⟨rfl, ?_⟩
    simp only [joinEntries, HufTree.leftLighter, Bool.and_eq_true, decide_eq_true_eq, ha', hb',
      ← ha, ← hb, and_true]
    omega
  · exact hG.2 e (by simp [he])

/-- Every internal node's weight is the sum of its children's, and the root's is the sum of the counts, as
long as that sum fits a weight (41_analysis.md R197, R200). -/
theorem mergeEntries_weightsAdd {n seq : Nat} {S : List Entry} {t : HufTree}
    (hS : ∀ e ∈ S, e.w = e.t.weight ∧ e.t.weightsAdd = true)
    (hsum : (S.map fun e => e.w.toNat).sum < 2 ^ 128) (h : mergeEntries n S seq = some t) :
    t.weightsAdd = true ∧ t.weight.toNat = (S.map fun e => e.w.toNat).sum := by
  have hsumJoin : ∀ (a b : Entry) (rest : List Entry) (seq : Nat),
      ((a :: b :: rest).map fun e => e.w.toNat).sum < 2 ^ 128 →
      (a.w + b.w).toNat = a.w.toNat + b.w.toNat ∧
      ((insertEntry (joinEntries a b seq) rest).map fun e => e.w.toNat).sum =
        ((a :: b :: rest).map fun e => e.w.toNat).sum := by
    intro a b rest seq hs
    simp only [List.map_cons, List.sum_cons] at hs ⊢
    have hab : (a.w + b.w).toNat = a.w.toNat + b.w.toNat := by
      rw [BitVec.toNat_add, Nat.mod_eq_of_lt (by omega)]
    refine ⟨hab, ?_⟩
    rw [((insertEntry_perm (joinEntries a b seq) rest).map _).sum_eq]
    simp only [List.map_cons, List.sum_cons, joinEntries, hab]
    omega
  refine mergeEntries_induction
    (G := fun S _ => (∀ e ∈ S, e.w = e.t.weight ∧ e.t.weightsAdd = true) ∧
      (S.map fun e => e.w.toNat).sum < 2 ^ 128)
    (P := fun S _ t => t.weightsAdd = true ∧ t.weight.toNat = (S.map fun e => e.w.toNat).sum)
    (fun e _ hG => ?_) (fun a b rest seq hG => ?_) (fun a b rest seq t hG ht => ?_) ⟨hS, hsum⟩ h
  · obtain ⟨h1, h2⟩ := hG.1 e (by simp)
    exact ⟨h2, by simp [h1]⟩
  · obtain ⟨hab, hs⟩ := hsumJoin a b rest seq hG.2
    refine ⟨fun e he => ?_, by rw [hs]; exact hG.2⟩
    rcases List.mem_cons.mp ((insertEntry_perm _ _).mem_iff.mp he) with rfl | he
    · obtain ⟨ha, ha'⟩ := hG.1 a (by simp)
      obtain ⟨hb, hb'⟩ := hG.1 b (by simp)
      exact ⟨rfl, by simp [joinEntries, HufTree.weightsAdd, ha', hb', ← ha, ← hb, hab]⟩
    · exact hG.1 e (by simp [he])
  · rw [← (hsumJoin a b rest seq hG.2).2]
    exact ht

theorem total_eq_usedValues (F : FreqTable) :
    ((usedValues F).map fun v => (F.get v).toNat).sum = F.total := by
  have h1 : F.total =
      (((List.range 256).map (BitVec.ofNat 8)).map fun v => (F.get v).toNat).sum := by
    rw [FreqTable.total, List.map_map]
    congr 1
    apply List.ext_getElem (by simp)
    intro i h1 h2
    have hi : i < 256 := by simpa using h1
    simp [FreqTable.get_eq, Nat.mod_eq_of_lt hi]
  have h2 : ∀ l : List Byte, ((l.filter fun v => F.get v != 0).map fun v => (F.get v).toNat).sum =
      (l.map fun v => (F.get v).toNat).sum := by
    intro l
    induction l with
    | nil => rfl
    | cons v l ih =>
      rw [List.filter_cons]
      split_ifs with h
      · rw [List.map_cons, List.map_cons, List.sum_cons, List.sum_cons, ih]
      · have h0 : (F.get v).toNat = 0 := by
          have : F.get v = 0 := by simpa using h
          rw [this]; rfl
        rw [ih, List.map_cons, List.sum_cons, h0, Nat.zero_add]
  rw [h1, usedValues, h2]

theorem buildTree_weights {F : FreqTable} {t : HufTree} (hF : F.total < 2 ^ 128)
    (h : buildTree F = some t) : t.weightsAdd = true ∧ t.weight.toNat = F.total := by
  have hp := foldr_insertEntry_perm (leafEntries F)
  have hsum : (((leafEntries F).foldr insertEntry []).map fun e => e.w.toNat).sum = F.total := by
    rw [(hp.map _).sum_eq, ← total_eq_usedValues, leafEntries, List.map_map]
    conv_rhs => rw [← List.zipIdx_map_fst 0 (usedValues F), List.map_map]
    rfl
  rw [buildTree_eq] at h
  rw [← hsum]
  refine mergeEntries_weightsAdd (fun e he => ?_) (by rw [hsum]; exact hF) h
  have he := hp.mem_iff.mp he
  simp only [leafEntries, List.mem_map] at he
  obtain ⟨p, _, rfl⟩ := he
  exact ⟨rfl, rfl⟩

/-! ### The loop over an unordered set -/

theorem IsLeast.perm {A : Entry} {S S' : List Entry} (h : IsLeast A S) (hp : S.Perm S') :
    IsLeast A S' :=
  ⟨hp.mem_iff.mp h.1, fun x hx hne => h.2 x (hp.mem_iff.mpr hx) hne⟩

theorem Builds.perm {S S' : List Entry} {seq : Nat} {t : HufTree} (h : Builds S seq t)
    (hp : S.Perm S') : Builds S' seq t := by
  induction h generalizing S' with
  | root e seq =>
    rw [List.singleton_perm] at hp
    subst hp
    exact .root e seq
  | merge S seq A B t hA hB _ ih =>
    exact .merge S' seq A B t (hA.perm hp) (hB.perm (hp.erase A))
      (ih (((hp.erase A).erase B).cons _))

/-- BUILD's sorted list does what the loop over an unordered set does (41_analysis.md R195, R196,
10_state.md R52). -/
theorem mergeEntries_builds {n seq : Nat} {S : List Entry} {t : HufTree} (hS : EntriesOk S seq)
    (h : mergeEntries n S seq = some t) : Builds S seq t := by
  refine mergeEntries_induction (G := EntriesOk) (P := Builds) (fun e seq _ => .root e seq)
    (fun a b rest seq hG => entriesOk_join hG) (fun a b rest seq t hG ht => ?_) hS h
  have hs := hG.1
  simp only [SortedEntries, List.pairwise_cons] at hs
  refine .merge _ seq a b t ⟨by simp, fun x hx hne => ?_⟩ ?_ ?_
  · rcases List.mem_cons.mp hx with rfl | hx
    · exact absurd rfl hne
    · exact hs.1 x hx
  · rw [List.erase_cons_head]
    refine ⟨by simp, fun x hx hne => ?_⟩
    rcases List.mem_cons.mp hx with rfl | hx
    · exact absurd rfl hne
    · exact hs.2.1 x hx
  · rw [List.erase_cons_head, List.erase_cons_head]
    exact ht.perm (insertEntry_perm _ _)

end Sys2Proof.Machine
end

