-- ==== Sys2Proof/Laws/Memory.lean ====
section
/-! SUPPORT. Buffers: read after write, the canonical form, and what a store of bytes does. -/

namespace Sys2Proof.Machine

theorem Memory.read?_write (m : Memory) (a x : Nat) (b : Byte) :
    (m.write a b).read? x = if a = x then some b else m.read? x := by
  induction m with
  | nil => simp [Memory.write, Memory.read?]
  | cons c m ih =>
    obtain ⟨c, d⟩ := c
    simp only [Memory.write]
    split_ifs with h1 h2 h3 h3 h3
    all_goals simp_all [Memory.read?]
    intro h; omega

theorem Memory.read?_writeBytes_outside (s : List Byte) (m : Memory) (a x : Nat)
    (h : x < a ∨ a + s.length ≤ x) : (m.writeBytes a s).read? x = m.read? x := by
  induction s generalizing m a with
  | nil => rfl
  | cons b s ih =>
    simp only [List.length_cons] at h
    rw [Memory.writeBytes, ih _ _ (by omega), Memory.read?_write, if_neg (by omega)]

theorem Memory.read?_writeBytes_inside (s : List Byte) (m : Memory) (a i : Nat)
    (h : i < s.length) : (m.writeBytes a s).read? (a + i) = some s[i] := by
  induction s generalizing m a i with
  | nil => simp at h
  | cons b s ih =>
    rw [Memory.writeBytes]
    cases i with
    | zero =>
      rw [Memory.read?_writeBytes_outside _ _ _ _ (by omega), Memory.read?_write]
      simp
    | succ i =>
      have := ih (m.write a b) (a + 1) i (by simpa using h)
      rw [show a + (i + 1) = a + 1 + i by omega, this]
      rfl

/-- `MemWrite` stores its bytes and changes no other (00_scope.md R13). -/
theorem Memory.writeBytes_stored (m : Memory) (a : Nat) (b : List Byte) :
    m.stored (m.writeBytes a b) a b :=
  ⟨fun i h => m.read?_writeBytes_inside b a i h, fun x h => m.read?_writeBytes_outside b a x h⟩

theorem Memory.read?_forgetFrom (m : Memory) (a x : Nat) :
    (m.forgetFrom a).read? x = if x < a then m.read? x else none := by
  induction m with
  | nil => simp [Memory.forgetFrom, Memory.read?]
  | cons c m ih =>
    obtain ⟨c, d⟩ := c
    simp only [Memory.forgetFrom] at ih ⊢
    by_cases hc : c < a
    · simp only [List.filter_cons, hc, decide_true, if_true, Memory.read?, ih]
      split_ifs <;> first | rfl | omega
    · simp only [List.filter_cons, hc, decide_false, Bool.false_eq_true, if_false, Memory.read?, ih]
      split_ifs <;> first | rfl | omega

theorem Memory.forgetFrom_forgotten (m : Memory) (a : Nat) : m.forgotten (m.forgetFrom a) a :=
  ⟨fun x h => by rw [m.read?_forgetFrom, if_pos h],
    fun x h => by rw [m.read?_forgetFrom, if_neg (by omega)]⟩

/-! ### The canonical form -/

theorem Memory.risingFrom_mono {lo lo' : Nat} (h : lo' ≤ lo) {m : Memory}
    (hm : m.risingFrom lo = true) : m.risingFrom lo' = true := by
  cases m with
  | nil => rfl
  | cons c m =>
    simp only [Memory.risingFrom, Bool.and_eq_true, decide_eq_true_eq] at hm ⊢
    exact ⟨by omega, hm.2⟩

theorem Memory.risingFrom_write {lo a : Nat} (b : Byte) (h : lo ≤ a) {m : Memory}
    (hm : m.risingFrom lo = true) : (m.write a b).risingFrom lo = true := by
  induction m generalizing lo with
  | nil => simp [Memory.write, Memory.risingFrom, h]
  | cons c m ih =>
    obtain ⟨c, d⟩ := c
    simp only [Memory.risingFrom, Bool.and_eq_true, decide_eq_true_eq] at hm
    simp only [Memory.write]
    split_ifs with h1 h2
    · simp only [Memory.risingFrom, Bool.and_eq_true, decide_eq_true_eq]
      exact ⟨h, by omega, hm.2⟩
    · subst h2
      simp only [Memory.risingFrom, Bool.and_eq_true, decide_eq_true_eq]
      exact ⟨h, hm.2⟩
    · simp only [Memory.risingFrom, Bool.and_eq_true, decide_eq_true_eq]
      exact ⟨hm.1, ih (by omega) hm.2⟩

theorem Memory.wf_write {m : Memory} (a : Nat) (b : Byte) (h : m.wf = true) :
    (m.write a b).wf = true :=
  Memory.risingFrom_write b (Nat.zero_le a) h

theorem Memory.wf_writeBytes {m : Memory} (a : Nat) (s : List Byte) (h : m.wf = true) :
    (m.writeBytes a s).wf = true := by
  induction s generalizing m a with
  | nil => exact h
  | cons b s ih => exact ih (a + 1) (Memory.wf_write a b h)

theorem Memory.risingFrom_forgetFrom {lo : Nat} {m : Memory} (a : Nat)
    (h : m.risingFrom lo = true) : (m.forgetFrom a).risingFrom lo = true := by
  induction m generalizing lo with
  | nil => rfl
  | cons c m ih =>
    simp only [Memory.risingFrom, Bool.and_eq_true, decide_eq_true_eq] at h
    simp only [Memory.forgetFrom] at ih ⊢
    rw [List.filter_cons]
    split_ifs
    · simp only [Memory.risingFrom, Bool.and_eq_true, decide_eq_true_eq]
      exact ⟨h.1, ih h.2⟩
    · exact Memory.risingFrom_mono (by omega) (ih h.2)

theorem Memory.wf_forgetFrom {m : Memory} (a : Nat) (h : m.wf = true) :
    (m.forgetFrom a).wf = true :=
  Memory.risingFrom_forgetFrom a h

theorem Memory.within_write {m : Memory} {size a : Nat} (b : Byte) (ha : a < size)
    (h : m.within size = true) : (m.write a b).within size = true := by
  induction m with
  | nil => simp [Memory.write, Memory.within, ha]
  | cons c m ih =>
    obtain ⟨c, d⟩ := c
    simp only [Memory.within, List.all_cons, Bool.and_eq_true, decide_eq_true_eq] at h ih
    simp only [Memory.write]
    split_ifs with h1 h2
    all_goals
      simp only [Memory.within, List.all_cons, Bool.and_eq_true, decide_eq_true_eq]
    · exact ⟨ha, h⟩
    · exact ⟨ha, h.2⟩
    · exact ⟨h.1, ih h.2⟩

theorem Memory.within_writeBytes {m : Memory} {size : Nat} (s : List Byte) (a : Nat)
    (ha : a + s.length ≤ size) (h : m.within size = true) :
    (m.writeBytes a s).within size = true := by
  induction s generalizing m a with
  | nil => exact h
  | cons b s ih =>
    simp only [List.length_cons] at ha
    exact ih (a + 1) (by omega) (Memory.within_write b (by omega) h)

theorem Memory.within_forgetFrom {m : Memory} {size : Nat} (a : Nat)
    (h : m.within size = true) : (m.forgetFrom a).within size = true := by
  simp only [Memory.within, List.all_eq_true, Memory.forgetFrom, List.mem_filter] at h ⊢
  exact fun c hc => h c hc.1

/-! ### Regions that hold written bytes -/

theorem Memory.holds_read? {m : Memory} {d : List Byte} {a : Nat} (h : m.holds a d) (i : Nat)
    (hi : i < d.length) : m.read? (a + i) = some d[i] := by
  induction d generalizing a i with
  | nil => simp at hi
  | cons b d ih =>
    cases i with
    | zero => exact h.1
    | succ i =>
      have := ih h.2 i (by simpa using hi)
      rw [show a + (i + 1) = a + 1 + i by omega, this]
      rfl

theorem Memory.holds_iff {m : Memory} {d : List Byte} {a : Nat} :
    m.holds a d ↔ ∀ i, (h : i < d.length) → m.read? (a + i) = some d[i] := by
  refine ⟨fun h i hi => Memory.holds_read? h i hi, fun h => ?_⟩
  induction d generalizing a with
  | nil => trivial
  | cons b d ih =>
    refine ⟨h 0 (by simp), ih fun i hi => ?_⟩
    have := h (i + 1) (by simpa using hi)
    rw [show a + (i + 1) = a + 1 + i by omega] at this
    rw [this]
    rfl

theorem Memory.holds_append {m : Memory} {d e : List Byte} {a : Nat} :
    m.holds a (d ++ e) ↔ m.holds a d ∧ m.holds (a + d.length) e := by
  induction d generalizing a with
  | nil => simp [Memory.holds]
  | cons b d ih =>
    simp only [List.cons_append, Memory.holds, ih, List.length_cons, and_assoc]
    rw [show a + 1 + d.length = a + (d.length + 1) by omega]

/-- Two stores, the second right after the first, are one (00_scope.md R13). -/
theorem Memory.writeBytes_append (b e : List Byte) (m : Memory) (a : Nat) :
    (m.writeBytes a b).writeBytes (a + b.length) e = m.writeBytes a (b ++ e) := by
  induction b generalizing m a with
  | nil => rfl
  | cons x b ih =>
    simp only [Memory.writeBytes, List.cons_append, List.length_cons]
    rw [← ih, show a + 1 + b.length = a + (b.length + 1) by omega]

/-- A buffer that has `b` stored at `a` holds `b` there. -/
theorem Memory.holds_of_stored {m m' : Memory} {a : Nat} {b : List Byte} (h : m.stored m' a b) :
    m'.holds a b :=
  Memory.holds_iff.mpr h.1

/-- What is held is determined by its place and length. -/
theorem Memory.holds_inj {m : Memory} {a : Nat} {b e : List Byte} (hb : m.holds a b)
    (he : m.holds a e) (hl : b.length = e.length) : b = e := by
  apply List.ext_getElem hl
  intro i h1 h2
  have := (Memory.holds_read? hb i h1).symm.trans (Memory.holds_read? he i h2)
  simpa using this

end Sys2Proof.Machine
end

