-- ==== Sys2Proof/Laws/State.lean ====
section
/-! SUPPORT. One lemma per field per named update of State, true by rfl. -/

namespace Sys2Proof.Machine

variable (s : State)

/-! ### accept -/

@[simp] theorem State.accept_ibufSize (w : Word) : (s.accept w).ibufSize = s.ibufSize := rfl
@[simp] theorem State.accept_obufSize (w : Word) : (s.accept w).obufSize = s.obufSize := rfl
@[simp] theorem State.accept_ieDone (w : Word) : (s.accept w).ieDone = s.ieDone := rfl
@[simp] theorem State.accept_ieErr (w : Word) : (s.accept w).ieErr = s.ieErr := rfl
@[simp] theorem State.accept_done (w : Word) : (s.accept w).done = false := rfl
@[simp] theorem State.accept_err (w : Word) : (s.accept w).err = s.err := rfl
@[simp] theorem State.accept_pathFound (w : Word) : (s.accept w).pathFound = s.pathFound := rfl
@[simp] theorem State.accept_hostConflict (w : Word) :
    (s.accept w).hostConflict = s.hostConflict := rfl
@[simp] theorem State.accept_cmdDropped (w : Word) : (s.accept w).cmdDropped = s.cmdDropped := rfl
@[simp] theorem State.accept_cmd (w : Word) : (s.accept w).cmd = w := rfl
@[simp] theorem State.accept_resultOpcode (w : Word) :
    (s.accept w).resultOpcode = s.resultOpcode := rfl
@[simp] theorem State.accept_resultCode (w : Word) : (s.accept w).resultCode = s.resultCode := rfl
@[simp] theorem State.accept_errInfo (w : Word) : (s.accept w).errInfo = s.errInfo := rfl
@[simp] theorem State.accept_inLen (w : Word) : (s.accept w).inLen = s.inLen := rfl
@[simp] theorem State.accept_inPtr (w : Word) : (s.accept w).inPtr = s.inPtr := rfl
@[simp] theorem State.accept_outLen (w : Word) : (s.accept w).outLen = s.outLen := rfl
@[simp] theorem State.accept_origLen (w : Word) : (s.accept w).origLen = s.origLen := rfl
@[simp] theorem State.accept_bitLen (w : Word) : (s.accept w).bitLen = s.bitLen := rfl
@[simp] theorem State.accept_pathLen (w : Word) : (s.accept w).pathLen = s.pathLen := rfl
@[simp] theorem State.accept_pathBits (w : Word) : (s.accept w).pathBits = s.pathBits := rfl
@[simp] theorem State.accept_freq (w : Word) : (s.accept w).freq = s.freq := rfl
@[simp] theorem State.accept_tree (w : Word) : (s.accept w).tree = s.tree := rfl
@[simp] theorem State.accept_ibuf (w : Word) : (s.accept w).ibuf = s.ibuf := rfl
@[simp] theorem State.accept_obuf (w : Word) : (s.accept w).obuf = s.obuf := rfl
@[simp] theorem State.accept_pend (w : Word) :
    (s.accept w).pend = some ⟨w, s.inPtr, s.outLen⟩ := rfl
@[simp] theorem State.accept_response (w : Word) : (s.accept w).response = s.response := rfl
@[simp] theorem State.accept_draws (w : Word) : (s.accept w).draws = s.draws := rfl
@[simp] theorem State.accept_agenda (w : Word) : (s.accept w).agenda = s.agenda := rfl

/-! ### dropCommand -/

@[simp] theorem State.dropCommand_ibufSize : (s.dropCommand).ibufSize = s.ibufSize := rfl
@[simp] theorem State.dropCommand_obufSize : (s.dropCommand).obufSize = s.obufSize := rfl
@[simp] theorem State.dropCommand_ieDone : (s.dropCommand).ieDone = s.ieDone := rfl
@[simp] theorem State.dropCommand_ieErr : (s.dropCommand).ieErr = s.ieErr := rfl
@[simp] theorem State.dropCommand_done : (s.dropCommand).done = s.done := rfl
@[simp] theorem State.dropCommand_err : (s.dropCommand).err = s.err := rfl
@[simp] theorem State.dropCommand_pathFound : (s.dropCommand).pathFound = s.pathFound := rfl
@[simp] theorem State.dropCommand_hostConflict :
    (s.dropCommand).hostConflict = s.hostConflict := rfl
@[simp] theorem State.dropCommand_cmdDropped : (s.dropCommand).cmdDropped = true := rfl
@[simp] theorem State.dropCommand_cmd : (s.dropCommand).cmd = s.cmd := rfl
@[simp] theorem State.dropCommand_resultOpcode :
    (s.dropCommand).resultOpcode = s.resultOpcode := rfl
@[simp] theorem State.dropCommand_resultCode : (s.dropCommand).resultCode = s.resultCode := rfl
@[simp] theorem State.dropCommand_errInfo : (s.dropCommand).errInfo = s.errInfo := rfl
@[simp] theorem State.dropCommand_inLen : (s.dropCommand).inLen = s.inLen := rfl
@[simp] theorem State.dropCommand_inPtr : (s.dropCommand).inPtr = s.inPtr := rfl
@[simp] theorem State.dropCommand_outLen : (s.dropCommand).outLen = s.outLen := rfl
@[simp] theorem State.dropCommand_origLen : (s.dropCommand).origLen = s.origLen := rfl
@[simp] theorem State.dropCommand_bitLen : (s.dropCommand).bitLen = s.bitLen := rfl
@[simp] theorem State.dropCommand_pathLen : (s.dropCommand).pathLen = s.pathLen := rfl
@[simp] theorem State.dropCommand_pathBits : (s.dropCommand).pathBits = s.pathBits := rfl
@[simp] theorem State.dropCommand_freq : (s.dropCommand).freq = s.freq := rfl
@[simp] theorem State.dropCommand_tree : (s.dropCommand).tree = s.tree := rfl
@[simp] theorem State.dropCommand_ibuf : (s.dropCommand).ibuf = s.ibuf := rfl
@[simp] theorem State.dropCommand_obuf : (s.dropCommand).obuf = s.obuf := rfl
@[simp] theorem State.dropCommand_pend : (s.dropCommand).pend = s.pend := rfl
@[simp] theorem State.dropCommand_response : (s.dropCommand).response = s.response := rfl
@[simp] theorem State.dropCommand_draws : (s.dropCommand).draws = s.draws := rfl
@[simp] theorem State.dropCommand_agenda : (s.dropCommand).agenda = s.agenda := rfl

/-! ### complete -/

@[simp] theorem State.complete_ibufSize : (s.complete).ibufSize = s.ibufSize := rfl
@[simp] theorem State.complete_obufSize : (s.complete).obufSize = s.obufSize := rfl
@[simp] theorem State.complete_ieDone : (s.complete).ieDone = s.ieDone := rfl
@[simp] theorem State.complete_ieErr : (s.complete).ieErr = s.ieErr := rfl
@[simp] theorem State.complete_done : (s.complete).done = true := rfl
@[simp] theorem State.complete_err : (s.complete).err = s.err := rfl
@[simp] theorem State.complete_pathFound : (s.complete).pathFound = s.pathFound := rfl
@[simp] theorem State.complete_hostConflict : (s.complete).hostConflict = s.hostConflict := rfl
@[simp] theorem State.complete_cmdDropped : (s.complete).cmdDropped = s.cmdDropped := rfl
@[simp] theorem State.complete_cmd : (s.complete).cmd = s.cmd := rfl
@[simp] theorem State.complete_resultOpcode :
    (s.complete).resultOpcode = opcodeOf s.accepted.word := rfl
@[simp] theorem State.complete_resultCode : (s.complete).resultCode = .ok := rfl
@[simp] theorem State.complete_errInfo : (s.complete).errInfo = 0 := rfl
@[simp] theorem State.complete_inLen : (s.complete).inLen = s.inLen := rfl
@[simp] theorem State.complete_inPtr : (s.complete).inPtr = s.inPtr := rfl
@[simp] theorem State.complete_outLen : (s.complete).outLen = s.outLen := rfl
@[simp] theorem State.complete_origLen : (s.complete).origLen = s.origLen := rfl
@[simp] theorem State.complete_bitLen : (s.complete).bitLen = s.bitLen := rfl
@[simp] theorem State.complete_pathLen : (s.complete).pathLen = s.pathLen := rfl
@[simp] theorem State.complete_pathBits : (s.complete).pathBits = s.pathBits := rfl
@[simp] theorem State.complete_freq : (s.complete).freq = s.freq := rfl
@[simp] theorem State.complete_tree : (s.complete).tree = s.tree := rfl
@[simp] theorem State.complete_ibuf : (s.complete).ibuf = s.ibuf := rfl
@[simp] theorem State.complete_obuf : (s.complete).obuf = s.obuf := rfl
@[simp] theorem State.complete_pend : (s.complete).pend = none := rfl
@[simp] theorem State.complete_response : (s.complete).response = s.response := rfl
@[simp] theorem State.complete_draws : (s.complete).draws = s.draws := rfl
@[simp] theorem State.complete_agenda : (s.complete).agenda = s.agenda := rfl

/-! ### abort -/

@[simp] theorem State.abort_ibufSize (code : ResultCode) (info : Word) :
    (s.abort code info).ibufSize = s.ibufSize := rfl
@[simp] theorem State.abort_obufSize (code : ResultCode) (info : Word) :
    (s.abort code info).obufSize = s.obufSize := rfl
@[simp] theorem State.abort_ieDone (code : ResultCode) (info : Word) :
    (s.abort code info).ieDone = s.ieDone := rfl
@[simp] theorem State.abort_ieErr (code : ResultCode) (info : Word) :
    (s.abort code info).ieErr = s.ieErr := rfl
@[simp] theorem State.abort_done (code : ResultCode) (info : Word) :
    (s.abort code info).done = true := rfl
@[simp] theorem State.abort_err (code : ResultCode) (info : Word) :
    (s.abort code info).err = true := rfl
@[simp] theorem State.abort_pathFound (code : ResultCode) (info : Word) :
    (s.abort code info).pathFound = s.pathFound := rfl
@[simp] theorem State.abort_hostConflict (code : ResultCode) (info : Word) :
    (s.abort code info).hostConflict = s.hostConflict := rfl
@[simp] theorem State.abort_cmdDropped (code : ResultCode) (info : Word) :
    (s.abort code info).cmdDropped = s.cmdDropped := rfl
@[simp] theorem State.abort_cmd (code : ResultCode) (info : Word) :
    (s.abort code info).cmd = s.cmd := rfl
@[simp] theorem State.abort_resultOpcode (code : ResultCode) (info : Word) :
    (s.abort code info).resultOpcode = opcodeOf s.accepted.word := rfl
@[simp] theorem State.abort_resultCode (code : ResultCode) (info : Word) :
    (s.abort code info).resultCode = code := rfl
@[simp] theorem State.abort_errInfo (code : ResultCode) (info : Word) :
    (s.abort code info).errInfo = info := rfl
@[simp] theorem State.abort_inLen (code : ResultCode) (info : Word) :
    (s.abort code info).inLen = s.inLen := rfl
@[simp] theorem State.abort_inPtr (code : ResultCode) (info : Word) :
    (s.abort code info).inPtr = s.accepted.inPtr0 := rfl
@[simp] theorem State.abort_outLen (code : ResultCode) (info : Word) :
    (s.abort code info).outLen = s.accepted.outLen0 := rfl
@[simp] theorem State.abort_origLen (code : ResultCode) (info : Word) :
    (s.abort code info).origLen = s.origLen := rfl
@[simp] theorem State.abort_bitLen (code : ResultCode) (info : Word) :
    (s.abort code info).bitLen = s.bitLen := rfl
@[simp] theorem State.abort_pathLen (code : ResultCode) (info : Word) :
    (s.abort code info).pathLen = s.pathLen := rfl
@[simp] theorem State.abort_pathBits (code : ResultCode) (info : Word) :
    (s.abort code info).pathBits = s.pathBits := rfl
@[simp] theorem State.abort_freq (code : ResultCode) (info : Word) :
    (s.abort code info).freq = s.freq := rfl
@[simp] theorem State.abort_tree (code : ResultCode) (info : Word) :
    (s.abort code info).tree = s.tree := rfl
@[simp] theorem State.abort_ibuf (code : ResultCode) (info : Word) :
    (s.abort code info).ibuf = s.ibuf := rfl
@[simp] theorem State.abort_obuf (code : ResultCode) (info : Word) :
    (s.abort code info).obuf = s.obuf := rfl
@[simp] theorem State.abort_pend (code : ResultCode) (info : Word) :
    (s.abort code info).pend = none := rfl
@[simp] theorem State.abort_response (code : ResultCode) (info : Word) :
    (s.abort code info).response = s.response := rfl
@[simp] theorem State.abort_draws (code : ResultCode) (info : Word) :
    (s.abort code info).draws = s.draws := rfl
@[simp] theorem State.abort_agenda (code : ResultCode) (info : Word) :
    (s.abort code info).agenda = s.agenda := rfl

/-! ### finished -/

@[simp] theorem State.finished_ibufSize (p : Pending) : (s.finished p).ibufSize = s.ibufSize := rfl
@[simp] theorem State.finished_obufSize (p : Pending) : (s.finished p).obufSize = s.obufSize := rfl
@[simp] theorem State.finished_ieDone (p : Pending) : (s.finished p).ieDone = s.ieDone := rfl
@[simp] theorem State.finished_ieErr (p : Pending) : (s.finished p).ieErr = s.ieErr := rfl
@[simp] theorem State.finished_done (p : Pending) : (s.finished p).done = true := rfl
@[simp] theorem State.finished_err (p : Pending) : (s.finished p).err = s.err := rfl
@[simp] theorem State.finished_pathFound (p : Pending) :
    (s.finished p).pathFound = s.pathFound := rfl
@[simp] theorem State.finished_hostConflict (p : Pending) :
    (s.finished p).hostConflict = s.hostConflict := rfl
@[simp] theorem State.finished_cmdDropped (p : Pending) :
    (s.finished p).cmdDropped = s.cmdDropped := rfl
@[simp] theorem State.finished_cmd (p : Pending) : (s.finished p).cmd = s.cmd := rfl
@[simp] theorem State.finished_resultOpcode (p : Pending) :
    (s.finished p).resultOpcode = opcodeOf p.word := rfl
@[simp] theorem State.finished_resultCode (p : Pending) : (s.finished p).resultCode = .ok := rfl
@[simp] theorem State.finished_errInfo (p : Pending) : (s.finished p).errInfo = 0 := rfl
@[simp] theorem State.finished_inLen (p : Pending) : (s.finished p).inLen = s.inLen := rfl
@[simp] theorem State.finished_inPtr (p : Pending) : (s.finished p).inPtr = s.inPtr := rfl
@[simp] theorem State.finished_outLen (p : Pending) : (s.finished p).outLen = s.outLen := rfl
@[simp] theorem State.finished_origLen (p : Pending) : (s.finished p).origLen = s.origLen := rfl
@[simp] theorem State.finished_bitLen (p : Pending) : (s.finished p).bitLen = s.bitLen := rfl
@[simp] theorem State.finished_pathLen (p : Pending) : (s.finished p).pathLen = s.pathLen := rfl
@[simp] theorem State.finished_pathBits (p : Pending) : (s.finished p).pathBits = s.pathBits := rfl
@[simp] theorem State.finished_freq (p : Pending) : (s.finished p).freq = s.freq := rfl
@[simp] theorem State.finished_tree (p : Pending) : (s.finished p).tree = s.tree := rfl
@[simp] theorem State.finished_ibuf (p : Pending) : (s.finished p).ibuf = s.ibuf := rfl
@[simp] theorem State.finished_obuf (p : Pending) : (s.finished p).obuf = s.obuf := rfl
@[simp] theorem State.finished_pend (p : Pending) : (s.finished p).pend = none := rfl
@[simp] theorem State.finished_response (p : Pending) : (s.finished p).response = s.response := rfl
@[simp] theorem State.finished_draws (p : Pending) : (s.finished p).draws = s.draws := rfl
@[simp] theorem State.finished_agenda (p : Pending) : (s.finished p).agenda = s.agenda := rfl

/-! ### aborted -/

@[simp] theorem State.aborted_ibufSize (p : Pending) (code : ResultCode) (info : Word) :
    (s.aborted p code info).ibufSize = s.ibufSize := rfl
@[simp] theorem State.aborted_obufSize (p : Pending) (code : ResultCode) (info : Word) :
    (s.aborted p code info).obufSize = s.obufSize := rfl
@[simp] theorem State.aborted_ieDone (p : Pending) (code : ResultCode) (info : Word) :
    (s.aborted p code info).ieDone = s.ieDone := rfl
@[simp] theorem State.aborted_ieErr (p : Pending) (code : ResultCode) (info : Word) :
    (s.aborted p code info).ieErr = s.ieErr := rfl
@[simp] theorem State.aborted_done (p : Pending) (code : ResultCode) (info : Word) :
    (s.aborted p code info).done = true := rfl
@[simp] theorem State.aborted_err (p : Pending) (code : ResultCode) (info : Word) :
    (s.aborted p code info).err = true := rfl
@[simp] theorem State.aborted_pathFound (p : Pending) (code : ResultCode) (info : Word) :
    (s.aborted p code info).pathFound = s.pathFound := rfl
@[simp] theorem State.aborted_hostConflict (p : Pending) (code : ResultCode) (info : Word) :
    (s.aborted p code info).hostConflict = s.hostConflict := rfl
@[simp] theorem State.aborted_cmdDropped (p : Pending) (code : ResultCode) (info : Word) :
    (s.aborted p code info).cmdDropped = s.cmdDropped := rfl
@[simp] theorem State.aborted_cmd (p : Pending) (code : ResultCode) (info : Word) :
    (s.aborted p code info).cmd = s.cmd := rfl
@[simp] theorem State.aborted_resultOpcode (p : Pending) (code : ResultCode) (info : Word) :
    (s.aborted p code info).resultOpcode = opcodeOf p.word := rfl
@[simp] theorem State.aborted_resultCode (p : Pending) (code : ResultCode) (info : Word) :
    (s.aborted p code info).resultCode = code := rfl
@[simp] theorem State.aborted_errInfo (p : Pending) (code : ResultCode) (info : Word) :
    (s.aborted p code info).errInfo = info := rfl
@[simp] theorem State.aborted_inLen (p : Pending) (code : ResultCode) (info : Word) :
    (s.aborted p code info).inLen = s.inLen := rfl
@[simp] theorem State.aborted_inPtr (p : Pending) (code : ResultCode) (info : Word) :
    (s.aborted p code info).inPtr = p.inPtr0 := rfl
@[simp] theorem State.aborted_outLen (p : Pending) (code : ResultCode) (info : Word) :
    (s.aborted p code info).outLen = p.outLen0 := rfl
@[simp] theorem State.aborted_origLen (p : Pending) (code : ResultCode) (info : Word) :
    (s.aborted p code info).origLen = s.origLen := rfl
@[simp] theorem State.aborted_bitLen (p : Pending) (code : ResultCode) (info : Word) :
    (s.aborted p code info).bitLen = s.bitLen := rfl
@[simp] theorem State.aborted_pathLen (p : Pending) (code : ResultCode) (info : Word) :
    (s.aborted p code info).pathLen = s.pathLen := rfl
@[simp] theorem State.aborted_pathBits (p : Pending) (code : ResultCode) (info : Word) :
    (s.aborted p code info).pathBits = s.pathBits := rfl
@[simp] theorem State.aborted_freq (p : Pending) (code : ResultCode) (info : Word) :
    (s.aborted p code info).freq = s.freq := rfl
@[simp] theorem State.aborted_tree (p : Pending) (code : ResultCode) (info : Word) :
    (s.aborted p code info).tree = s.tree := rfl
@[simp] theorem State.aborted_ibuf (p : Pending) (code : ResultCode) (info : Word) :
    (s.aborted p code info).ibuf = s.ibuf := rfl
@[simp] theorem State.aborted_obuf (p : Pending) (code : ResultCode) (info : Word) :
    (s.aborted p code info).obuf = s.obuf := rfl
@[simp] theorem State.aborted_pend (p : Pending) (code : ResultCode) (info : Word) :
    (s.aborted p code info).pend = none := rfl
@[simp] theorem State.aborted_response (p : Pending) (code : ResultCode) (info : Word) :
    (s.aborted p code info).response = s.response := rfl
@[simp] theorem State.aborted_draws (p : Pending) (code : ResultCode) (info : Word) :
    (s.aborted p code info).draws = s.draws := rfl
@[simp] theorem State.aborted_agenda (p : Pending) (code : ResultCode) (info : Word) :
    (s.aborted p code info).agenda = s.agenda := rfl

/-! ### forgetOutput -/

@[simp] theorem State.forgetOutput_ibufSize : (s.forgetOutput).ibufSize = s.ibufSize := rfl
@[simp] theorem State.forgetOutput_obufSize : (s.forgetOutput).obufSize = s.obufSize := rfl
@[simp] theorem State.forgetOutput_ieDone : (s.forgetOutput).ieDone = s.ieDone := rfl
@[simp] theorem State.forgetOutput_ieErr : (s.forgetOutput).ieErr = s.ieErr := rfl
@[simp] theorem State.forgetOutput_done : (s.forgetOutput).done = s.done := rfl
@[simp] theorem State.forgetOutput_err : (s.forgetOutput).err = s.err := rfl
@[simp] theorem State.forgetOutput_pathFound : (s.forgetOutput).pathFound = s.pathFound := rfl
@[simp] theorem State.forgetOutput_hostConflict :
    (s.forgetOutput).hostConflict = s.hostConflict := rfl
@[simp] theorem State.forgetOutput_cmdDropped : (s.forgetOutput).cmdDropped = s.cmdDropped := rfl
@[simp] theorem State.forgetOutput_cmd : (s.forgetOutput).cmd = s.cmd := rfl
@[simp] theorem State.forgetOutput_resultOpcode :
    (s.forgetOutput).resultOpcode = s.resultOpcode := rfl
@[simp] theorem State.forgetOutput_resultCode : (s.forgetOutput).resultCode = s.resultCode := rfl
@[simp] theorem State.forgetOutput_errInfo : (s.forgetOutput).errInfo = s.errInfo := rfl
@[simp] theorem State.forgetOutput_inLen : (s.forgetOutput).inLen = s.inLen := rfl
@[simp] theorem State.forgetOutput_inPtr : (s.forgetOutput).inPtr = s.inPtr := rfl
@[simp] theorem State.forgetOutput_outLen : (s.forgetOutput).outLen = s.outLen := rfl
@[simp] theorem State.forgetOutput_origLen : (s.forgetOutput).origLen = s.origLen := rfl
@[simp] theorem State.forgetOutput_bitLen : (s.forgetOutput).bitLen = s.bitLen := rfl
@[simp] theorem State.forgetOutput_pathLen : (s.forgetOutput).pathLen = s.pathLen := rfl
@[simp] theorem State.forgetOutput_pathBits : (s.forgetOutput).pathBits = s.pathBits := rfl
@[simp] theorem State.forgetOutput_freq : (s.forgetOutput).freq = s.freq := rfl
@[simp] theorem State.forgetOutput_tree : (s.forgetOutput).tree = s.tree := rfl
@[simp] theorem State.forgetOutput_ibuf : (s.forgetOutput).ibuf = s.ibuf := rfl
@[simp] theorem State.forgetOutput_obuf :
    (s.forgetOutput).obuf = s.obuf.forgetFrom s.accepted.outLen0.toNat := rfl
@[simp] theorem State.forgetOutput_pend : (s.forgetOutput).pend = s.pend := rfl
@[simp] theorem State.forgetOutput_response : (s.forgetOutput).response = s.response := rfl
@[simp] theorem State.forgetOutput_draws : (s.forgetOutput).draws = s.draws := rfl
@[simp] theorem State.forgetOutput_agenda : (s.forgetOutput).agenda = s.agenda := rfl

/-! ### emit -/

@[simp] theorem State.emit_ibufSize (b : List Byte) : (s.emit b).ibufSize = s.ibufSize := rfl
@[simp] theorem State.emit_obufSize (b : List Byte) : (s.emit b).obufSize = s.obufSize := rfl
@[simp] theorem State.emit_ieDone (b : List Byte) : (s.emit b).ieDone = s.ieDone := rfl
@[simp] theorem State.emit_ieErr (b : List Byte) : (s.emit b).ieErr = s.ieErr := rfl
@[simp] theorem State.emit_done (b : List Byte) : (s.emit b).done = s.done := rfl
@[simp] theorem State.emit_err (b : List Byte) : (s.emit b).err = s.err := rfl
@[simp] theorem State.emit_pathFound (b : List Byte) : (s.emit b).pathFound = s.pathFound := rfl
@[simp] theorem State.emit_hostConflict (b : List Byte) :
    (s.emit b).hostConflict = s.hostConflict := rfl
@[simp] theorem State.emit_cmdDropped (b : List Byte) : (s.emit b).cmdDropped = s.cmdDropped := rfl
@[simp] theorem State.emit_cmd (b : List Byte) : (s.emit b).cmd = s.cmd := rfl
@[simp] theorem State.emit_resultOpcode (b : List Byte) :
    (s.emit b).resultOpcode = s.resultOpcode := rfl
@[simp] theorem State.emit_resultCode (b : List Byte) : (s.emit b).resultCode = s.resultCode := rfl
@[simp] theorem State.emit_errInfo (b : List Byte) : (s.emit b).errInfo = s.errInfo := rfl
@[simp] theorem State.emit_inLen (b : List Byte) : (s.emit b).inLen = s.inLen := rfl
@[simp] theorem State.emit_inPtr (b : List Byte) : (s.emit b).inPtr = s.inPtr := rfl
@[simp] theorem State.emit_outLen (b : List Byte) :
    (s.emit b).outLen = s.outLen + BitVec.ofNat 32 b.length := rfl
@[simp] theorem State.emit_origLen (b : List Byte) : (s.emit b).origLen = s.origLen := rfl
@[simp] theorem State.emit_bitLen (b : List Byte) : (s.emit b).bitLen = s.bitLen := rfl
@[simp] theorem State.emit_pathLen (b : List Byte) : (s.emit b).pathLen = s.pathLen := rfl
@[simp] theorem State.emit_pathBits (b : List Byte) : (s.emit b).pathBits = s.pathBits := rfl
@[simp] theorem State.emit_freq (b : List Byte) : (s.emit b).freq = s.freq := rfl
@[simp] theorem State.emit_tree (b : List Byte) : (s.emit b).tree = s.tree := rfl
@[simp] theorem State.emit_ibuf (b : List Byte) : (s.emit b).ibuf = s.ibuf := rfl
@[simp] theorem State.emit_obuf (b : List Byte) :
    (s.emit b).obuf = s.obuf.writeBytes s.outLen.toNat b := rfl
@[simp] theorem State.emit_pend (b : List Byte) : (s.emit b).pend = s.pend := rfl
@[simp] theorem State.emit_response (b : List Byte) : (s.emit b).response = s.response := rfl
@[simp] theorem State.emit_draws (b : List Byte) : (s.emit b).draws = s.draws := rfl
@[simp] theorem State.emit_agenda (b : List Byte) : (s.emit b).agenda = s.agenda := rfl

/-! ### freshEpoch -/

@[simp] theorem State.freshEpoch_ibufSize : (s.freshEpoch).ibufSize = s.ibufSize := rfl
@[simp] theorem State.freshEpoch_obufSize : (s.freshEpoch).obufSize = s.obufSize := rfl
@[simp] theorem State.freshEpoch_ieDone : (s.freshEpoch).ieDone = s.ieDone := rfl
@[simp] theorem State.freshEpoch_ieErr : (s.freshEpoch).ieErr = s.ieErr := rfl
@[simp] theorem State.freshEpoch_done : (s.freshEpoch).done = s.done := rfl
@[simp] theorem State.freshEpoch_err : (s.freshEpoch).err = s.err := rfl
@[simp] theorem State.freshEpoch_pathFound : (s.freshEpoch).pathFound = s.pathFound := rfl
@[simp] theorem State.freshEpoch_hostConflict : (s.freshEpoch).hostConflict = s.hostConflict := rfl
@[simp] theorem State.freshEpoch_cmdDropped : (s.freshEpoch).cmdDropped = s.cmdDropped := rfl
@[simp] theorem State.freshEpoch_cmd : (s.freshEpoch).cmd = s.cmd := rfl
@[simp] theorem State.freshEpoch_resultOpcode : (s.freshEpoch).resultOpcode = s.resultOpcode := rfl
@[simp] theorem State.freshEpoch_resultCode : (s.freshEpoch).resultCode = s.resultCode := rfl
@[simp] theorem State.freshEpoch_errInfo : (s.freshEpoch).errInfo = s.errInfo := rfl
@[simp] theorem State.freshEpoch_inLen : (s.freshEpoch).inLen = s.inLen := rfl
@[simp] theorem State.freshEpoch_inPtr : (s.freshEpoch).inPtr = s.inPtr := rfl
@[simp] theorem State.freshEpoch_outLen : (s.freshEpoch).outLen = s.outLen := rfl
@[simp] theorem State.freshEpoch_origLen : (s.freshEpoch).origLen = s.origLen := rfl
@[simp] theorem State.freshEpoch_bitLen : (s.freshEpoch).bitLen = s.bitLen := rfl
@[simp] theorem State.freshEpoch_pathLen : (s.freshEpoch).pathLen = s.pathLen := rfl
@[simp] theorem State.freshEpoch_pathBits : (s.freshEpoch).pathBits = s.pathBits := rfl
@[simp] theorem State.freshEpoch_freq : (s.freshEpoch).freq = s.freq := rfl
@[simp] theorem State.freshEpoch_tree : (s.freshEpoch).tree = s.tree := rfl
@[simp] theorem State.freshEpoch_ibuf : (s.freshEpoch).ibuf = s.ibuf := rfl
@[simp] theorem State.freshEpoch_obuf : (s.freshEpoch).obuf = s.obuf := rfl
@[simp] theorem State.freshEpoch_pend : (s.freshEpoch).pend = s.pend := rfl
@[simp] theorem State.freshEpoch_response : (s.freshEpoch).response = s.response := rfl
@[simp] theorem State.freshEpoch_draws : (s.freshEpoch).draws = s.draws + 1 := rfl
@[simp] theorem State.freshEpoch_agenda : (s.freshEpoch).agenda = s.agenda := rfl

/-! ### withAgenda -/

@[simp] theorem State.withAgenda_ibufSize (es : List Event) :
    (s.withAgenda es).ibufSize = s.ibufSize := rfl
@[simp] theorem State.withAgenda_obufSize (es : List Event) :
    (s.withAgenda es).obufSize = s.obufSize := rfl
@[simp] theorem State.withAgenda_ieDone (es : List Event) :
    (s.withAgenda es).ieDone = s.ieDone := rfl
@[simp] theorem State.withAgenda_ieErr (es : List Event) : (s.withAgenda es).ieErr = s.ieErr := rfl
@[simp] theorem State.withAgenda_done (es : List Event) : (s.withAgenda es).done = s.done := rfl
@[simp] theorem State.withAgenda_err (es : List Event) : (s.withAgenda es).err = s.err := rfl
@[simp] theorem State.withAgenda_pathFound (es : List Event) :
    (s.withAgenda es).pathFound = s.pathFound := rfl
@[simp] theorem State.withAgenda_hostConflict (es : List Event) :
    (s.withAgenda es).hostConflict = s.hostConflict := rfl
@[simp] theorem State.withAgenda_cmdDropped (es : List Event) :
    (s.withAgenda es).cmdDropped = s.cmdDropped := rfl
@[simp] theorem State.withAgenda_cmd (es : List Event) : (s.withAgenda es).cmd = s.cmd := rfl
@[simp] theorem State.withAgenda_resultOpcode (es : List Event) :
    (s.withAgenda es).resultOpcode = s.resultOpcode := rfl
@[simp] theorem State.withAgenda_resultCode (es : List Event) :
    (s.withAgenda es).resultCode = s.resultCode := rfl
@[simp] theorem State.withAgenda_errInfo (es : List Event) :
    (s.withAgenda es).errInfo = s.errInfo := rfl
@[simp] theorem State.withAgenda_inLen (es : List Event) : (s.withAgenda es).inLen = s.inLen := rfl
@[simp] theorem State.withAgenda_inPtr (es : List Event) : (s.withAgenda es).inPtr = s.inPtr := rfl
@[simp] theorem State.withAgenda_outLen (es : List Event) :
    (s.withAgenda es).outLen = s.outLen := rfl
@[simp] theorem State.withAgenda_origLen (es : List Event) :
    (s.withAgenda es).origLen = s.origLen := rfl
@[simp] theorem State.withAgenda_bitLen (es : List Event) :
    (s.withAgenda es).bitLen = s.bitLen := rfl
@[simp] theorem State.withAgenda_pathLen (es : List Event) :
    (s.withAgenda es).pathLen = s.pathLen := rfl
@[simp] theorem State.withAgenda_pathBits (es : List Event) :
    (s.withAgenda es).pathBits = s.pathBits := rfl
@[simp] theorem State.withAgenda_freq (es : List Event) : (s.withAgenda es).freq = s.freq := rfl
@[simp] theorem State.withAgenda_tree (es : List Event) : (s.withAgenda es).tree = s.tree := rfl
@[simp] theorem State.withAgenda_ibuf (es : List Event) : (s.withAgenda es).ibuf = s.ibuf := rfl
@[simp] theorem State.withAgenda_obuf (es : List Event) : (s.withAgenda es).obuf = s.obuf := rfl
@[simp] theorem State.withAgenda_pend (es : List Event) : (s.withAgenda es).pend = s.pend := rfl
@[simp] theorem State.withAgenda_response (es : List Event) :
    (s.withAgenda es).response = s.response := rfl
@[simp] theorem State.withAgenda_draws (es : List Event) : (s.withAgenda es).draws = s.draws := rfl
@[simp] theorem State.withAgenda_agenda (es : List Event) : (s.withAgenda es).agenda = es := rfl

/-! ### acknowledge -/

@[simp] theorem State.acknowledge_ibufSize (w : Word) :
    (s.acknowledge w).ibufSize = s.ibufSize := rfl
@[simp] theorem State.acknowledge_obufSize (w : Word) :
    (s.acknowledge w).obufSize = s.obufSize := rfl
@[simp] theorem State.acknowledge_ieDone (w : Word) : (s.acknowledge w).ieDone = s.ieDone := rfl
@[simp] theorem State.acknowledge_ieErr (w : Word) : (s.acknowledge w).ieErr = s.ieErr := rfl
@[simp] theorem State.acknowledge_done (w : Word) :
    (s.acknowledge w).done = (s.done && !w.getLsbD 1) := rfl
@[simp] theorem State.acknowledge_err (w : Word) :
    (s.acknowledge w).err = (s.err && !w.getLsbD 2) := rfl
@[simp] theorem State.acknowledge_pathFound (w : Word) :
    (s.acknowledge w).pathFound = s.pathFound := rfl
@[simp] theorem State.acknowledge_hostConflict (w : Word) :
    (s.acknowledge w).hostConflict = (s.hostConflict && !w.getLsbD 5) := rfl
@[simp] theorem State.acknowledge_cmdDropped (w : Word) :
    (s.acknowledge w).cmdDropped = (s.cmdDropped && !w.getLsbD 6) := rfl
@[simp] theorem State.acknowledge_cmd (w : Word) : (s.acknowledge w).cmd = s.cmd := rfl
@[simp] theorem State.acknowledge_resultOpcode (w : Word) :
    (s.acknowledge w).resultOpcode = s.resultOpcode := rfl
@[simp] theorem State.acknowledge_resultCode (w : Word) :
    (s.acknowledge w).resultCode = s.resultCode := rfl
@[simp] theorem State.acknowledge_errInfo (w : Word) : (s.acknowledge w).errInfo = s.errInfo := rfl
@[simp] theorem State.acknowledge_inLen (w : Word) : (s.acknowledge w).inLen = s.inLen := rfl
@[simp] theorem State.acknowledge_inPtr (w : Word) : (s.acknowledge w).inPtr = s.inPtr := rfl
@[simp] theorem State.acknowledge_outLen (w : Word) : (s.acknowledge w).outLen = s.outLen := rfl
@[simp] theorem State.acknowledge_origLen (w : Word) : (s.acknowledge w).origLen = s.origLen := rfl
@[simp] theorem State.acknowledge_bitLen (w : Word) : (s.acknowledge w).bitLen = s.bitLen := rfl
@[simp] theorem State.acknowledge_pathLen (w : Word) : (s.acknowledge w).pathLen = s.pathLen := rfl
@[simp] theorem State.acknowledge_pathBits (w : Word) :
    (s.acknowledge w).pathBits = s.pathBits := rfl
@[simp] theorem State.acknowledge_freq (w : Word) : (s.acknowledge w).freq = s.freq := rfl
@[simp] theorem State.acknowledge_tree (w : Word) : (s.acknowledge w).tree = s.tree := rfl
@[simp] theorem State.acknowledge_ibuf (w : Word) : (s.acknowledge w).ibuf = s.ibuf := rfl
@[simp] theorem State.acknowledge_obuf (w : Word) : (s.acknowledge w).obuf = s.obuf := rfl
@[simp] theorem State.acknowledge_pend (w : Word) : (s.acknowledge w).pend = s.pend := rfl
@[simp] theorem State.acknowledge_response (w : Word) :
    (s.acknowledge w).response = s.response := rfl
@[simp] theorem State.acknowledge_draws (w : Word) : (s.acknowledge w).draws = s.draws := rfl
@[simp] theorem State.acknowledge_agenda (w : Word) : (s.acknowledge w).agenda = s.agenda := rfl

/-! ### writeCtrl -/

@[simp] theorem State.writeCtrl_ibufSize (w : Word) : (s.writeCtrl w).ibufSize = s.ibufSize := rfl
@[simp] theorem State.writeCtrl_obufSize (w : Word) : (s.writeCtrl w).obufSize = s.obufSize := rfl
@[simp] theorem State.writeCtrl_ieDone (w : Word) : (s.writeCtrl w).ieDone = w.getLsbD 0 := rfl
@[simp] theorem State.writeCtrl_ieErr (w : Word) : (s.writeCtrl w).ieErr = w.getLsbD 1 := rfl
@[simp] theorem State.writeCtrl_done (w : Word) : (s.writeCtrl w).done = s.done := rfl
@[simp] theorem State.writeCtrl_err (w : Word) : (s.writeCtrl w).err = s.err := rfl
@[simp] theorem State.writeCtrl_pathFound (w : Word) :
    (s.writeCtrl w).pathFound = s.pathFound := rfl
@[simp] theorem State.writeCtrl_hostConflict (w : Word) :
    (s.writeCtrl w).hostConflict = s.hostConflict := rfl
@[simp] theorem State.writeCtrl_cmdDropped (w : Word) :
    (s.writeCtrl w).cmdDropped = s.cmdDropped := rfl
@[simp] theorem State.writeCtrl_cmd (w : Word) : (s.writeCtrl w).cmd = s.cmd := rfl
@[simp] theorem State.writeCtrl_resultOpcode (w : Word) :
    (s.writeCtrl w).resultOpcode = s.resultOpcode := rfl
@[simp] theorem State.writeCtrl_resultCode (w : Word) :
    (s.writeCtrl w).resultCode = s.resultCode := rfl
@[simp] theorem State.writeCtrl_errInfo (w : Word) : (s.writeCtrl w).errInfo = s.errInfo := rfl
@[simp] theorem State.writeCtrl_inLen (w : Word) : (s.writeCtrl w).inLen = s.inLen := rfl
@[simp] theorem State.writeCtrl_inPtr (w : Word) : (s.writeCtrl w).inPtr = s.inPtr := rfl
@[simp] theorem State.writeCtrl_outLen (w : Word) : (s.writeCtrl w).outLen = s.outLen := rfl
@[simp] theorem State.writeCtrl_origLen (w : Word) : (s.writeCtrl w).origLen = s.origLen := rfl
@[simp] theorem State.writeCtrl_bitLen (w : Word) : (s.writeCtrl w).bitLen = s.bitLen := rfl
@[simp] theorem State.writeCtrl_pathLen (w : Word) : (s.writeCtrl w).pathLen = s.pathLen := rfl
@[simp] theorem State.writeCtrl_pathBits (w : Word) : (s.writeCtrl w).pathBits = s.pathBits := rfl
@[simp] theorem State.writeCtrl_freq (w : Word) : (s.writeCtrl w).freq = s.freq := rfl
@[simp] theorem State.writeCtrl_tree (w : Word) : (s.writeCtrl w).tree = s.tree := rfl
@[simp] theorem State.writeCtrl_ibuf (w : Word) : (s.writeCtrl w).ibuf = s.ibuf := rfl
@[simp] theorem State.writeCtrl_obuf (w : Word) : (s.writeCtrl w).obuf = s.obuf := rfl
@[simp] theorem State.writeCtrl_pend (w : Word) : (s.writeCtrl w).pend = s.pend := rfl
@[simp] theorem State.writeCtrl_response (w : Word) : (s.writeCtrl w).response = s.response := rfl
@[simp] theorem State.writeCtrl_draws (w : Word) : (s.writeCtrl w).draws = s.draws := rfl
@[simp] theorem State.writeCtrl_agenda (w : Word) : (s.writeCtrl w).agenda = s.agenda := rfl

end Sys2Proof.Machine
end

