-- ==== Sys2Proof/Laws/Stream.lean ====
section
/-! SUPPORT. The decoder reads back what the encoder's codes say, and what it can answer at all
(43_bitstream.md R276, R279, R282). -/

namespace Sys2Proof.Machine

theorem codeBits_cons (t : HufTree) (v : Byte) (d : List Byte) :
    codeBits t (v :: d) = (t.code? v).getD [] ++ codeBits t d := by
  simp [codeBits]

/-- The bits `k, k+1, …` of a stream are `x`. -/
def bitsAt (bit : Nat → Bool) (k : Nat) (x : List Bool) : Prop :=
  ∀ i, (h : i < x.length) → bit (k + i) = x[i]

theorem bitsAt_cons {bit : Nat → Bool} {k : Nat} {b : Bool} {c : List Bool} :
    bitsAt bit k (b :: c) ↔ bit k = b ∧ bitsAt bit (k + 1) c := by
  constructor
  · intro h
    refine ⟨h 0 (by simp), fun i hi => ?_⟩
    have := h (i + 1) (by simpa using hi)
    rw [show k + (i + 1) = k + 1 + i by omega] at this
    simpa using this
  · rintro ⟨h0, h1⟩ i hi
    cases i with
    | zero => simpa using h0
    | succ i =>
      have := h1 i (by simpa using hi)
      rw [show k + (i + 1) = k + 1 + i by omega]
      simpa using this

theorem bitsAt_append {bit : Nat → Bool} {k : Nat} {c e : List Bool} :
    bitsAt bit k (c ++ e) ↔ bitsAt bit k c ∧ bitsAt bit (k + c.length) e := by
  induction c generalizing k with
  | nil => simp [bitsAt]
  | cons b c ih =>
    rw [List.cons_append, bitsAt_cons, bitsAt_cons, ih, and_assoc, List.length_cons,
      show k + 1 + c.length = k + (c.length + 1) by omega]

/-- A walk along a leaf's code reaches that leaf and consumes exactly the code. -/
theorem walk_code {bit : Nat → Bool} {avail : Nat} {t : HufTree} {v : Byte} {c : Code} {k : Nat}
    (hc : t.code? v = some c) (hb : bitsAt bit k c) (ha : k + c.length ≤ avail) :
    walk bit avail t k = some (v, k + c.length) := by
  induction t generalizing c k with
  | leaf w u =>
    simp only [HufTree.code?] at hc
    split_ifs at hc with huv
    simp only [Option.some.injEq] at hc
    subst hc huv
    rfl
  | node w l r ihl ihr =>
    simp only [HufTree.code?] at hc
    split at hc
    · next p hp =>
      simp only [Option.some.injEq] at hc
      subst hc
      rw [bitsAt_cons] at hb
      simp only [List.length_cons] at ha ⊢
      rw [walk, if_neg (by omega), if_pos hb.1, ihl hp hb.2 (by omega)]
      congr 2; omega
    · simp only [Option.map_eq_some_iff] at hc
      obtain ⟨p, hp, rfl⟩ := hc
      rw [bitsAt_cons] at hb
      simp only [List.length_cons] at ha ⊢
      rw [walk, if_neg (by omega), if_neg (by simp [hb.1]), ihr hp hb.2 (by omega)]
      congr 2; omega

/-- Decoding the code stream of `d` gives `d` and consumes exactly its bits (43_bitstream.md R282). -/
theorem decodeBytes_codeBits {bit : Nat → Bool} {avail : Nat} {t : HufTree} {d : List Byte}
    {k : Nat} (hd : ∀ v ∈ d, v ∈ t.leaves) (hb : bitsAt bit k (codeBits t d))
    (ha : k + (codeBits t d).length ≤ avail) :
    decodeBytes bit avail t d.length k = .ok (d, k + (codeBits t d).length) := by
  induction d generalizing k with
  | nil => rfl
  | cons v d ih =>
    obtain ⟨c, hc⟩ := HufTree.code?_of_mem (hd v (by simp))
    rw [codeBits_cons, hc, Option.getD_some] at hb ha ⊢
    rw [bitsAt_append] at hb
    rw [List.length_append] at ha ⊢
    rw [List.length_cons, decodeBytes, walk_code hc hb.1 (by omega)]
    simp only
    rw [ih (fun u hu => hd u (by simp [hu])) hb.2 (by omega)]
    simp only [Nat.add_assoc]

theorem codeBits_leaf (w : Weight) (v : Byte) (d : List Byte) : codeBits (.leaf w v) d = [] := by
  induction d with
  | nil => rfl
  | cons u d ih =>
    rw [codeBits_cons, ih, HufTree.code?]
    split_ifs <;> rfl

/-- UNPACK's decoder over the code stream of `d` (43_bitstream.md R276, R278, R282). -/
theorem unpackStream_codeBits {bit : Nat → Bool} {avail : Nat} {t : HufTree} {d : List Byte}
    (hd : ∀ v ∈ d, v ∈ t.leaves) (hb : bitsAt bit 0 (codeBits t d))
    (ha : (codeBits t d).length ≤ avail) :
    unpackStream bit avail t d.length = .ok (d, (codeBits t d).length) := by
  cases t with
  | leaf w v =>
    have : d = List.replicate d.length v := by
      rw [List.eq_replicate_iff]
      exact ⟨rfl, fun u hu => by simpa [HufTree.leaves] using hd u hu⟩
    rw [unpackStream, ← this, codeBits_leaf]
    rfl
  | node w l r =>
    have := decodeBytes_codeBits (avail := avail) hd hb (by omega)
    rw [unpackStream, this, Nat.zero_add]

/-- Codes are at most MAX_CODE_LEN bits long (00_scope.md R9). -/
theorem codeBits_length_le {t : HufTree} (hw : t.wf = true) (d : List Byte) :
    (codeBits t d).length ≤ 255 * d.length := by
  induction d with
  | nil => simp [codeBits]
  | cons v d ih =>
    rw [codeBits_cons, List.length_append, List.length_cons]
    have : ((t.code? v).getD []).length ≤ 255 := by
      cases hc : t.code? v with
      | none => simp
      | some x =>
        have := HufTree.code_length_lt hc
        have := HufTree.wf_leaves_le hw
        simp only [Option.getD_some]
        omega
    omega

/-! ### A stream that ends early -/

/-- A walk along a code that the available bits cut off runs out of bits (43_bitstream.md R279). -/
theorem walk_cut {bit : Nat → Bool} {avail : Nat} {t : HufTree} {v : Byte} {x : Code} {k : Nat}
    (hx : t.code? v = some x)
    (hb : ∀ i, (h : i < x.length) → k + i < avail → bit (k + i) = x[i]) (h1 : k ≤ avail)
    (h2 : avail < k + x.length) : walk bit avail t k = none := by
  induction t generalizing x k with
  | leaf w u =>
    simp only [HufTree.code?] at hx
    split_ifs at hx
    simp only [Option.some.injEq] at hx
    subst hx
    simp only [List.length_nil] at h2
    omega
  | node w l r ihl ihr =>
    have tail : ∀ (b : Bool) (y : Code), x = b :: y → ∀ i, (h : i < y.length) →
        k + 1 + i < avail → bit (k + 1 + i) = y[i] := by
      rintro b y rfl i hi ha
      have := hb (i + 1) (by simpa using hi) (by omega)
      rw [show k + (i + 1) = k + 1 + i by omega] at this
      simpa using this
    rw [walk]
    by_cases ha : k ≥ avail
    · rw [if_pos ha]
    · rw [if_neg ha]
      simp only [HufTree.code?] at hx
      split at hx
      · next p hp =>
        simp only [Option.some.injEq] at hx
        have h0 := hb 0 (by rw [← hx]; simp) (by omega)
        simp only [Nat.add_zero, ← hx, List.getElem_cons_zero] at h0
        rw [if_pos h0]
        exact ihl hp (tail true p hx.symm) (by omega) (by rw [← hx, List.length_cons] at h2; omega)
      · simp only [Option.map_eq_some_iff] at hx
        obtain ⟨p, hp, hx⟩ := hx
        have h0 := hb 0 (by rw [← hx]; simp) (by omega)
        simp only [Nat.add_zero, ← hx, List.getElem_cons_zero] at h0
        rw [if_neg (by simp [h0])]
        exact ihr hp (tail false p hx.symm) (by omega) (by rw [← hx, List.length_cons] at h2; omega)

/-- Decoding a code stream that ends inside the code of byte `c` stops after `c` bytes (43_bitstream.md
R276, R279). -/
theorem decodeBytes_cut {bit : Nat → Bool} {avail : Nat} {t : HufTree} {d : List Byte} {k c : Nat}
    (hd : ∀ v ∈ d, v ∈ t.leaves)
    (hb : ∀ i, (h : i < (codeBits t d).length) → k + i < avail →
      bit (k + i) = (codeBits t d)[i])
    (hc : c < d.length) (h1 : k + (codeBits t (d.take c)).length ≤ avail)
    (h2 : avail < k + (codeBits t (d.take (c + 1))).length) :
    decodeBytes bit avail t d.length k = .error c := by
  induction d generalizing k c with
  | nil => simp at hc
  | cons v d ih =>
    obtain ⟨x, hx⟩ := HufTree.code?_of_mem (hd v (by simp))
    have hcb : codeBits t (v :: d) = x ++ codeBits t d := by rw [codeBits_cons, hx]; rfl
    have head : ∀ i, (h : i < x.length) → k + i < avail → bit (k + i) = x[i] := by
      intro i hi ha
      rw [hb i (by rw [hcb, List.length_append]; omega) ha]
      simp only [hcb]
      rw [List.getElem_append_left hi]
    cases c with
    | zero =>
      simp only [List.take_succ_cons, List.take_zero, codeBits_cons, hx, Option.getD_some,
        List.length_append] at h1 h2
      simp only [codeBits, List.flatMap_nil, List.length_nil, Nat.add_zero] at h1 h2
      rw [List.length_cons, decodeBytes, walk_cut hx head h1 h2]
    | succ c =>
      simp only [List.take_succ_cons, codeBits_cons, hx, Option.getD_some,
        List.length_append] at h1 h2
      have hw := walk_code (avail := avail) (bit := bit) hx (k := k)
        (fun i hi => head i hi (by omega)) (by omega)
      have := ih (k := k + x.length) (c := c) (fun u hu => hd u (by simp [hu]))
        (fun i hi ha => by
          have := hb (x.length + i) (by rw [hcb, List.length_append]; omega) (by omega)
          rw [← Nat.add_assoc] at this
          rw [this]
          simp only [hcb]
          rw [List.getElem_append_right (by omega)]
          simp)
        (by simpa using hc) (by omega) (by omega)
      rw [List.length_cons, decodeBytes, hw]
      simp only [this]

/-! ### What the decoder can answer -/

theorem walk_some {bit : Nat → Bool} {avail : Nat} {t : HufTree} {k k' : Nat} {v : Byte}
    (hk : k ≤ avail) (h : walk bit avail t k = some (v, k')) :
    v ∈ t.leaves ∧ k ≤ k' ∧ k' ≤ avail := by
  induction t generalizing k with
  | leaf w u =>
    simp only [walk, Option.some.injEq, Prod.mk.injEq] at h
    obtain ⟨rfl, rfl⟩ := h
    exact ⟨by simp [HufTree.leaves], le_refl _, hk⟩
  | node w l r ihl ihr =>
    simp only [walk] at h
    split_ifs at h with h1 h2
    · obtain ⟨hm, h3, h4⟩ := ihl (by omega) h
      exact ⟨by simp [HufTree.leaves, hm], by omega, h4⟩
    · obtain ⟨hm, h3, h4⟩ := ihr (by omega) h
      exact ⟨by simp [HufTree.leaves, hm], by omega, h4⟩

theorem decodeBytes_ok {bit : Nat → Bool} {avail : Nat} {t : HufTree} {n k k' : Nat}
    {out : List Byte} (hk : k ≤ avail) (h : decodeBytes bit avail t n k = .ok (out, k')) :
    out.length = n ∧ (∀ v ∈ out, v ∈ t.leaves) ∧ k ≤ k' ∧ k' ≤ avail := by
  induction n generalizing k out with
  | zero =>
    simp only [decodeBytes, Except.ok.injEq, Prod.mk.injEq] at h
    obtain ⟨rfl, rfl⟩ := h
    simp [hk]
  | succ n ih =>
    simp only [decodeBytes] at h
    split at h
    · simp at h
    · next v k1 hw =>
      obtain ⟨hm, h1, h2⟩ := walk_some hk hw
      split at h
      · simp at h
      · next out' k2 hd =>
        simp only [Except.ok.injEq, Prod.mk.injEq] at h
        obtain ⟨rfl, rfl⟩ := h
        obtain ⟨hl, hm', h3, h4⟩ := ih h2 hd
        refine ⟨by simp [hl], ?_, by omega, h4⟩
        intro u hu
        rcases List.mem_cons.mp hu with rfl | hu
        · exact hm
        · exact hm' u hu

theorem decodeBytes_error {bit : Nat → Bool} {avail : Nat} {t : HufTree} {n k m : Nat}
    (h : decodeBytes bit avail t n k = .error m) : m < n := by
  induction n generalizing k m with
  | zero => simp [decodeBytes] at h
  | succ n ih =>
    simp only [decodeBytes] at h
    split at h
    · simp only [Except.error.injEq] at h; omega
    · split at h
      · next hd =>
        simp only [Except.error.injEq] at h
        have := ih hd
        omega
      · simp at h

/-- Everything UNPACK's decoder can answer: exactly `n` leaf values, from available bits only, or the
number of bytes decoded before the stream ran out, fewer than `n`. -/
theorem unpackStream_ok {bit : Nat → Bool} {avail : Nat} {t : HufTree} {n k : Nat}
    {out : List Byte} (h : unpackStream bit avail t n = .ok (out, k)) :
    out.length = n ∧ (∀ v ∈ out, v ∈ t.leaves) ∧ k ≤ avail := by
  cases t with
  | leaf w v =>
    simp only [unpackStream, Except.ok.injEq, Prod.mk.injEq] at h
    obtain ⟨rfl, rfl⟩ := h
    refine ⟨by simp, fun u hu => ?_, Nat.zero_le _⟩
    simp [HufTree.leaves, List.eq_of_mem_replicate hu]
  | node w l r =>
    obtain ⟨h1, h2, _, h4⟩ := decodeBytes_ok (Nat.zero_le _) h
    exact ⟨h1, h2, h4⟩

theorem unpackStream_error {bit : Nat → Bool} {avail : Nat} {t : HufTree} {n m : Nat}
    (h : unpackStream bit avail t n = .error m) : m < n := by
  cases t with
  | leaf w v => simp [unpackStream] at h
  | node w l r => exact decodeBytes_error h

end Sys2Proof.Machine
end

