-- ==== Sys2Proof/Laws/TreeCodec.lean ====
section
/-! SUPPORT. The parse of a blob: it reads back what `ser` wrote, and whatever it accepts is what `ser`
writes (42_tree_codec.md R244). -/

namespace Sys2Proof.Machine

/-- A reader finds the bytes `b` from offset `a` on. -/
def readsAt (rd : Nat → Byte) (a : Nat) (b : List Byte) : Prop :=
  ∀ i, (h : i < b.length) → rd (a + i) = b[i]

theorem readsAt_append {rd : Nat → Byte} {a : Nat} {b c : List Byte} :
    readsAt rd a (b ++ c) ↔ readsAt rd a b ∧ readsAt rd (a + b.length) c := by
  constructor
  · intro h
    refine ⟨fun i hi => ?_, fun i hi => ?_⟩
    · rw [h i (by simp; omega), List.getElem_append_left hi]
    · rw [Nat.add_assoc, h (b.length + i) (by simp; omega), List.getElem_append_right (by omega)]
      simp
  · rintro ⟨h1, h2⟩ i hi
    by_cases hb : i < b.length
    · rw [List.getElem_append_left hb, h1 i hb]
    · rw [List.getElem_append_right (by omega), ← h2 (i - b.length) (by simp at hi; omega)]
      congr 1; omega

theorem readBytes_length (rd : Nat → Byte) (a n : Nat) : (readBytes rd a n).length = n := by
  simp [readBytes]

theorem readBytes_eq {rd : Nat → Byte} {a : Nat} {b : List Byte} (h : readsAt rd a b) :
    readBytes rd a b.length = b := by
  apply List.ext_getElem (readBytes_length ..)
  intro i h1 h2
  simp only [readBytes, List.getElem_map, List.getElem_range]
  exact h i h2

theorem readsAt_readBytes (rd : Nat → Byte) (a n : Nat) : readsAt rd a (readBytes rd a n) := by
  intro i h
  simp [readBytes]

theorem readBytes_add (rd : Nat → Byte) (a n m : Nat) :
    readBytes rd a (n + m) = readBytes rd a n ++ readBytes rd (a + n) m := by
  apply List.ext_getElem (by simp [readBytes])
  intro i h1 h2
  simp only [readBytes, List.getElem_map, List.getElem_range] at *
  by_cases hi : i < n
  · rw [List.getElem_append_left (by simpa using hi)]
    simp
  · rw [List.getElem_append_right (by simp; omega)]
    simp only [List.getElem_map, List.getElem_range, List.length_map, List.length_range]
    congr 1; omega

theorem ofBE_read_toBE {rd : Nat → Byte} {a n v : Nat} (h : readsAt rd a (toBE n v))
    (hv : v < 256 ^ n) : ofBE (readBytes rd a n) = v := by
  have := readBytes_eq h
  rw [toBE_length] at this
  rw [this, ofBE_toBE, Nat.mod_eq_of_lt hv]

theorem ofNat_ofBE_read_weight {rd : Nat → Byte} {a : Nat} {w : Weight}
    (h : readsAt rd a (toBE 16 w.toNat)) :
    BitVec.ofNat 128 (ofBE (readBytes rd a 16)) = w := by
  rw [ofBE_read_toBE h (by have := w.isLt; simpa using this)]
  simp

/-- The parse reads back a serialized tree (42_tree_codec.md R244, first direction). -/
theorem parse_ser {rd ahead : Nat → Byte} {t : HufTree} {b : List Byte} {depth s : Nat}
    {st : ParseState} (hb : t.ser = some b) (hr : readsAt rd s b) (ha : readsAt ahead s b)
    (hdep : t.nodes ≤ depth) (hcount : st.count + t.nodes ≤ Config.maxNodes)
    (hnd : t.leaves.Nodup) (hdis : ∀ v ∈ t.leaves, v ∉ st.seen) :
    parse rd ahead depth s (s + b.length) st =
      .ok (t, ⟨st.count + t.nodes, t.leaves.reverse ++ st.seen⟩) := by
  induction t generalizing b depth s st with
  | leaf w v =>
    simp only [HufTree.ser, Option.some.injEq] at hb
    subst hb
    simp only [HufTree.nodes] at hdep hcount
    obtain ⟨depth, rfl⟩ : ∃ n, depth = n + 1 := ⟨depth - 1, by omega⟩
    rw [readsAt_append, readsAt_append] at hr
    obtain ⟨⟨hw, hp⟩, hv⟩ := hr
    simp only [toBE_length, List.length_append] at hp hv
    have hps : ofBE (readBytes rd (s + 16) 2) = 1 := ofBE_read_toBE hp (by norm_num)
    have hval : rd (s + 18) = v := by simpa using hv 0 (by simp)
    have hlen : (toBE 16 w.toNat ++ toBE 2 1 ++ [v]).length = 19 := by simp [toBE_length]
    have hvs : v ∉ st.seen := hdis v (by simp [HufTree.leaves])
    have e1 : s + 19 - s = 19 := by omega
    simp only [parse, hlen, hps, e1, hval, hvs, if_neg (show ¬ (19 : Nat) < 18 by decide),
      ne_eq, if_false, if_true, ofNat_ofBE_read_weight hw, HufTree.nodes, HufTree.leaves]
    simp only [not_true, if_false]
    rw [if_neg (by omega)]
    rfl
  | node w l r ihl ihr =>
    obtain ⟨p, q, hp, hq, hle, rfl⟩ := HufTree.ser_node hb
    simp only [HufTree.nodes] at hdep hcount
    obtain ⟨depth, rfl⟩ : ∃ n, depth = n + 1 := ⟨depth - 1, by omega⟩
    have hpl := HufTree.ser_length hp
    have hql := HufTree.ser_length hq
    have h19 : ∀ t : HufTree, 19 ≤ t.blobLen := by
      intro t
      have := t.blobLen_eq
      have := t.leaves_length_pos
      omega
    have hl19 := h19 l
    have hr19 := h19 r
    have hlen : (toBE 16 w.toNat ++ toBE 2 (p ++ q).length ++ (p ++ q)).length =
        18 + (p ++ q).length := by simp [toBE_length]; omega
    rw [readsAt_append, readsAt_append] at hr ha
    obtain ⟨⟨hrw, hrp⟩, hrc⟩ := hr
    obtain ⟨_, hac⟩ := ha
    simp only [toBE_length, List.length_append] at hrp hrc hac
    rw [← List.length_append] at hrp
    have hps : ofBE (readBytes rd (s + 16) 2) = (p ++ q).length :=
      ofBE_read_toBE hrp (by rw [List.length_append] at *; omega)
    rw [readsAt_append] at hrc hac
    -- the left child's size, read ahead
    have hahead : 18 + ofBE (readBytes ahead (s + 18 + 16) 2) = p.length := by
      have hleft := hac.1
      cases l with
      | leaf lw lv =>
        simp only [HufTree.ser, Option.some.injEq] at hp
        subst hp
        rw [readsAt_append, readsAt_append] at hleft
        have := hleft.1.2
        simp only [toBE_length] at this
        rw [ofBE_read_toBE this (by norm_num)]
        simp [toBE_length]
      | node lw ll lr =>
        obtain ⟨p1, p2, _, _, hle', rfl⟩ := HufTree.ser_node hp
        rw [readsAt_append, readsAt_append] at hleft
        have := hleft.1.2
        simp only [toBE_length] at this
        rw [ofBE_read_toBE this (by omega)]
        simp [toBE_length]
        omega
    simp only [HufTree.leaves, List.nodup_append] at hnd
    have hle' : s + 18 + 18 + ofBE (readBytes ahead (s + 18 + 16) 2) = s + 18 + p.length := by
      omega
    have hleft := ihl (depth := depth) (s := s + 18) (st := ⟨st.count + 1, st.seen⟩) hp hrc.1 hac.1
      (by omega) (by simp only; omega) hnd.1
      (fun v hv => hdis v (by simp [HufTree.leaves, hv]))
    have hright := ihr (depth := depth) (s := s + 18 + p.length)
      (st := ⟨st.count + 1 + l.nodes, l.leaves.reverse ++ st.seen⟩) hq hrc.2 hac.2
      (by omega) (by simp only; omega) hnd.2.1
      (fun v hv => by
        simp only [List.mem_append, List.mem_reverse, not_or]
        exact ⟨fun hl => hnd.2.2 v hl v hv rfl, hdis v (by simp [HufTree.leaves, hv])⟩)
    have hend : s + 18 + p.length + q.length = s + (18 + (p ++ q).length) := by
      rw [List.length_append]; omega
    have hpq : (p ++ q).length = p.length + q.length := List.length_append
    rw [hend] at hright
    simp only [parse, hlen, hps, ofNat_ofBE_read_weight hrw, hle', hleft, hright]
    rw [if_neg (by omega), if_neg (by omega), if_neg (by omega), if_neg (by omega),
      if_neg (by omega), if_neg (by omega)]
    simp only [HufTree.nodes, HufTree.leaves, List.reverse_append, List.append_assoc,
      Except.ok.injEq, Prod.mk.injEq, true_and, ParseState.mk.injEq, and_true]
    omega

/-- What a successful parse says of its result: the leaves are new and distinct, the nodes are counted
and at most 511, and the slice is as long as the tree's blob (42_tree_codec.md R237, R239, R240). -/
theorem parse_ok {rd ahead : Nat → Byte} {depth s e : Nat} {st st' : ParseState} {t : HufTree}
    (h : parse rd ahead depth s e st = .ok (t, st')) :
    e = s + t.blobLen ∧ st'.count = st.count + t.nodes ∧ st'.count ≤ Config.maxNodes ∧
      st'.seen = t.leaves.reverse ++ st.seen ∧ t.leaves.Nodup ∧ ∀ v ∈ t.leaves, v ∉ st.seen := by
  induction depth generalizing s e st st' t with
  | zero => simp [parse] at h
  | succ depth ih =>
    simp only [parse] at h
    split_ifs at h with h1 h2 h3 h4 h5 h6 h7
    · simp only [Except.ok.injEq, Prod.mk.injEq] at h
      obtain ⟨rfl, rfl⟩ := h
      refine ⟨?_, rfl, by simp only; omega, by simp [HufTree.leaves], by simp [HufTree.leaves], ?_⟩
      · simp only [HufTree.blobLen]; omega
      · simpa [HufTree.leaves] using h5
    · split at h
      · simp at h
      · next l st1 hl =>
        split at h
        · simp at h
        · next r st2 hr =>
          simp only [Except.ok.injEq, Prod.mk.injEq] at h
          obtain ⟨rfl, rfl⟩ := h
          obtain ⟨e1, c1, m1, s1, n1, d1⟩ := ih hl
          obtain ⟨e2, c2, m2, s2, n2, d2⟩ := ih hr
          simp only at c1 s1 d1
          refine ⟨?_, ?_, m2, ?_, ?_, ?_⟩
          · simp only [HufTree.blobLen]; omega
          · simp only [HufTree.nodes]; omega
          · simp [s2, s1, HufTree.leaves]
          · simp only [HufTree.leaves, List.nodup_append]
            refine ⟨n1, n2, fun v hv u hu huv => ?_⟩
            subst huv
            exact d2 v hu (by simp [s1, hv])
          · intro v hv
            simp only [HufTree.leaves, List.mem_append] at hv
            rcases hv with hv | hv
            · exact d1 v hv
            · intro hs
              exact d2 v hv (by simp [s1, hs])

theorem parse_ok_wf {rd ahead : Nat → Byte} {depth s e : Nat} {st st' : ParseState} {t : HufTree}
    (h : parse rd ahead depth s e st = .ok (t, st')) : t.wf = true := by
  simpa [HufTree.wf] using (parse_ok h).2.2.2.2.1

/-- A failed parse reports an offset inside the slice, or its start (42_tree_codec.md R236, R237). -/
theorem parse_error {rd ahead : Nat → Byte} {depth s e a : Nat} {st : ParseState}
    (hse : s ≤ e) (h : parse rd ahead depth s e st = .error a) : s ≤ a ∧ a ≤ e := by
  induction depth generalizing s e st a with
  | zero =>
    simp only [parse, Except.error.injEq] at h
    omega
  | succ depth ih =>
    simp only [parse] at h
    split_ifs at h with h1 h2 h3 h4 h5 h6 h7
    all_goals try (simp only [Except.error.injEq] at h; omega)
    split at h
    · next hl =>
      simp only [Except.error.injEq] at h
      have := ih (by omega) hl
      omega
    · next l st1 hl =>
      split at h
      · next hr =>
        simp only [Except.error.injEq] at h
        have := ih (by omega) hr
        omega
      · simp at h

theorem readBytes_congr {rd rd' : Nat → Byte} {a n : Nat}
    (h : ∀ x, a ≤ x → x < a + n → rd x = rd' x) :
    readBytes rd a n = readBytes rd' a n := by
  apply List.ext_getElem (by simp [readBytes])
  intro i h1 h2
  have hi : i < n := by simpa [readBytes] using h1
  simp only [readBytes, List.getElem_map, List.getElem_range]
  exact h _ (by omega) (by omega)

/-- The parse of a slice reads no byte outside it. -/
theorem parse_congr {rd ahead rd' ahead' : Nat → Byte} {depth s e : Nat} {st : ParseState}
    (h : ∀ x, s ≤ x → x < e → rd x = rd' x) (ha : ∀ x, s ≤ x → x < e → ahead x = ahead' x) :
    parse rd ahead depth s e st = parse rd' ahead' depth s e st := by
  induction depth generalizing s e st with
  | zero => rfl
  | succ depth ih =>
    simp only [parse]
    by_cases h18 : e - s < 18
    · rw [if_pos h18, if_pos h18]
    · rw [if_neg h18, if_neg h18, readBytes_congr (rd' := rd') (a := s) (n := 16)
          fun x h1 h2 => h x h1 (by omega),
        readBytes_congr (rd' := rd') (a := s + 16) (n := 2) fun x h1 h2 => h x (by omega) (by omega)]
      by_cases hp : e - s ≠ 18 + ofBE (readBytes rd' (s + 16) 2)
      · rw [if_pos hp, if_pos hp]
      · rw [if_neg hp, if_neg hp]
        by_cases hn : st.count + 1 > Config.maxNodes
        · rw [if_pos hn, if_pos hn]
        · rw [if_neg hn, if_neg hn]
          by_cases h1 : ofBE (readBytes rd' (s + 16) 2) = 1
          · rw [if_pos h1, if_pos h1, h (s + 18) (by omega) (by omega)]
          · rw [if_neg h1, if_neg h1]
            by_cases hl : e - (s + 18) < 18
            · rw [if_pos hl, if_pos hl]
            · rw [if_neg hl, if_neg hl, readBytes_congr (rd := ahead) (rd' := ahead')
                fun x h1 h2 => ha x (by omega) (by omega)]
              split_ifs with hle
              · rfl
              · rw [ih (fun x h1 h2 => h x (by omega) (by omega))
                  fun x h1 h2 => ha x (by omega) (by omega)]
                split
                · rfl
                · rw [ih (fun x h1 h2 => h x (by omega) (by omega))
                    fun x h1 h2 => ha x (by omega) (by omega)]

/-- Whatever the parse accepts is what `ser` writes (42_tree_codec.md R244, second direction). -/
theorem ser_of_parse {rd : Nat → Byte} {depth s e : Nat} {st st' : ParseState} {t : HufTree}
    (h : parse rd rd depth s e st = .ok (t, st')) : t.ser = some (readBytes rd s (e - s)) := by
  induction depth generalizing s e st st' t with
  | zero => simp [parse] at h
  | succ depth ih =>
    have hlen := (parse_ok h).1
    simp only [parse] at h
    split_ifs at h with h1 h2 h3 h4 h5 h6 h7
    · simp only [Except.ok.injEq, Prod.mk.injEq] at h
      obtain ⟨rfl, rfl⟩ := h
      have h19 : e - s = 16 + 2 + 1 := by omega
      rw [h19, readBytes_add, readBytes_add]
      simp only [HufTree.ser, Option.some.injEq]
      have hw : toBE 16 (BitVec.ofNat 128 (ofBE (readBytes rd s 16))).toNat = readBytes rd s 16 := by
        have hlt := ofBE_lt (readBytes rd s 16)
        rw [readBytes_length] at hlt
        rw [BitVec.toNat_ofNat, Nat.mod_eq_of_lt (by norm_num at hlt ⊢; exact hlt)]
        have := toBE_ofBE (readBytes rd s 16)
        rwa [readBytes_length] at this
      have hp : toBE 2 1 = readBytes rd (s + 16) 2 := by
        have := toBE_ofBE (readBytes rd (s + 16) 2)
        rwa [readBytes_length, h4] at this
      rw [hw, hp]
      simp [readBytes]
    · split at h
      · simp at h
      · next l st1 hl =>
        split at h
        · simp at h
        · next r st2 hr =>
          simp only [Except.ok.injEq, Prod.mk.injEq] at h
          obtain ⟨rfl, rfl⟩ := h
          have el := (parse_ok hl).1
          have er := (parse_ok hr).1
          have sl := ih hl
          have sr := ih hr
          set le := s + 18 + 18 + ofBE (readBytes rd (s + 18 + 16) 2) with hle
          have hsplit : e - s = 16 + 2 + ((le - (s + 18)) + (e - le)) := by omega
          have hchild : readBytes rd (s + 18) (le - (s + 18)) ++ readBytes rd le (e - le) =
              readBytes rd (s + 18) ((le - (s + 18)) + (e - le)) := by
            rw [readBytes_add, show s + 18 + (le - (s + 18)) = le by omega]
          have hcl : (readBytes rd (s + 18) (le - (s + 18)) ++ readBytes rd le (e - le)).length =
              ofBE (readBytes rd (s + 16) 2) := by
            simp only [List.length_append, readBytes_length]; omega
          have hps := ofBE_lt (readBytes rd (s + 16) 2)
          rw [readBytes_length] at hps
          simp only [HufTree.ser, sl, sr]
          rw [if_neg (by rw [hcl]; omega), hcl, hchild, hsplit, readBytes_add rd s (16 + 2),
            readBytes_add rd s 16]
          have hw : toBE 16 (BitVec.ofNat 128 (ofBE (readBytes rd s 16))).toNat =
              readBytes rd s 16 := by
            have hlt := ofBE_lt (readBytes rd s 16)
            rw [readBytes_length] at hlt
            rw [BitVec.toNat_ofNat, Nat.mod_eq_of_lt (by norm_num at hlt ⊢; exact hlt)]
            have := toBE_ofBE (readBytes rd s 16)
            rwa [readBytes_length] at this
          have hp : toBE 2 (ofBE (readBytes rd (s + 16) 2)) = readBytes rd (s + 16) 2 := by
            have := toBE_ofBE (readBytes rd (s + 16) 2)
            rwa [readBytes_length] at this
          rw [hw, hp]

/-- Where every byte of the slice reads the same at both readers, an accepted slice is what `ser`
writes. -/
theorem ser_of_parse_agree {rd ahead : Nat → Byte} {depth s e : Nat} {st st' : ParseState}
    {t : HufTree} (ha : ∀ x, s ≤ x → x < e → ahead x = rd x)
    (h : parse rd ahead depth s e st = .ok (t, st')) : t.ser = some (readBytes rd s (e - s)) := by
  rw [parse_congr (rd' := rd) (ahead' := rd) (fun _ _ _ => rfl) ha] at h
  exact ser_of_parse h

theorem toBE_inj {n v v' : Nat} (hv : v < 256 ^ n) (hv' : v' < 256 ^ n) (h : toBE n v = toBE n v') :
    v = v' := by
  have := congrArg ofBE h
  rwa [ofBE_toBE, ofBE_toBE, Nat.mod_eq_of_lt hv, Nat.mod_eq_of_lt hv'] at this

/-- A blob, taken apart: sixteen weight bytes, two size bytes, the payload (30_encoding.md R130). -/
theorem HufTree.ser_parts {t : HufTree} {b : List Byte} (h : t.ser = some b) :
    ∃ p : List Byte, b = toBE 16 t.weight.toNat ++ toBE 2 p.length ++ p ∧ p.length < 65536 ∧
      ((∃ w v, t = .leaf w v ∧ p = [v]) ∨
        ∃ w l r q q', t = .node w l r ∧ l.ser = some q ∧ r.ser = some q' ∧ p = q ++ q' ∧
          38 ≤ p.length) := by
  cases t with
  | leaf w v =>
    simp only [HufTree.ser, Option.some.injEq] at h
    exact ⟨[v], h.symm, by simp, .inl ⟨w, v, rfl, rfl⟩⟩
  | node w l r =>
    obtain ⟨q, q', hq, hq', hle, rfl⟩ := HufTree.ser_node h
    have h1 := HufTree.ser_length hq
    have h2 := HufTree.ser_length hq'
    have h3 := l.blobLen_eq
    have h4 := r.blobLen_eq
    have h5 := l.leaves_length_pos
    have h6 := r.leaves_length_pos
    refine ⟨q ++ q', rfl, by omega, .inr ⟨w, l, r, q, q', rfl, hq, hq', rfl, ?_⟩⟩
    rw [List.length_append]
    omega

/-- No blob is the start of another one, and a blob determines its tree (42_tree_codec.md R244). -/
theorem HufTree.ser_append_inj {t t' : HufTree} {b b' x x' : List Byte} (h : t.ser = some b)
    (h' : t'.ser = some b') (he : b ++ x = b' ++ x') : t = t' ∧ x = x' := by
  induction t generalizing t' b b' x x' with
  | leaf w v =>
    obtain ⟨p, rfl, hp, hc⟩ := HufTree.ser_parts h
    obtain ⟨p', rfl, hp', hc'⟩ := HufTree.ser_parts h'
    simp only [List.append_assoc] at he
    obtain ⟨hw, he⟩ := List.append_inj he (by simp [toBE_length])
    obtain ⟨hs, he⟩ := List.append_inj he (by simp [toBE_length])
    have hs := toBE_inj (by omega) (by omega) hs
    obtain ⟨rfl, rfl⟩ := List.append_inj he hs
    have hw := toBE_inj (by have := (HufTree.leaf w v).weight.isLt; simpa using this)
      (by have := t'.weight.isLt; simpa using this) hw
    have hw := BitVec.eq_of_toNat_eq hw
    rcases hc with ⟨_, _, hl, rfl⟩ | ⟨_, _, _, _, _, hl, _⟩
    · rcases hc' with ⟨w', v', rfl, hv⟩ | ⟨_, _, _, _, _, _, _, _, _, h38⟩
      · simp only [HufTree.leaf.injEq, List.cons.injEq, and_true] at hl hv
        simp only [HufTree.weight] at hw
        exact ⟨by rw [hw, hl.2, hv], rfl⟩
      · simp at h38
    · simp at hl
  | node w l r ihl ihr =>
    obtain ⟨p, rfl, hp, hc⟩ := HufTree.ser_parts h
    obtain ⟨p', rfl, hp', hc'⟩ := HufTree.ser_parts h'
    simp only [List.append_assoc] at he
    obtain ⟨hw, he⟩ := List.append_inj he (by simp [toBE_length])
    obtain ⟨hs, he⟩ := List.append_inj he (by simp [toBE_length])
    have hs := toBE_inj (by omega) (by omega) hs
    obtain ⟨rfl, rfl⟩ := List.append_inj he hs
    have hw := toBE_inj (by have := (HufTree.node w l r).weight.isLt; simpa using this)
      (by have := t'.weight.isLt; simpa using this) hw
    have hw := BitVec.eq_of_toNat_eq hw
    rcases hc with ⟨_, _, hl, _⟩ | ⟨_, _, _, q, q', hl, hq, hq', rfl, h38⟩
    · simp at hl
    · simp only [HufTree.node.injEq] at hl
      obtain ⟨rfl, rfl, rfl⟩ := hl
      rcases hc' with ⟨w', v', rfl, hv⟩ | ⟨w', l', r', s, s', rfl, hs1, hs2, hv, _⟩
      · rw [hv] at h38; simp at h38
      · obtain ⟨rfl, hrest⟩ := ihl hq hs1 hv
        obtain ⟨rfl, _⟩ := ihr (x := []) (x' := []) hq' hs2 (by simpa using hrest)
        simp only [HufTree.weight] at hw
        exact ⟨by rw [hw], rfl⟩

theorem HufTree.ser_inj {t t' : HufTree} {b : List Byte} (h : t.ser = some b)
    (h' : t'.ser = some b) : t = t' :=
  (HufTree.ser_append_inj (x := []) (x' := []) h h' rfl).1

end Sys2Proof.Machine
end

