-- ==== Sys2Proof/Laws/Steps.lean ====
section
/-! SUPPORT. What the steps of the commands can do at all: one inversion law per step, what no step writes,
and that every step keeps the invariant. -/

namespace Sys2Proof.Machine

/-- A step result ends well in a state with `O`, or in an error with `E`. -/
def StepResult.Spec (O : State → Prop) (E : ResultCode → Word → State → Prop) : StepResult → Prop
  | .ok s => O s
  | .err code info s => E code info s

theorem StepResult.Spec.andThen {O O' : State → Prop} {E E' : ResultCode → Word → State → Prop}
    {r : StepResult} {f : State → StepResult} (hr : r.Spec O E)
    (hE : ∀ code info s, E code info s → E' code info s) (hf : ∀ s, O s → (f s).Spec O' E') :
    (r.andThen f).Spec O' E' := by
  cases r with
  | ok s => exact hf s hr
  | err code info s => exact hE code info s hr

theorem StepResult.Spec.imp {O O' : State → Prop} {E E' : ResultCode → Word → State → Prop}
    {r : StepResult} (h : r.Spec O E) (hO : ∀ s, O s → O' s)
    (hE : ∀ code info s, E code info s → E' code info s) : r.Spec O' E' := by
  cases r with
  | ok s => exact hO s h
  | err code info s => exact hE code info s h

/-- `P` holds of the state a step result carries, whether it ended well or in an error. -/
abbrev StepResult.All (P : State → Prop) (r : StepResult) : Prop := r.Spec P fun _ _ s => P s

theorem StepResult.All.andThen {P : State → Prop} {r : StepResult} {f : State → StepResult}
    (hr : r.All P) (hf : ∀ s, P s → (f s).All P) : (r.andThen f).All P :=
  StepResult.Spec.andThen hr (fun _ _ _ h => h) hf

/-! ### One inversion law per step -/

theorem inCheck_spec (s : State) : (inCheck s).Spec (fun s' => s.inRegionOk = true ∧ s' = s)
    (fun code info s' => s.inRegionOk = false ∧ code = .badRegion ∧ info = 0 ∧ s' = s) := by
  unfold inCheck
  split_ifs with h
  · exact ⟨h, rfl⟩
  · exact ⟨by simpa using h, rfl, rfl, rfl⟩

theorem outCheck_spec (s : State) : (outCheck s).Spec (fun s' => s.outRegionOk = true ∧ s' = s)
    (fun code info s' => s.outRegionOk = false ∧ code = .badRegion ∧ info = 1 ∧ s' = s) := by
  unfold outCheck
  split_ifs with h
  · exact ⟨h, rfl⟩
  · exact ⟨by simpa using h, rfl, rfl, rfl⟩

theorem output_spec (b : List Byte) (s : State) : (s.output b).Spec
    (fun s' => s.outLen.toNat + b.length ≤ s.obufSize ∧ s' = s.emit b)
    (fun code info s' => s.obufSize < s.outLen.toNat + b.length ∧ code = .outputOverflow ∧
      info = s.outLen ∧ s' = s) := by
  unfold State.output State.overflows
  split_ifs with h
  · exact ⟨by simpa using h, rfl, rfl, rfl⟩
  · exact ⟨by simpa using h, rfl⟩

theorem countStep_spec (s : State) : (countStep s).Spec
    (fun s' => s.inRegionOk = true ∧ s' =
      { s with
        freq := countBytes (s.region .count)
        origLen := BitVec.ofNat 64 s.regionLen })
    (fun code info s' => s.inRegionOk = false ∧ code = .badRegion ∧ info = 0 ∧ s' = s) :=
  (inCheck_spec s).andThen (fun _ _ _ h => h) fun s' h => by
    obtain ⟨h, rfl⟩ := h
    exact ⟨h, rfl⟩

theorem buildStep_spec (s : State) : (buildStep s).Spec
    (fun s' => ∃ t, buildTree s.freq = some t ∧ s' = { s with tree := some t })
    (fun code info s' => buildTree s.freq = none ∧ code = .emptyInput ∧ info = 0 ∧
      s' = { s with tree := none }) := by
  unfold buildStep
  split
  · next t h => exact ⟨t, h, rfl⟩
  · next h => exact ⟨h, rfl, rfl, rfl⟩

theorem pathStep_spec (v : Byte) (s : State) : (pathStep v s).Spec
    (fun s' => ∃ t, s.tree = some t ∧
      ((∃ c, t.code? v = some c ∧ s' =
        { s with
          pathFound := true
          pathLen := BitVec.ofNat 9 c.length
          pathBits := pathBitsOf c }) ∨
      (t.code? v = none ∧ s' = { s with pathFound := false, pathLen := 0, pathBits := 0 })))
    (fun code info s' => s.tree = none ∧ code = .noTree ∧ info = 0 ∧ s' = s) := by
  unfold pathStep
  split
  · next h => exact ⟨h, rfl, rfl, rfl⟩
  · next t h =>
    split
    · next c hc => exact ⟨t, h, .inl ⟨c, hc, rfl⟩⟩
    · next hc => exact ⟨t, h, .inr ⟨hc, rfl⟩⟩

theorem serializeStep_spec (s : State) : (serializeStep s).Spec
    (fun s' => s.outRegionOk = true ∧ ∃ t b, s.tree = some t ∧ t.ser = some b ∧
      s.outLen.toNat + b.length ≤ s.obufSize ∧ s' = s.emit b)
    (fun code info s' => s' = s ∧
      ((s.outRegionOk = false ∧ code = .badRegion ∧ info = 1) ∨
      (s.outRegionOk = true ∧ s.tree = none ∧ code = .noTree ∧ info = 0) ∨
      (s.outRegionOk = true ∧ ∃ t, s.tree = some t ∧ t.ser = none ∧
        code = .oversizedSubtree ∧ info = 0) ∨
      (s.outRegionOk = true ∧ ∃ t b, s.tree = some t ∧ t.ser = some b ∧
        s.obufSize < s.outLen.toNat + b.length ∧ code = .outputOverflow ∧ info = s.outLen))) := by
  unfold serializeStep
  refine (outCheck_spec s).andThen (fun _ _ _ h => ⟨h.2.2.2, .inl ⟨h.1, h.2.1, h.2.2.1⟩⟩) ?_
  rintro s ⟨h, rfl⟩
  split
  · next ht => exact ⟨rfl, .inr (.inl ⟨h, ht, rfl, rfl⟩)⟩
  · next t ht =>
    split
    · next hb => exact ⟨rfl, .inr (.inr (.inl ⟨h, t, ht, hb, rfl, rfl⟩))⟩
    · next b hb =>
      refine (output_spec b _).imp (fun s' h' => ⟨h, t, b, ht, hb, h'⟩) ?_
      exact fun code info s' h' =>
        ⟨h'.2.2.2, .inr (.inr (.inr ⟨h, t, b, ht, hb, h'.1, h'.2.1, h'.2.2.1⟩))⟩

theorem deserializeStep_spec (exact : Bool) (s : State) : (deserializeStep exact s).Spec
    (fun s' => s.inRegionOk = true ∧ ∃ t st, s.declaredLen ≤ s.regionLen ∧
      (exact = true → s.regionLen = s.declaredLen) ∧
      s.parseBlob s.inPtr.toNat (s.inPtr.toNat + s.declaredLen) = .ok (t, st) ∧
      s' = { s with tree := some t, inPtr := BitVec.ofNat 32 (s.inPtr.toNat + s.declaredLen) })
    (fun code info s' =>
      (s.inRegionOk = false ∧ code = .badRegion ∧ info = 0 ∧ s' = s) ∨
      (s.inRegionOk = true ∧ code = .formatError ∧ s' = { s with tree := none } ∧
        ∃ a, info = BitVec.ofNat 32 a ∧ s.inPtr.toNat ≤ a ∧ a ≤ s.inLen.toNat)) := by
  unfold deserializeStep
  refine (inCheck_spec s).andThen (fun _ _ _ h => .inl h) ?_
  rintro s ⟨h, rfl⟩
  have hle : s.inPtr.toNat ≤ s.inLen.toNat := by
    simp only [State.inRegionOk, Bool.and_eq_true, decide_eq_true_eq] at h; exact h.1
  have hstart : (formatFail s.inPtr.toNat s).Spec (fun _ => False) (fun code info s' =>
      code = .formatError ∧ s' = { s with tree := none } ∧
        ∃ a, info = BitVec.ofNat 32 a ∧ s.inPtr.toNat ≤ a ∧ a ≤ s.inLen.toNat) :=
    ⟨rfl, rfl, _, rfl, le_refl _, hle⟩
  dsimp only
  split_ifs with h1 h2 h3
  · exact hstart.imp (fun _ h => h.elim) fun _ _ _ h' => .inr ⟨h, h'⟩
  · exact hstart.imp (fun _ h => h.elim) fun _ _ _ h' => .inr ⟨h, h'⟩
  · exact hstart.imp (fun _ h => h.elim) fun _ _ _ h' => .inr ⟨h, h'⟩
  · have hL : s.declaredLen ≤ s.regionLen := by
      cases exact
      · simpa using h3
      · simp only [true_and, not_not] at h2; omega
    split
    · next a ha =>
      have hb := parse_error (by omega) ha
      refine .inr ⟨h, rfl, rfl, a, rfl, hb.1, ?_⟩
      unfold State.regionLen at hL
      omega
    · next t st ht =>
      refine ⟨h, t, st, hL, fun he => ?_, ht, rfl⟩
      simpa [he] using h2

theorem wrlenStep_spec (s : State) : (wrlenStep s).Spec
    (fun s' => s.outRegionOk = true ∧ s.outLen.toNat + 8 ≤ s.obufSize ∧
      s' = s.emit (toBE 8 s.origLen.toNat))
    (fun code info s' => s' = s ∧
      ((s.outRegionOk = false ∧ code = .badRegion ∧ info = 1) ∨
      (s.outRegionOk = true ∧ s.obufSize < s.outLen.toNat + 8 ∧ code = .outputOverflow ∧
        info = s.outLen))) := by
  unfold wrlenStep
  refine (outCheck_spec s).andThen (fun _ _ _ h => ⟨h.2.2.2, .inl ⟨h.1, h.2.1, h.2.2.1⟩⟩) ?_
  rintro s ⟨h, rfl⟩
  have := output_spec (toBE 8 s.origLen.toNat) s
  simp only [toBE_length] at this
  exact this.imp (fun s' h' => ⟨h, h'⟩) fun code info s' h' =>
    ⟨h'.2.2.2, .inr ⟨h, h'.1, h'.2.1, h'.2.2.1⟩⟩

theorem rdlenStep_spec (s : State) : (rdlenStep s).Spec
    (fun s' => s.inRegionOk = true ∧ 8 ≤ s.regionLen ∧ s' =
      { s with
        origLen := BitVec.ofNat 64 (ofBE (s.ibufBytes .length s.inPtr.toNat 8))
        inPtr := s.inPtr + 8 })
    (fun code info s' => s' = s ∧
      ((s.inRegionOk = false ∧ code = .badRegion ∧ info = 0) ∨
      (s.inRegionOk = true ∧ s.regionLen < 8 ∧ code = .formatError ∧ info = s.inPtr))) := by
  unfold rdlenStep
  refine (inCheck_spec s).andThen (fun _ _ _ h => ⟨h.2.2.2, .inl ⟨h.1, h.2.1, h.2.2.1⟩⟩) ?_
  rintro s ⟨h, rfl⟩
  split_ifs with h8
  · exact ⟨rfl, .inr ⟨h, h8, rfl, rfl⟩⟩
  · exact ⟨h, by omega, rfl⟩

/-- Both region checks, InCheck first (40_control.md R175). -/
theorem bothChecks_spec (s : State) : ((inCheck s).andThen outCheck).Spec
    (fun s' => s.inRegionOk = true ∧ s.outRegionOk = true ∧ s' = s)
    (fun code info s' => s' = s ∧ code = .badRegion ∧
      ((s.inRegionOk = false ∧ info = 0) ∨
        (s.inRegionOk = true ∧ s.outRegionOk = false ∧ info = 1))) := by
  refine (inCheck_spec s).andThen (fun _ _ _ h => ⟨h.2.2.2, h.2.1, .inl ⟨h.1, h.2.2.1⟩⟩) ?_
  rintro s ⟨h, rfl⟩
  exact (outCheck_spec s).imp (fun _ h' => ⟨h, h'⟩) fun _ _ _ h' =>
    ⟨h'.2.2.2, h'.2.1, .inr ⟨h, h'.1, h'.2.2.1⟩⟩

theorem packStep_spec (s : State) : (packStep s).Spec
    (fun s' => s.inRegionOk = true ∧ s.outRegionOk = true ∧ ∃ t, s.tree = some t ∧
      s.firstWithoutLeaf t = none ∧
      s.outLen.toNat + (packBits (s.codeStream t)).length ≤ s.obufSize ∧
      s' = { s.emit (packBits (s.codeStream t)) with
        bitLen := BitVec.ofNat 64 (s.codeStream t).length })
    (fun code info s' => s' = s ∧
      ((code = .badRegion ∧ ((s.inRegionOk = false ∧ info = 0) ∨
        (s.inRegionOk = true ∧ s.outRegionOk = false ∧ info = 1))) ∨
      (s.inRegionOk = true ∧ s.outRegionOk = true ∧
        ((s.tree = none ∧ code = .noTree ∧ info = 0) ∨
        (∃ t i, s.tree = some t ∧ s.firstWithoutLeaf t = some i ∧ code = .notInTree ∧
          info = s.inPtr + BitVec.ofNat 32 i) ∨
        (∃ t, s.tree = some t ∧ s.firstWithoutLeaf t = none ∧
          s.obufSize < s.outLen.toNat + (packBits (s.codeStream t)).length ∧
          code = .outputOverflow ∧ info = s.outLen))))) := by
  unfold packStep
  refine (bothChecks_spec s).andThen (fun _ _ _ h => ⟨h.1, .inl h.2⟩) ?_
  rintro s ⟨h1, h2, rfl⟩
  split
  · next ht => exact ⟨rfl, .inr ⟨h1, h2, .inl ⟨ht, rfl, rfl⟩⟩⟩
  · next t ht =>
    split
    · next i hi => exact ⟨rfl, .inr ⟨h1, h2, .inr (.inl ⟨t, i, ht, hi, rfl, rfl⟩)⟩⟩
    · next hn =>
      refine (output_spec _ s).andThen (fun _ _ _ h' => ⟨h'.2.2.2, .inr ⟨h1, h2, .inr (.inr
        ⟨t, ht, hn, h'.1, h'.2.1, h'.2.2.1⟩)⟩⟩) ?_
      rintro s' ⟨h3, rfl⟩
      exact ⟨h1, h2, t, ht, hn, h3, rfl⟩

theorem unpackStep_spec (s : State) : (unpackStep s).Spec
    (fun s' => s.inRegionOk = true ∧ s.outRegionOk = true ∧ ∃ t out k, s.tree = some t ∧
      s.outLen.toNat + s.origLen.toNat ≤ s.obufSize ∧
      unpackStream s.regionBit (8 * s.regionLen) t s.origLen.toNat = .ok (out, k) ∧
      s' = { s.emit out with
        inPtr := s.inPtr + BitVec.ofNat 32 (ceil8 k)
        bitLen := BitVec.ofNat 64 k })
    (fun code info s' =>
      (s' = s ∧
        ((code = .badRegion ∧ ((s.inRegionOk = false ∧ info = 0) ∨
          (s.inRegionOk = true ∧ s.outRegionOk = false ∧ info = 1))) ∨
        (s.inRegionOk = true ∧ s.outRegionOk = true ∧
          ((s.tree = none ∧ code = .noTree ∧ info = 0) ∨
          (s.tree.isSome = true ∧ s.obufSize < s.outLen.toNat + s.origLen.toNat ∧
            code = .outputOverflow ∧ info = s.outLen))))) ∨
      (s' = s.forgetOutput ∧ s.inRegionOk = true ∧ s.outRegionOk = true ∧
        ∃ t m, s.tree = some t ∧ s.outLen.toNat + s.origLen.toNat ≤ s.obufSize ∧
          unpackStream s.regionBit (8 * s.regionLen) t s.origLen.toNat = .error m ∧
          code = .truncatedStream ∧ info = BitVec.ofNat 32 m)) := by
  unfold unpackStep
  refine (bothChecks_spec s).andThen (fun _ _ _ h => .inl ⟨h.1, .inl h.2⟩) ?_
  rintro s ⟨h1, h2, rfl⟩
  split
  · next ht => exact .inl ⟨rfl, .inr ⟨h1, h2, .inl ⟨ht, rfl, rfl⟩⟩⟩
  · next t ht =>
    split_ifs with ho
    · simp only [State.overflows, decide_eq_true_eq] at ho
      exact .inl ⟨rfl, .inr ⟨h1, h2, .inr ⟨by simp [ht], ho, rfl, rfl⟩⟩⟩
    · have ho : s.outLen.toNat + s.origLen.toNat ≤ s.obufSize := by
        simpa [State.overflows] using ho
      split
      · next m hm => exact .inr ⟨rfl, h1, h2, t, m, ht, ho, hm, rfl, rfl⟩
      · next out k hk => exact ⟨h1, h2, t, out, k, ht, ho, hk, rfl⟩

/-! ### What no step of a command writes -/

/-- The state no command writes before its completion: the parameters, CTRL, the W1C bits, CMD, RESULT,
ERR_INFO, IBUF, PEND and the model's own fields (10_state.md R24, R26). -/
structure SameHostState (s s' : State) : Prop where
  ibufSize : s'.ibufSize = s.ibufSize
  obufSize : s'.obufSize = s.obufSize
  ieDone : s'.ieDone = s.ieDone
  ieErr : s'.ieErr = s.ieErr
  done : s'.done = s.done
  err : s'.err = s.err
  hostConflict : s'.hostConflict = s.hostConflict
  cmdDropped : s'.cmdDropped = s.cmdDropped
  cmd : s'.cmd = s.cmd
  resultOpcode : s'.resultOpcode = s.resultOpcode
  resultCode : s'.resultCode = s.resultCode
  errInfo : s'.errInfo = s.errInfo
  ibuf : s'.ibuf = s.ibuf
  pend : s'.pend = s.pend
  response : s'.response = s.response
  draws : s'.draws = s.draws
  agenda : s'.agenda = s.agenda

theorem SameHostState.refl (s : State) : SameHostState s s := by constructor <;> rfl

theorem SameHostState.trans {a b c : State} (h1 : SameHostState a b) (h2 : SameHostState b c) :
    SameHostState a c := by
  cases h1; cases h2
  constructor <;> simp only [*]

theorem emit_same (b : List Byte) (s : State) : SameHostState s (s.emit b) := by
  constructor <;> rfl

theorem forgetOutput_same (s : State) : SameHostState s s.forgetOutput := by
  constructor <;> rfl

theorem countStep_same (s : State) : (countStep s).All (SameHostState s) :=
  (countStep_spec s).imp (by rintro _ ⟨_, rfl⟩; constructor <;> rfl)
    (by rintro _ _ _ ⟨_, _, _, rfl⟩; exact .refl _)

theorem buildStep_same (s : State) : (buildStep s).All (SameHostState s) :=
  (buildStep_spec s).imp (by rintro _ ⟨_, _, rfl⟩; constructor <;> rfl)
    (by rintro _ _ _ ⟨_, _, _, rfl⟩; constructor <;> rfl)

theorem pathStep_same (v : Byte) (s : State) : (pathStep v s).All (SameHostState s) :=
  (pathStep_spec v s).imp
    (by rintro _ ⟨_, _, ⟨_, _, rfl⟩ | ⟨_, rfl⟩⟩ <;> constructor <;> rfl)
    (by rintro _ _ _ ⟨_, _, _, rfl⟩; exact .refl _)

theorem serializeStep_same (s : State) : (serializeStep s).All (SameHostState s) :=
  (serializeStep_spec s).imp (by rintro _ ⟨_, _, _, _, _, _, rfl⟩; exact emit_same _ _)
    (by rintro _ _ _ ⟨rfl, _⟩; exact .refl _)

theorem deserializeStep_same (exact : Bool) (s : State) :
    (deserializeStep exact s).All (SameHostState s) :=
  (deserializeStep_spec exact s).imp
    (by rintro _ ⟨_, _, _, _, _, _, rfl⟩; constructor <;> rfl)
    (by rintro _ _ _ (⟨_, _, _, rfl⟩ | ⟨_, _, rfl, _⟩) <;> constructor <;> rfl)

theorem wrlenStep_same (s : State) : (wrlenStep s).All (SameHostState s) :=
  (wrlenStep_spec s).imp (by rintro _ ⟨_, _, rfl⟩; exact emit_same _ _)
    (by rintro _ _ _ ⟨rfl, _⟩; exact .refl _)

theorem rdlenStep_same (s : State) : (rdlenStep s).All (SameHostState s) :=
  (rdlenStep_spec s).imp (by rintro _ ⟨_, _, rfl⟩; constructor <;> rfl)
    (by rintro _ _ _ ⟨rfl, _⟩; exact .refl _)

theorem packStep_same (s : State) : (packStep s).All (SameHostState s) :=
  (packStep_spec s).imp (by rintro _ ⟨_, _, _, _, _, _, rfl⟩; constructor <;> rfl)
    (by rintro _ _ _ ⟨rfl, _⟩; exact .refl _)

theorem unpackStep_same (s : State) : (unpackStep s).All (SameHostState s) :=
  (unpackStep_spec s).imp
    (by rintro _ ⟨_, _, _, _, _, _, _, _, rfl⟩; constructor <;> rfl)
    (by
      rintro _ _ _ (⟨rfl, _⟩ | ⟨rfl, _⟩)
      · exact .refl _
      · exact forgetOutput_same _)

/-- A step that writes no host state, after another. -/
theorem SameHostState.andThen {s : State} {r : StepResult} {f : State → StepResult}
    (hr : r.All (SameHostState s)) (hf : ∀ s, (f s).All (SameHostState s)) :
    (r.andThen f).All (SameHostState s) :=
  hr.andThen fun t ht => (hf t).imp (fun _ h => ht.trans h) fun _ _ _ h => ht.trans h

theorem SameHostState.forgetOnError {s : State} {r : StepResult}
    (hr : r.All (SameHostState s)) : r.forgetOnError.All (SameHostState s) := by
  cases r with
  | ok t => exact hr
  | err code info t => exact SameHostState.trans hr (forgetOutput_same t)

theorem compressSteps_same (s : State) : (compressSteps s).All (SameHostState s) :=
  SameHostState.forgetOnError <| SameHostState.andThen (SameHostState.andThen (SameHostState.andThen
    (SameHostState.andThen (countStep_same s) buildStep_same) serializeStep_same) wrlenStep_same)
    packStep_same

theorem decompressSteps_same (s : State) : (decompressSteps s).All (SameHostState s) :=
  SameHostState.forgetOnError <| SameHostState.andThen
    (SameHostState.andThen (deserializeStep_same false s) rdlenStep_same) unpackStep_same

end Sys2Proof.Machine
end

