-- ==== Sys2Proof/Laws/Invariant.lean ====
section
/-! SUPPORT. The part of the invariant that does not speak of PEND, and that every step of a command keeps
it. -/

namespace Sys2Proof.Machine

/-- The invariant without its clause on PEND: it also holds between the steps of a composite command,
where the cursors have moved on. -/
structure State.Settled (s : State) : Prop where
  params : s.paramsOk = true
  buffers : s.buffersOk = true
  tree : s.treeOk = true
  freq : s.freqOk = true
  path : s.pathOk = true

theorem State.Inv.settled {s : State} (h : s.Inv) : s.Settled :=
  ⟨h.params, h.buffers, h.tree, h.freq, h.path⟩

theorem State.Settled.inv {s : State} (h : s.Settled) (hp : s.pendOk = true) : s.Inv :=
  ⟨h.params, h.buffers, h.tree, h.freq, hp, h.path⟩

/-- The clauses of the invariant read these fields only. -/
theorem State.Settled.of_eq {s s' : State} (h : s.Settled) (h1 : s'.ibufSize = s.ibufSize)
    (h2 : s'.obufSize = s.obufSize) (h3 : s'.ibuf = s.ibuf) (h4 : s'.obuf = s.obuf)
    (h5 : s'.tree = s.tree) (h6 : s'.freq = s.freq) (h7 : s'.pathFound = s.pathFound)
    (h8 : s'.pathLen = s.pathLen) (h9 : s'.pathBits = s.pathBits) : s'.Settled := by
  constructor
  · simpa [State.paramsOk, h1, h2] using h.params
  · simpa [State.buffersOk, h1, h2, h3, h4] using h.buffers
  · simpa [State.treeOk, h5] using h.tree
  · simpa [State.freqOk, h1, h6] using h.freq
  · simpa [State.pathOk, h7, h8, h9] using h.path

theorem State.paramsOk_iff {s : State} : s.paramsOk = true ↔
    1 ≤ s.ibufSize ∧ s.ibufSize ≤ 2 ^ 30 ∧ 1 ≤ s.obufSize ∧ s.obufSize ≤ 2 ^ 30 := by
  simp only [State.paramsOk, Bool.and_eq_true, decide_eq_true_eq, and_assoc]
  exact Iff.rfl

theorem State.buffersOk_iff {s : State} : s.buffersOk = true ↔
    s.ibuf.wf = true ∧ s.ibuf.within s.ibufSize = true ∧ s.obuf.wf = true ∧
      s.obuf.within s.obufSize = true := by
  simp [State.buffersOk, and_assoc]

theorem State.inRegionOk_iff {s : State} : s.inRegionOk = true ↔
    s.inPtr.toNat ≤ s.inLen.toNat ∧ s.inLen.toNat ≤ s.ibufSize := by
  simp [State.inRegionOk]

theorem State.outRegionOk_iff {s : State} : s.outRegionOk = true ↔
    s.outLen.toNat ≤ s.obufSize := by
  simp [State.outRegionOk]

theorem State.Settled.withTree {s : State} (h : s.Settled) {o : Option HufTree}
    (ho : ∀ t, o = some t → t.wf = true) : { s with tree := o }.Settled := by
  refine ⟨h.params, h.buffers, ?_, h.freq, h.path⟩
  cases o with
  | none => rfl
  | some t => exact ho t rfl

theorem State.Settled.withOutput {s : State} (h : s.Settled) {m : Memory} (h1 : m.wf = true)
    (h2 : m.within s.obufSize = true) : { s with obuf := m }.Settled := by
  have hb := State.buffersOk_iff.mp h.buffers
  exact ⟨h.params, State.buffersOk_iff.mpr ⟨hb.1, hb.2.1, h1, h2⟩, h.tree, h.freq, h.path⟩

theorem State.Settled.emit {s : State} (h : s.Settled) {b : List Byte}
    (hb : s.outLen.toNat + b.length ≤ s.obufSize) : (s.emit b).Settled := by
  have hm := State.buffersOk_iff.mp h.buffers
  exact (h.withOutput (m := s.obuf.writeBytes s.outLen.toNat b) (Memory.wf_writeBytes _ _ hm.2.2.1)
    (Memory.within_writeBytes _ _ hb hm.2.2.2)).of_eq rfl rfl rfl rfl rfl rfl rfl rfl rfl

theorem State.Settled.forgetOutput {s : State} (h : s.Settled) : s.forgetOutput.Settled := by
  have hm := State.buffersOk_iff.mp h.buffers
  exact h.withOutput (Memory.wf_forgetFrom _ hm.2.2.1) (Memory.within_forgetFrom _ hm.2.2.2)

theorem State.region_length (s : State) (site : Site) : (s.region site).length = s.regionLen := by
  simp [State.region, State.ibufBytes]

theorem State.tree_wf {s : State} {t : HufTree} (h : s.Settled) (ht : s.tree = some t) :
    t.wf = true := by
  have := h.tree
  rw [State.treeOk, ht] at this
  exact this

theorem pathBitsOf_getLsbD (x : Code) (hx : x.length ≤ 256) (i : Nat) :
    (pathBitsOf x).getLsbD i = x.getD i false := by
  rw [pathBitsOf, BitVec.getLsbD_setWidth, BitVec.getLsbD_ofBoolListLE]
  by_cases h : i < 256
  · simp [h]
  · have hn : x[i]? = none := List.getElem?_eq_none (by omega)
    simp [h, hn]

theorem pathBitsOf_shift (x : Code) (hx : x.length ≤ 256) :
    pathBitsOf x >>> x.length = 0 := by
  apply BitVec.eq_of_getLsbD_eq
  intro i hi
  rw [BitVec.getLsbD_ushiftRight, pathBitsOf_getLsbD x hx]
  simp

/-! ### Every step keeps it -/

theorem countStep_settled {s : State} (h : s.Settled) : (countStep s).All State.Settled :=
  (countStep_spec s).imp
    (by
      rintro _ ⟨hr, rfl⟩
      have hr := State.inRegionOk_iff.mp hr
      have hp := State.paramsOk_iff.mp h.params
      have hl : (s.region .count).length ≤ s.ibufSize := by
        rw [State.region_length, State.regionLen]; omega
      refine ⟨h.params, h.buffers, h.tree, ?_, h.path⟩
      have ht := countBytes_total (d := s.region .count) (by omega)
      simp only [State.freqOk, ht, decide_eq_true_eq]
      exact hl)
    (by rintro _ _ _ ⟨_, _, _, rfl⟩; exact h)

theorem buildStep_settled {s : State} (h : s.Settled) : (buildStep s).All State.Settled :=
  (buildStep_spec s).imp
    (by
      rintro _ ⟨t, ht, rfl⟩
      exact h.withTree fun t' h' => by
        simp only [Option.some.injEq] at h'
        exact h' ▸ buildTree_wf ht)
    (by rintro _ _ _ ⟨_, _, _, rfl⟩; exact h.withTree fun _ h' => by simp at h')

theorem pathStep_settled {s : State} (v : Byte) (h : s.Settled) :
    (pathStep v s).All State.Settled :=
  (pathStep_spec v s).imp
    (by
      rintro _ ⟨t, ht, ⟨x, hx, rfl⟩ | ⟨_, rfl⟩⟩
      · have hw := HufTree.wf_leaves_le (State.tree_wf h ht)
        have hlt := HufTree.code_length_lt hx
        refine ⟨h.params, h.buffers, h.tree, h.freq, ?_⟩
        have hn : (BitVec.ofNat 9 x.length).toNat = x.length := by
          rw [BitVec.toNat_ofNat]; omega
        simp only [State.pathOk, hn, pathBitsOf_shift x (by omega), Config.maxCodeLen]
        simp
        omega
      · exact ⟨h.params, h.buffers, h.tree, h.freq, by simp [State.pathOk]⟩)
    (by rintro _ _ _ ⟨_, _, _, rfl⟩; exact h)

theorem serializeStep_settled {s : State} (h : s.Settled) : (serializeStep s).All State.Settled :=
  (serializeStep_spec s).imp (by rintro _ ⟨_, _, _, _, _, hb, rfl⟩; exact h.emit hb)
    (by rintro _ _ _ ⟨rfl, _⟩; exact h)

theorem deserializeStep_settled {s : State} (exact : Bool) (h : s.Settled) :
    (deserializeStep exact s).All State.Settled :=
  (deserializeStep_spec exact s).imp
    (by
      rintro _ ⟨_, t, st, _, _, ht, rfl⟩
      exact (h.withTree (o := some t) fun t' h' => by
        simp only [Option.some.injEq] at h'
        exact h' ▸ parse_ok_wf ht).of_eq rfl rfl rfl rfl rfl rfl rfl rfl rfl)
    (by
      rintro _ _ _ (⟨_, _, _, rfl⟩ | ⟨_, _, rfl, _⟩)
      · exact h
      · exact h.withTree fun _ h' => by simp at h')

theorem wrlenStep_settled {s : State} (h : s.Settled) : (wrlenStep s).All State.Settled :=
  (wrlenStep_spec s).imp
    (by rintro _ ⟨_, hb, rfl⟩; exact h.emit (by rw [toBE_length]; exact hb))
    (by rintro _ _ _ ⟨rfl, _⟩; exact h)

theorem rdlenStep_settled {s : State} (h : s.Settled) : (rdlenStep s).All State.Settled :=
  (rdlenStep_spec s).imp
    (by rintro _ ⟨_, _, rfl⟩; exact h.of_eq rfl rfl rfl rfl rfl rfl rfl rfl rfl)
    (by rintro _ _ _ ⟨rfl, _⟩; exact h)

theorem packStep_settled {s : State} (h : s.Settled) : (packStep s).All State.Settled :=
  (packStep_spec s).imp
    (by
      rintro _ ⟨_, _, t, _, _, hb, rfl⟩
      exact (h.emit hb).of_eq rfl rfl rfl rfl rfl rfl rfl rfl rfl)
    (by rintro _ _ _ ⟨rfl, _⟩; exact h)

theorem unpackStep_settled {s : State} (h : s.Settled) : (unpackStep s).All State.Settled :=
  (unpackStep_spec s).imp
    (by
      rintro _ ⟨_, _, t, out, k, _, hb, hk, rfl⟩
      have hl := (unpackStream_ok hk).1
      exact (h.emit (b := out) (by omega)).of_eq rfl rfl rfl rfl rfl rfl rfl rfl rfl)
    (by
      rintro _ _ _ (⟨rfl, _⟩ | ⟨rfl, _⟩)
      · exact h
      · exact h.forgetOutput)

theorem State.Settled.forgetOnError {r : StepResult} (h : r.All State.Settled) :
    r.forgetOnError.All State.Settled := by
  cases r with
  | ok s => exact h
  | err code info s => exact State.Settled.forgetOutput h

theorem compressSteps_settled {s : State} (h : s.Settled) : (compressSteps s).All State.Settled :=
  State.Settled.forgetOnError <| ((((countStep_settled h).andThen fun _ => buildStep_settled).andThen
    fun _ => serializeStep_settled).andThen fun _ => wrlenStep_settled).andThen
    fun _ => packStep_settled

theorem decompressSteps_settled {s : State} (h : s.Settled) :
    (decompressSteps s).All State.Settled :=
  State.Settled.forgetOnError <| ((deserializeStep_settled false h).andThen
    fun _ => rdlenStep_settled).andThen fun _ => unpackStep_settled

end Sys2Proof.Machine
end

