-- ==== Sys2Proof/Laws/Completion.lean ====
section
/-! SUPPORT. Every command ends in one completion: `exec` is a body followed by `finish`, and the two ways a
body ends are the two completions written out in Safety.lean (60_exceptions.md R320 to R325). -/

namespace Sys2Proof.Machine

theorem State.accepted_of_pend {s : State} {p : Pending} (h : s.pend = some p) :
    s.accepted = p := by
  simp [State.accepted, h]

theorem State.complete_eq {s : State} {p : Pending} (h : s.pend = some p) :
    s.complete = s.finished p := by
  simp [State.complete, State.commonCompletion, State.finished, State.accepted_of_pend h]

theorem State.abort_eq {s : State} {p : Pending} (h : s.pend = some p) (code : ResultCode)
    (info : Word) : s.abort code info = s.aborted p code info := by
  simp [State.abort, State.commonCompletion, State.aborted, State.accepted_of_pend h]

theorem finish_ok {r : StepResult} {s : State} {p : Pending} (h : s.pend = some p)
    (hr : r = .ok s) : r.finish = .next (s.finished p) := by
  subst hr
  rw [StepResult.finish, State.complete_eq h]

theorem finish_err {r : StepResult} {s : State} {p : Pending} {code : ResultCode} {info : Word}
    (h : s.pend = some p) (hr : r = .err code info s) :
    r.finish = .next (s.aborted p code info) := by
  subst hr
  rw [StepResult.finish, State.abort_eq h]

theorem andThen_ok {r : StepResult} {f : State → StepResult} {s : State} (h : r = .ok s) :
    r.andThen f = f s := by
  rw [h, StepResult.andThen]

theorem andThen_err {r : StepResult} {f : State → StepResult} {code : ResultCode} {info : Word}
    {s : State} (h : r = .err code info s) : r.andThen f = .err code info s := by
  rw [h, StepResult.andThen]

theorem inCheck_ok {s : State} (h : s.inRegionOk = true) : inCheck s = .ok s := by
  rw [inCheck, if_pos h]

theorem inCheck_err {s : State} (h : s.inRegionOk = false) :
    inCheck s = .err .badRegion 0 s := by
  rw [inCheck, if_neg (by simp [h])]

theorem outCheck_ok {s : State} (h : s.outRegionOk = true) : outCheck s = .ok s := by
  rw [outCheck, if_pos h]

theorem outCheck_err {s : State} (h : s.outRegionOk = false) :
    outCheck s = .err .badRegion 1 s := by
  rw [outCheck, if_neg (by simp [h])]

theorem output_ok {s : State} {b : List Byte} (h : s.outLen.toNat + b.length ≤ s.obufSize) :
    s.output b = .ok (s.emit b) := by
  rw [State.output, if_neg (by simp [State.overflows, h])]

theorem output_err {s : State} {b : List Byte} (h : s.obufSize < s.outLen.toNat + b.length) :
    s.output b = .err .outputOverflow s.outLen s := by
  rw [State.output, if_pos (by simp [State.overflows, h])]

/-- COMPRESS before its completion. -/
def compressBody (s : State) : StepResult :=
  (((inCheck s).andThen outCheck).andThen emptyRegionCheck).andThen compressSteps

/-- DECOMPRESS before its completion. -/
def decompressBody (s : State) : StepResult :=
  ((inCheck s).andThen outCheck).andThen decompressSteps

/-- The body of each command. -/
def bodyOf : Instr → State → StepResult
  | .nop => .ok
  | .clear => fun s => .ok (clearState s)
  | .count => countStep
  | .build => buildStep
  | .path v => pathStep v
  | .serialize => serializeStep
  | .deserialize e => deserializeStep e
  | .wrlen => wrlenStep
  | .rdlen => rdlenStep
  | .pack => packStep
  | .unpack => unpackStep
  | .compress => compressBody
  | .decompress => decompressBody

theorem exec_eq (i : Instr) (s : State) : exec i s = (bodyOf i s).finish := by
  cases i <;> rfl

/-- `exec` never faults and never refuses: `finish` always answers a next state. -/
theorem exec_isNext (i : Instr) (s : State) : ∃ s', exec i s = .next s' := by
  rw [exec_eq]
  cases bodyOf i s <;> exact ⟨_, rfl⟩

theorem emptyRegionCheck_spec (s : State) : (emptyRegionCheck s).Spec
    (fun s' => s.inPtr ≠ s.inLen ∧ s' = s)
    (fun code info s' => s' = s ∧ s.inPtr = s.inLen ∧ code = .emptyInput ∧ info = 0) := by
  unfold emptyRegionCheck
  split_ifs with h
  · exact ⟨rfl, h, rfl, rfl⟩
  · exact ⟨h, rfl⟩

/-! ### No error has the code OK -/

/-- `raise` never names the code OK. -/
abbrev StepResult.Coded (r : StepResult) : Prop :=
  r.Spec (fun _ => True) fun code _ _ => code ≠ .ok

theorem StepResult.Coded.andThen {r : StepResult} {f : State → StepResult} (hr : r.Coded)
    (hf : ∀ s, (f s).Coded) : (r.andThen f).Coded :=
  StepResult.Spec.andThen hr (fun _ _ _ h => h) fun s _ => hf s

theorem StepResult.Coded.forgetOnError {r : StepResult} (h : r.Coded) : r.forgetOnError.Coded := by
  cases r with
  | ok s => trivial
  | err code info s => exact h

theorem inCheck_coded (s : State) : (inCheck s).Coded :=
  (inCheck_spec s).imp (fun _ _ => trivial) (by rintro _ _ _ ⟨_, rfl, _⟩; simp)

theorem outCheck_coded (s : State) : (outCheck s).Coded :=
  (outCheck_spec s).imp (fun _ _ => trivial) (by rintro _ _ _ ⟨_, rfl, _⟩; simp)

theorem emptyRegionCheck_coded (s : State) : (emptyRegionCheck s).Coded :=
  (emptyRegionCheck_spec s).imp (fun _ _ => trivial) (by rintro _ _ _ ⟨_, _, rfl, _⟩; simp)

theorem countStep_coded (s : State) : (countStep s).Coded :=
  (countStep_spec s).imp (fun _ _ => trivial) (by rintro _ _ _ ⟨_, rfl, _⟩; simp)

theorem buildStep_coded (s : State) : (buildStep s).Coded :=
  (buildStep_spec s).imp (fun _ _ => trivial) (by rintro _ _ _ ⟨_, rfl, _⟩; simp)

theorem pathStep_coded (v : Byte) (s : State) : (pathStep v s).Coded :=
  (pathStep_spec v s).imp (fun _ _ => trivial) (by rintro _ _ _ ⟨_, rfl, _⟩; simp)

theorem serializeStep_coded (s : State) : (serializeStep s).Coded :=
  (serializeStep_spec s).imp (fun _ _ => trivial) (by
    rintro _ _ _ ⟨_, ⟨_, rfl, _⟩ | ⟨_, _, rfl, _⟩ | ⟨_, _, _, _, rfl, _⟩ |
      ⟨_, _, _, _, _, _, rfl, _⟩⟩ <;> simp)

theorem deserializeStep_coded (e : Bool) (s : State) : (deserializeStep e s).Coded :=
  (deserializeStep_spec e s).imp (fun _ _ => trivial) (by
    rintro _ _ _ (⟨_, rfl, _⟩ | ⟨_, rfl, _⟩) <;> simp)

theorem wrlenStep_coded (s : State) : (wrlenStep s).Coded :=
  (wrlenStep_spec s).imp (fun _ _ => trivial) (by
    rintro _ _ _ ⟨_, ⟨_, rfl, _⟩ | ⟨_, _, rfl, _⟩⟩ <;> simp)

theorem rdlenStep_coded (s : State) : (rdlenStep s).Coded :=
  (rdlenStep_spec s).imp (fun _ _ => trivial) (by
    rintro _ _ _ ⟨_, ⟨_, rfl, _⟩ | ⟨_, _, rfl, _⟩⟩ <;> simp)

theorem packStep_coded (s : State) : (packStep s).Coded :=
  (packStep_spec s).imp (fun _ _ => trivial) (by
    rintro _ _ _ ⟨_, ⟨rfl, _⟩ | ⟨_, _, ⟨_, rfl, _⟩ | ⟨_, _, _, _, rfl, _⟩ |
      ⟨_, _, _, _, rfl, _⟩⟩⟩ <;> simp)

theorem unpackStep_coded (s : State) : (unpackStep s).Coded :=
  (unpackStep_spec s).imp (fun _ _ => trivial) (by
    rintro _ _ _ (⟨_, ⟨rfl, _⟩ | ⟨_, _, ⟨_, rfl, _⟩ | ⟨_, _, rfl, _⟩⟩⟩ |
      ⟨_, _, _, _, _, _, _, _, rfl, _⟩) <;> simp)

theorem bodyOf_coded (i : Instr) (s : State) : (bodyOf i s).Coded := by
  cases i with
  | nop => trivial
  | clear => trivial
  | count => exact countStep_coded s
  | build => exact buildStep_coded s
  | path v => exact pathStep_coded v s
  | serialize => exact serializeStep_coded s
  | deserialize e => exact deserializeStep_coded e s
  | wrlen => exact wrlenStep_coded s
  | rdlen => exact rdlenStep_coded s
  | pack => exact packStep_coded s
  | unpack => exact unpackStep_coded s
  | compress =>
    exact StepResult.Coded.andThen (((inCheck_coded s).andThen outCheck_coded).andThen
      emptyRegionCheck_coded) fun s => StepResult.Coded.forgetOnError
        (StepResult.Coded.andThen (StepResult.Coded.andThen (StepResult.Coded.andThen
          (StepResult.Coded.andThen (countStep_coded s) buildStep_coded) serializeStep_coded)
          wrlenStep_coded) packStep_coded)
  | decompress =>
    exact StepResult.Coded.andThen ((inCheck_coded s).andThen outCheck_coded) fun s =>
      StepResult.Coded.forgetOnError (StepResult.Coded.andThen (StepResult.Coded.andThen
        (deserializeStep_coded false s) rdlenStep_coded) unpackStep_coded)

/-! ### What no body writes -/

theorem bodyOf_same (i : Instr) (s : State) : (bodyOf i s).All (SameHostState s) := by
  have hin : ∀ s, (inCheck s).All (SameHostState s) := fun s =>
    (inCheck_spec s).imp (by rintro s' ⟨_, rfl⟩; exact .refl _)
      (by rintro _ _ s' ⟨_, _, _, rfl⟩; exact .refl _)
  have hout : ∀ s, (outCheck s).All (SameHostState s) := fun s =>
    (outCheck_spec s).imp (by rintro s' ⟨_, rfl⟩; exact .refl _)
      (by rintro _ _ s' ⟨_, _, _, rfl⟩; exact .refl _)
  have hempty : ∀ s, (emptyRegionCheck s).All (SameHostState s) := fun s =>
    (emptyRegionCheck_spec s).imp (by rintro s' ⟨_, rfl⟩; exact .refl _)
      (by rintro _ _ s' ⟨rfl, _⟩; exact .refl _)
  cases i with
  | nop => exact SameHostState.refl s
  | clear => exact ⟨rfl, rfl, rfl, rfl, rfl, rfl, rfl, rfl, rfl, rfl, rfl, rfl, rfl, rfl, rfl, rfl, rfl⟩
  | count => exact countStep_same s
  | build => exact buildStep_same s
  | path v => exact pathStep_same v s
  | serialize => exact serializeStep_same s
  | deserialize e => exact deserializeStep_same e s
  | wrlen => exact wrlenStep_same s
  | rdlen => exact rdlenStep_same s
  | pack => exact packStep_same s
  | unpack => exact unpackStep_same s
  | compress =>
    exact SameHostState.andThen (SameHostState.andThen (SameHostState.andThen (hin s) hout) hempty)
      compressSteps_same
  | decompress =>
    exact SameHostState.andThen (SameHostState.andThen (hin s) hout) decompressSteps_same

/-- What `exec` answers: the body's state, completed or aborted. -/
theorem exec_next {i : Instr} {s s' : State} {p : Pending} (hp : s.pend = some p)
    (h : exec i s = .next s') :
    (∃ u, bodyOf i s = .ok u ∧ SameHostState s u ∧ s' = u.finished p) ∨
    ∃ code info u, bodyOf i s = .err code info u ∧ code ≠ .ok ∧ SameHostState s u ∧
      s' = u.aborted p code info := by
  rw [exec_eq] at h
  have hsame := bodyOf_same i s
  have hcode := bodyOf_coded i s
  cases hb : bodyOf i s with
  | ok u =>
    rw [hb] at h hsame
    have hsame : SameHostState s u := hsame
    rw [finish_ok (hsame.pend.trans hp) rfl] at h
    simp only [Host.Outcome.next.injEq] at h
    exact .inl ⟨u, rfl, hsame, h.symm⟩
  | err code info u =>
    rw [hb] at h hsame hcode
    have hsame : SameHostState s u := hsame
    rw [finish_err (hsame.pend.trans hp) rfl] at h
    simp only [Host.Outcome.next.injEq] at h
    exact .inr ⟨code, info, u, rfl, hcode, hsame, h.symm⟩

end Sys2Proof.Machine
end

