-- ==== Sys2Proof/Laws/Bus.lean ====
section
/-! SUPPORT. Host transactions: one law per outcome of an access, and what an access can change at all
(20_memory.md R82 to R89). -/

namespace Sys2Proof.Machine

theorem State.hostAccess_error {s : State} {t : Transaction}
    (h : s.takes (s.target t.addr) t.size = false) : s.hostAccess t = (s, ⟨.error, 0⟩) := by
  simp [State.hostAccess, h]

theorem State.hostAccess_refused {s : State} {t : Transaction}
    (h : s.takes (s.target t.addr) t.size = true)
    (hr : (s.busy && (s.target t.addr).refusedWhileBusy) = true) :
    s.hostAccess t = ({ s with hostConflict := true },
      ⟨.okay, match t.kind with | .read => 0 | .write => Config.freeWriteData s.draws⟩) := by
  simp only [State.hostAccess, h, hr]
  cases t.kind <;> simp

theorem State.hostAccess_read {s : State} {t : Transaction}
    (h : s.takes (s.target t.addr) t.size = true)
    (hr : (s.busy && (s.target t.addr).refusedWhileBusy) = false) (hk : t.kind = .read) :
    s.hostAccess t = (s, ⟨.okay, s.readTarget (s.target t.addr) t.size⟩) := by
  simp [State.hostAccess, h, hr, hk]

theorem State.hostAccess_write {s : State} {t : Transaction}
    (h : s.takes (s.target t.addr) t.size = true)
    (hr : (s.busy && (s.target t.addr).refusedWhileBusy) = false) (hk : t.kind = .write) :
    s.hostAccess t = (s.writeTarget (s.target t.addr) t.size t.wdata,
      ⟨.okay, Config.freeWriteData s.draws⟩) := by
  simp [State.hostAccess, h, hr, hk]

/-- Everything an access can leave: the state as it was, HOST_CONFLICT set, or a write that took effect. -/
theorem State.hostAccess_fst_cases (s : State) (t : Transaction) :
    (s.hostAccess t).1 = s ∨ (s.hostAccess t).1 = { s with hostConflict := true } ∨
      (s.takes (s.target t.addr) t.size = true ∧
        (s.busy && (s.target t.addr).refusedWhileBusy) = false ∧ t.kind = .write ∧
        (s.hostAccess t).1 = s.writeTarget (s.target t.addr) t.size t.wdata) := by
  cases h : s.takes (s.target t.addr) t.size with
  | false => exact .inl (by rw [State.hostAccess_error h])
  | true =>
    cases hr : s.busy && (s.target t.addr).refusedWhileBusy with
    | true => exact .inr (.inl (by rw [State.hostAccess_refused h hr]))
    | false =>
      cases hk : t.kind with
      | read => exact .inl (by rw [State.hostAccess_read h hr hk])
      | write => exact .inr (.inr ⟨rfl, rfl, rfl, by rw [State.hostAccess_write h hr hk]⟩)

theorem littleEndian_length (n : Nat) (w : Word) : (littleEndian n w).length = n := by
  simp [littleEndian]

/-- The address arithmetic of the map: the offset inside IBUF of an access the block takes, and its
end. -/
theorem State.target_ibuf {s : State} {addr : Word} {size : Size} {a : Nat}
    (h : s.target addr = .ibuf a) (ht : s.takes (.ibuf a) size = true) :
    addr.toNat = 0x40000000 + a ∧ a + size.bytes ≤ s.ibufSize := by
  simp only [State.target] at h
  split_ifs at h with h1 h2 h3 h4
  simp only [Target.ibuf.injEq] at h
  simp only [State.takes] at ht
  cases size <;> simp [bufferTakes, Size.bytes] at ht ⊢ <;> omega

theorem State.target_obuf {s : State} {addr : Word} {size : Size} {a : Nat}
    (h : s.target addr = .obuf a) (ht : s.takes (.obuf a) size = true) :
    addr.toNat = 0x80000000 + a ∧ a + size.bytes ≤ s.obufSize := by
  simp only [State.target] at h
  split_ifs at h with h1 h2 h3 h4
  simp only [Target.obuf.injEq] at h
  simp only [State.takes] at ht
  cases size <;> simp [bufferTakes, Size.bytes] at ht ⊢ <;> omega

theorem State.target_register (s : State) {off : Nat} (h : off < 0x1000) :
    s.target (BitVec.ofNat 32 off) = .register off := by
  have hx : (BitVec.ofNat 32 off).toNat = off := by
    rw [BitVec.toNat_ofNat]
    exact Nat.mod_eq_of_lt (by omega)
  simp only [State.target, hx]
  rw [if_pos h]

/-- A host read of the register file, at every state (10_state.md R24, 20_memory.md R93). -/
theorem State.reads_register (s : State) {off : Nat} (h : off < 0x1000) (h4 : off % 4 = 0) :
    s.reads (BitVec.ofNat 32 off) (s.readReg (.ofOffset off)) := fun w => by
  rw [State.hostAccess_read] <;> simp [State.target_register s h, State.takes, wordOnly, h4,
    Target.refusedWhileBusy, State.readTarget]

/-- A host write of the register file, at every state. -/
theorem State.hostAccess_writeRegister (s : State) (w : Word) {off : Nat} (h : off < 0x1000)
    (h4 : off % 4 = 0) : s.hostAccess ⟨.write, BitVec.ofNat 32 off, .word, w⟩ =
      (s.writeReg (.ofOffset off) w, ⟨.okay, Config.freeWriteData s.draws⟩) := by
  rw [State.hostAccess_write] <;> simp [State.target_register s h, State.takes, wordOnly, h4,
    Target.refusedWhileBusy, State.writeTarget]

/-- Writes to read-only and reserved registers are ignored (10_state.md R42). -/
theorem State.writeReg_ignored (s : State) (w : Word) {off : Nat}
    (h : off ∉ [0x010, 0x014, 0x018, 0x024, 0x028, 0x02C, 0x030, 0x034]) :
    s.writeReg (.ofOffset off) w = s := by
  simp only [List.mem_cons, List.not_mem_nil, or_false, not_or] at h
  obtain ⟨h1, h2, h3, h4, h5, h6, h7, h8⟩ := h
  rw [Reg.ofOffset, if_neg h1, if_neg h2, if_neg h3, if_neg h4, if_neg h5, if_neg h6, if_neg h7,
    if_neg h8]
  have hite : ∀ (c : Prop) [Decidable c] (a b : Reg), s.writeReg a w = s → s.writeReg b w = s →
      s.writeReg (if c then a else b) w = s := fun c _ a b ha hb => by
    by_cases hc : c
    · rwa [if_pos hc]
    · rwa [if_neg hc]
  repeat' (first | apply hite | rfl)

/-- No step faults or refuses. -/
theorem step_isNext (s : State) : ∃ s', step s = .next s' := by
  have he : ∀ s, ∃ s', engineTurn s = .next s' := by
    intro s
    unfold engineTurn
    split
    · exact ⟨_, rfl⟩
    · split
      · exact exec_isNext _ _
      · exact ⟨_, rfl⟩
  unfold step
  split
  · exact he _
  · exact he _
  · exact ⟨_, rfl⟩
  · exact ⟨_, rfl⟩

end Sys2Proof.Machine
end

