-- ==== Sys2Proof/Laws/PerInstr.lean ====
section
/-! SUPPORT. Laws of every command as syntax, one lemma for each constructor. -/

namespace Sys2Proof.Laws.EncodingOk

/-- The word `encode` writes is well-formed by the match and mask table (30_encoding.md R123), carries the
command's opcode in its low byte and 0 above bit 15 (R120, R122). -/
def Statement (i : Instr) : Prop :=
  commandWordOk (encode i) = true ∧ opcodeOf (encode i) = i.opcode ∧
    (encode i).extractLsb' 16 16 = 0

theorem nop : Statement .nop := by unfold Statement; decide

theorem clear : Statement .clear := by unfold Statement; decide

theorem count : Statement .count := by unfold Statement; decide

theorem build : Statement .build := by unfold Statement; decide

theorem path (value : Byte) : Statement (.path value) := by
  unfold Statement
  revert value
  decide +kernel

theorem serialize : Statement .serialize := by unfold Statement; decide

theorem deserialize (exact : Bool) : Statement (.deserialize exact) := by
  unfold Statement
  revert exact
  decide

theorem wrlen : Statement .wrlen := by unfold Statement; decide

theorem rdlen : Statement .rdlen := by unfold Statement; decide

theorem pack : Statement .pack := by unfold Statement; decide

theorem unpack : Statement .unpack := by unfold Statement; decide

theorem compress : Statement .compress := by unfold Statement; decide

theorem decompress : Statement .decompress := by unfold Statement; decide

end Sys2Proof.Laws.EncodingOk
end

