-- ==== Sys2Proof/Laws/Region.lean ====
section
/-! SUPPORT. What the commands' reads see of a written region: the region's own bytes at every read site,
the code stream of those bytes, and the stream bits of a packed body. -/

namespace Sys2Proof.Machine

theorem State.regionIs.inRegionOk {s : State} {d : List Byte} (h : s.regionIs d) :
    s.inRegionOk = true :=
  State.inRegionOk_iff.mpr ⟨by have := h.2.1; omega, h.1⟩

theorem State.regionIs.regionLen_eq {s : State} {d : List Byte} (h : s.regionIs d) :
    s.regionLen = d.length := by
  have := h.2.1
  unfold State.regionLen
  omega

/-- Every read site sees the written bytes. -/
theorem State.ibufByte_of_holds {s : State} {d : List Byte} {a : Nat} (h : s.ibuf.holds a d)
    (site : Site) : readsAt (s.ibufByte site) a d := fun i hi => by
  rw [State.ibufByte, Memory.holds_read? h i hi, Option.getD_some]

theorem State.regionIs.starts {s : State} {b rest : List Byte} (h : s.regionIs (b ++ rest)) :
    s.regionStarts b := by
  have h2 := h.2.1
  rw [List.length_append] at h2
  exact ⟨h.1, by omega, (Memory.holds_append.mp h.2.2).1⟩

theorem State.regionStarts.inRegionOk {s : State} {b : List Byte} (h : s.regionStarts b) :
    s.inRegionOk = true :=
  State.inRegionOk_iff.mpr ⟨by have := h.2.1; omega, h.1⟩

theorem State.regionStarts.le_regionLen {s : State} {b : List Byte} (h : s.regionStarts b) :
    b.length ≤ s.regionLen := by
  have := h.2.1
  unfold State.regionLen
  omega

theorem State.regionStarts.readsAt {s : State} {b : List Byte} (h : s.regionStarts b)
    (site : Site) : readsAt (s.ibufByte site) s.inPtr.toNat b :=
  State.ibufByte_of_holds h.2.2 site

/-- What follows the bytes a step consumed, once IN_PTR stands behind them. -/
theorem State.regionStarts.advance {s s' : State} {b c : List Byte}
    (h : s.regionStarts (b ++ c)) (hi : s'.ibuf = s.ibuf) (hn : s'.ibufSize = s.ibufSize)
    (hl : s'.inLen = s.inLen) (hp : s'.inPtr.toNat = s.inPtr.toNat + b.length) :
    s'.regionStarts c := by
  obtain ⟨h1, h2, h3⟩ := h
  rw [List.length_append] at h2
  refine ⟨by rw [hl, hn]; exact h1, by rw [hl, hp]; omega, ?_⟩
  rw [hi, hp]
  exact (Memory.holds_append.mp h3).2

theorem State.regionIs.readsAt {s : State} {d : List Byte} (h : s.regionIs d) (site : Site) :
    readsAt (s.ibufByte site) s.inPtr.toNat d :=
  State.ibufByte_of_holds h.2.2 site

theorem State.ibufBytes_eq_readBytes (s : State) (site : Site) (a n : Nat) :
    s.ibufBytes site a n = readBytes (s.ibufByte site) a n := rfl

theorem State.regionIs.region_eq {s : State} {d : List Byte} (h : s.regionIs d) (site : Site) :
    s.region site = d := by
  rw [State.region, h.regionLen_eq, State.ibufBytes_eq_readBytes, readBytes_eq (h.readsAt site)]

theorem State.regionIs.firstWithoutLeaf_none {s : State} {d : List Byte} {t : HufTree}
    (h : s.regionIs d) (hd : ∀ v ∈ d, v ∈ t.leaves) : s.firstWithoutLeaf t = none := by
  rw [State.firstWithoutLeaf, List.find?_eq_none]
  intro i hi
  rw [h.regionLen_eq, List.mem_range] at hi
  rw [h.readsAt .packCheck i hi]
  have := (t.code?_isSome d[i]).mpr (hd _ (List.getElem_mem hi))
  simp only [Option.isNone_iff_eq_none]
  intro hn
  rw [hn] at this
  simp at this

theorem State.regionIs.codeStream_eq {s : State} {d : List Byte} {t : HufTree}
    (h : s.regionIs d) (hd : ∀ v ∈ d, v ∈ t.leaves) : s.codeStream t = codeBits t d := by
  have hmap : (List.range d.length).map (fun i => s.codeAt t (s.inPtr.toNat + i)) =
      d.map fun x => (t.code? x).getD [] := by
    apply List.ext_getElem (by simp)
    intro i h1 h2
    have hi : i < d.length := by simpa using h1
    obtain ⟨x, hx⟩ := HufTree.code?_of_mem (hd _ (List.getElem_mem hi))
    simp only [List.getElem_map, List.getElem_range, State.codeAt, h.readsAt .packCode i hi, hx,
      Option.getD_some]
  rw [State.codeStream, h.regionLen_eq, List.flatMap_def, hmap, codeBits, List.flatMap_def]

/-- What PACK writes starts with the bits it was made of, whatever follows (43_bitstream.md R271). -/
theorem startsWithBits_packBits (S : List Bool) (rest : List Byte) :
    startsWithBits (packBits S ++ rest) S := by
  intro k hk
  have hc := ceil8_mul_ge S.length
  have hlen := packBits_length S
  have hj : k / 8 < (packBits S).length := by omega
  refine ⟨(packBits S)[k / 8], ?_, ?_⟩
  · rw [List.getElem?_append_left hj, List.getElem?_eq_getElem hj]
  · have := packBits_bit S k (by omega)
    rwa [List.getD_eq_getElem _ _ hj, List.getD_eq_getElem _ _ hk] at this

theorem startsWithBits.ceil8_le {B : List Byte} {S : List Bool} (h : startsWithBits B S) :
    ceil8 S.length ≤ B.length := by
  cases hS : S.length with
  | zero => exact Nat.zero_le _
  | succ n =>
    obtain ⟨x, hx, -⟩ := h n (by omega)
    obtain ⟨hlt, -⟩ := List.getElem?_eq_some_iff.mp hx
    unfold ceil8
    omega

/-- The stream bits of a region that starts with a body (43_bitstream.md R277). -/
theorem State.regionStarts.bitsAt {s : State} {B : List Byte} {S : List Bool}
    (h : s.regionStarts B) (hB : startsWithBits B S) : bitsAt s.regionBit 0 S := by
  intro k hk
  obtain ⟨x, hx, hb⟩ := hB k hk
  obtain ⟨hlt, rfl⟩ := List.getElem?_eq_some_iff.mp hx
  rw [Nat.zero_add, State.regionBit, streamBit, h.readsAt (.bit (k % 8)) (k / 8) hlt]
  exact hb

/-! ### The steps over a written region -/

/-- The declared length that the root of a blob at IN_PTR carries (42_tree_codec.md R236). -/
theorem State.declaredLen_eq {s : State} {w rest : List Byte} {n : Nat} (hw : w.length = 16)
    (hn : n < 65536) (h : s.ibuf.holds s.inPtr.toNat (w ++ toBE 2 n ++ rest)) :
    s.declaredLen = 18 + n := by
  have hr := State.ibufByte_of_holds h .rootSize
  rw [readsAt_append, readsAt_append] at hr
  have hp := hr.1.2
  rw [hw] at hp
  rw [State.declaredLen, State.ibufBytes_eq_readBytes, ofBE_read_toBE hp (by simpa using hn)]

theorem countStep_region {s : State} {d : List Byte} (h : s.regionIs d) :
    countStep s = .ok { s with freq := countBytes d, origLen := BitVec.ofNat 64 d.length } := by
  rw [countStep, andThen_ok (inCheck_ok h.inRegionOk), h.region_eq, h.regionLen_eq]

/-- DESERIALIZE of a region that starts with the blob of `t` (42_tree_codec.md R236, R244). -/
theorem deserializeStep_blob {s : State} {t : HufTree} {b : List Byte} (e : Bool)
    (hw : t.wf = true) (hb : t.ser = some b) (h : s.regionStarts b)
    (he : e = true → s.regionLen = b.length) :
    deserializeStep e s = .ok { s with
      tree := some t
      inPtr := BitVec.ofNat 32 (s.inPtr.toNat + b.length) } := by
  obtain ⟨p, hbp, hp, -⟩ := HufTree.ser_parts hb
  have hbl : b.length = 18 + p.length := by
    rw [hbp]; simp [toBE_length]; omega
  have hd : s.declaredLen = b.length := by
    have hh := h.2.2
    rw [hbp] at hh
    rw [State.declaredLen_eq (toBE_length _ _) hp hh, hbl]
  have hl := h.le_regionLen
  have hn := t.nodes_eq
  have hle := HufTree.wf_leaves_le hw
  have hp := parse_ser (depth := Config.maxNodes + 1) (st := ⟨0, []⟩) hb (h.readsAt .header)
    (h.readsAt .leftSize) (by unfold Config.maxNodes; omega)
    (by simp only [Config.maxNodes]; omega) (by simpa [HufTree.wf] using hw) (by simp)
  rw [deserializeStep, andThen_ok (inCheck_ok h.inRegionOk)]
  simp only [hd, State.parseBlob, hp]
  rw [if_neg (by omega), if_neg (fun hc => hc.2 (he hc.1)), if_neg (by omega)]

/-- RDLEN of a region that starts with a length field (43_bitstream.md R266). -/
theorem rdlenStep_toBE {s : State} {n : Nat} (h : s.regionStarts (toBE 8 n)) (hn : n < 2 ^ 64) :
    rdlenStep s = .ok { s with origLen := BitVec.ofNat 64 n, inPtr := s.inPtr + 8 } := by
  have hl := h.le_regionLen
  rw [toBE_length] at hl
  rw [rdlenStep, andThen_ok (inCheck_ok h.inRegionOk), if_neg (by omega),
    State.ibufBytes_eq_readBytes,
    ofBE_read_toBE (h.readsAt .length) (by norm_num at hn ⊢; exact hn)]

/-- PACK of a region whose bytes all have a leaf (43_bitstream.md R270). -/
theorem packStep_region {s : State} {t : HufTree} {d : List Byte} (h : s.regionIs d)
    (ho : s.outRegionOk = true) (ht : s.tree = some t) (hd : ∀ v ∈ d, v ∈ t.leaves) :
    packStep s = (s.output (packBits (codeBits t d))).andThen fun s' =>
      .ok { s' with bitLen := BitVec.ofNat 64 (codeBits t d).length } := by
  rw [packStep, andThen_ok ((andThen_ok (inCheck_ok h.inRegionOk)).trans (outCheck_ok ho))]
  simp only [ht, h.firstWithoutLeaf_none hd, h.codeStream_eq hd]

/-- UNPACK of a region that starts with a body whose first bits are the codes of `d`: with
`packStep_region` and `startsWithBits_packBits`, the inverse law (43_bitstream.md R276, R280, R282). -/
theorem unpackStep_bits {s : State} {t : HufTree} {d B : List Byte} (h : s.regionStarts B)
    (hB : startsWithBits B (codeBits t d)) (ht : s.tree = some t) (hd : ∀ v ∈ d, v ∈ t.leaves)
    (hn : s.origLen.toNat = d.length) (hfit : s.outLen.toNat + d.length ≤ s.obufSize) :
    unpackStep s = .ok { s.emit d with
      inPtr := s.inPtr + BitVec.ofNat 32 (ceil8 (codeBits t d).length)
      bitLen := BitVec.ofNat 64 (codeBits t d).length } := by
  have hu := unpackStream_codeBits (avail := 8 * s.regionLen) hd (h.bitsAt hB) (by
    have := ceil8_mul_ge (codeBits t d).length
    have := hB.ceil8_le
    have := h.le_regionLen
    omega)
  have ho : s.outRegionOk = true := State.outRegionOk_iff.mpr (by omega)
  rw [unpackStep, andThen_ok ((andThen_ok (inCheck_ok h.inRegionOk)).trans (outCheck_ok ho))]
  simp only [ht, hn, hu]
  rw [if_neg (by simp [State.overflows, hfit])]

end Sys2Proof.Machine
end

