-- ==== Sys2Proof/Machine/Script.lean ====
section
/-! DEFINITION. The host-script notation, as lists of events (30_encoding.md R127, R128). -/

namespace Sys2Proof.Machine

/-- The base address of IBUF (20_memory.md R81). -/
def ibufBase : Nat := 0x40000000

/-- The base address of OBUF (20_memory.md R81). -/
def obufBase : Nat := 0x80000000

/-- One bus transaction as an event. -/
def transactionAt (kind : Access) (addr : Nat) (size : Size) (w : Word) : Event :=
  .access ⟨kind, BitVec.ofNat 32 addr, size, w⟩

/-- `W32 <REG>, <value>` (30_encoding.md R127). -/
def scriptW32 (r : Reg) (w : Word) : Event := transactionAt .write r.offset .word w

/-- `R32 <REG>` (30_encoding.md R127). -/
def scriptR32 (r : Reg) : Event := transactionAt .read r.offset .word 0

/-- `W8 IBUF+<a>, <byte>` and `W8 OBUF+<a>, <byte>`, with the buffer's base (30_encoding.md R127). -/
def scriptW8 (base a : Nat) (b : Byte) : Event :=
  transactionAt .write (base + a) .byte (b.setWidth 32)

/-- `R8 IBUF+<a>` and `R8 OBUF+<a>`, with the buffer's base (30_encoding.md R127). -/
def scriptR8 (base a : Nat) : Event := transactionAt .read (base + a) .byte 0

/-- `W32 IBUF+<a>, <value>`, with the buffer's base (30_encoding.md R127). -/
def scriptW32Buffer (base a : Nat) (w : Word) : Event := transactionAt .write (base + a) .word w

/-- `R32 OBUF+<a>`, with the buffer's base (30_encoding.md R127). -/
def scriptR32Buffer (base a : Nat) : Event := transactionAt .read (base + a) .word 0

/-- `CMD <MNEMONIC>`, `CMD PATH <v>` and `CMD DESERIALIZE EXACT=<e>` (30_encoding.md R127). -/
def scriptCmd (i : Instr) : Event := scriptW32 .cmd (encode i)

/-- `WAIT`: the polls of STATUS that come before the engine's step are left to the agenda; here the engine
steps and the last poll reads BUSY = 0 (30_encoding.md R128); log 2. -/
def scriptWait : List Event := [.engine, scriptR32 .status]

/-- `LOAD IBUF, [b0, …]` (30_encoding.md R128). -/
def scriptLoad (d : List Byte) : List Event :=
  (d.zipIdx.map fun p => scriptW8 ibufBase p.2 p.1) ++
    [scriptW32 .inPtr 0, scriptW32 .inLen (BitVec.ofNat 32 d.length)]

/-- `DUMP OBUF, n` (30_encoding.md R128). -/
def scriptDump (n : Nat) : List Event := (List.range n).map fun i => scriptR8 obufBase i

/-- `RUN <MNEMONIC…>` (30_encoding.md R128). -/
def scriptRun (i : Instr) : List Event := scriptCmd i :: scriptWait

end Sys2Proof.Machine
end

