-- ==== Sys2Proof/Tests/Slice0.lean ====
section
/-! SUPPORT. Tests. Every expected value is the spec's own: the encodings of 30_encoding.md and the vectors of
95_test_vectors.md, named at each test. -/

namespace Sys2Proof.Tests

open Sys2Proof.Machine

/-! The kernel-checked tests run one after another: in parallel each would hold a thread of its own while it
waits for the theorems before it. -/

set_option Elab.async false

/-! ## Well-formed words -/

/-- 30_encoding.md R126: a reserved bit set in format N. -/
theorem test_word_formatN_reserved_bit : commandWordOk 0x00000110 = false := by decide

/-- 30_encoding.md R126: bit 16 set in format V. -/
theorem test_word_formatV_reserved_bit : commandWordOk 0x00010012 = false := by decide

/-- 30_encoding.md R126: bit 9 set in format F. -/
theorem test_word_formatF_reserved_bit : commandWordOk 0x00000221 = false := by decide

/-- 30_encoding.md R125: an unlisted opcode. -/
theorem test_word_unlisted_opcode : commandWordOk 0x00000042 = false := by decide

/-- 30_encoding.md R123: listed words are selected. -/
theorem test_word_listed :
    commandWordOk 0x00000041 = true ∧ commandWordOk 0x0000FF12 = true ∧
      commandWordOk 0x00000121 = true := by decide

/-! ## Decoding, every word written out from spec/opcode_table.json -/

theorem test_decode_control :
    decode 0b00000000000000000000000000000000 = .ok .nop ∧
      decode 0b00000000000000000000000000000001 = .ok .clear := by decide

theorem test_decode_analysis :
    decode 0b00000000000000000000000000010000 = .ok .count ∧
      decode 0b00000000000000000000000000010001 = .ok .build ∧
      decode 0b00000000000000000110000100010010 = .ok (.path 0x61) ∧
      decode 0b00000000000000001000000000010010 = .ok (.path 0x80) := by decide

theorem test_decode_tree_codec :
    decode 0b00000000000000000000000000100000 = .ok .serialize ∧
      decode 0b00000000000000000000000000100001 = .ok (.deserialize false) ∧
      decode 0b00000000000000000000000100100001 = .ok (.deserialize true) := by decide

theorem test_decode_bitstream :
    decode 0b00000000000000000000000000110000 = .ok .wrlen ∧
      decode 0b00000000000000000000000000110001 = .ok .rdlen ∧
      decode 0b00000000000000000000000000110010 = .ok .pack ∧
      decode 0b00000000000000000000000000110011 = .ok .unpack := by decide

theorem test_decode_pipeline :
    decode 0b00000000000000000000000001000000 = .ok .compress ∧
      decode 0b00000000000000000000000001000001 = .ok .decompress := by decide

/-- V-CT1: the illegal words of the table. -/
theorem test_decode_illegal :
    decode 0x00000100 = .error .reservedBit ∧ decode 0x00000110 = .error .reservedBit ∧
      decode 0x00000002 = .error .undefinedOpcode ∧ decode 0x000000FF = .error .undefinedOpcode ∧
      decode 0x00010012 = .error .reservedBit ∧ decode 0x00000221 = .error .reservedBit ∧
      decode 0x80000040 = .error .reservedBit ∧ decode 0x00000042 = .error .undefinedOpcode := by
  decide

/-! ## Helpers -/

/-- The next state of an outcome. -/
def nextOf (o : Host.Outcome State Fault Refusal) : Option State :=
  match o with
  | .next s => some s
  | .fault _ => none
  | .refused _ => none

/-- Reset, with `d` in IBUF from offset 0 and the region set to it. -/
def loaded (d : List Byte) : State :=
  { State.reset with
    ibuf := Memory.writeBytes [] 0 d
    inLen := BitVec.ofNat 32 d.length }

/-- One command, accepted and then executed. -/
def run (i : Instr) (s : State) : Option State := nextOf (exec i (s.accept (encode i)))

/-- A check of the state one command leaves. -/
def after (i : Instr) (s : State) (p : State → Bool) : Bool := (run i s).any p

/-- RESULT and ERR_INFO. -/
def resultIs (s : State) (result info : Word) : Bool :=
  s.resultWord == result && s.errInfo == info

/-- The bytes of OBUF from offset `a` on. -/
def outputIs (s : State) (a : Nat) (b : List Byte) : Bool :=
  (List.range b.length).map (fun i => s.obuf.read? (a + i)) == b.map some

/-- L1.1: the tree of the concrete scenario. -/
def concreteTree : HufTree :=
  .node 7 (.leaf 3 0x01)
    (.node 4 (.node 2 (.leaf 1 0x22) (.leaf 1 0x40)) (.node 2 (.leaf 1 0x7C) (.leaf 1 0xFF)))

/-- V-AN4: the tree of "abba". -/
def abbaTree : HufTree := .node 4 (.leaf 2 0x61) (.leaf 2 0x62)

/-- V-TC1: the blob of Leaf(4, 07). -/
def leafBlob : List Byte := List.replicate 15 0 ++ [4, 0, 1, 7]

/-- V-TC1: the blob of the "abba" tree. -/
def abbaBlob : List Byte :=
  List.replicate 15 0 ++ [4, 0, 0x26] ++ List.replicate 15 0 ++ [2, 0, 1, 0x61] ++
    List.replicate 15 0 ++ [2, 0, 1, 0x62]

/-- V-PL3: the "abba" artifact. -/
def abbaArtifact : List Byte := abbaBlob ++ [0, 0, 0, 0, 0, 0, 0, 4, 9]

/-- L1.1: the input of the concrete scenario. -/
def concreteInput : List Byte := [0x01, 0x22, 0x40, 0x7C, 0xFF, 0x01, 0x01]

/-! ## Commands -/

/-- V-CT2. -/
theorem test_nop :
    after .nop State.reset (fun s => s.statusWord == 0x02 && resultIs s 0 0) = true := by
  decide +kernel

/-- V-CT3, with CTRL = 3 and a tree. -/
theorem test_clear :
    after .clear { loaded concreteInput with tree := some abbaTree, ieDone := true, ieErr := true }
      (fun s => s.statusWord == 0x82 && resultIs s 0x0100 0 && s.inLen == 0 && s.nLeaves == 0)
      = true := by
  decide +kernel

/-- V-CT4: COUNT with bit 8 set, run by `step`. -/
theorem test_illegal :
    ((nextOf (step ({ State.reset with ieErr := true }.withFetchWord 32 0x110))).any fun s =>
      s.statusWord == 0x86 && resultIs s 0x1010 0x00000110) = true := by
  decide +kernel

/-- V-AN1. -/
theorem test_count :
    after .count (loaded concreteInput)
      (fun s => s.freq.get 0x01 == 3 && s.freq.get 0xFF == 1 && s.freq.get 0x02 == 0 &&
        s.origLen == 7 && s.inPtr == 0 && resultIs s 0x1000 0) = true := by
  decide +kernel

/-- V-AN1: IN_PTR > IN_LEN. -/
theorem test_count_bad_region :
    after .count { loaded concreteInput with inPtr := 5, inLen := 4 }
      (fun s => resultIs s 0x1011 0 && s.origLen == 0) = true := by
  decide +kernel

/-- L1.1: the five leaves and their ties. -/
theorem test_build_concrete :
    buildTree (countBytes concreteInput) = some concreteTree := by
  decide +kernel

/-- V-AN5: a leaf beats a node of equal weight. -/
theorem test_build_tie :
    after .build { State.reset with freq := countBytes [0x61, 0x62, 0x63, 0x63] }
      (fun s => s.tree == some (.node 4 (.leaf 2 0x63) (.node 2 (.leaf 1 0x61) (.leaf 1 0x62))) &&
        s.blobLen == 93 && resultIs s 0x1100 0) = true := by
  decide +kernel

/-- 41_analysis.md R205's example, PATH 34. -/
theorem test_path_found :
    after (.path 34) { State.reset with tree := some concreteTree }
      (fun s => s.pathFound && s.pathLen == 3 && s.readReg (.pathBits 0) == 6 &&
        resultIs s 0x1200 0) = true := by
  decide +kernel

/-- V-AN9: not found is no error. -/
theorem test_path_absent :
    after (.path 2) { State.reset with tree := some concreteTree, pathFound := true, pathLen := 9 }
      (fun s => !s.pathFound && s.pathLen == 0 && resultIs s 0x1200 0) = true := by
  decide +kernel

/-- V-TC1, "abba" at OUT_LEN = 10. -/
theorem test_serialize :
    after .serialize { State.reset with tree := some abbaTree, outLen := 10 }
      (fun s => outputIs s 10 abbaBlob && s.outLen == 66 && resultIs s 0x2000 0) = true := by
  decide +kernel

/-- V-TC2, OBUF_SIZE = 18. -/
theorem test_serialize_overflow :
    after .serialize { State.reset with tree := some (.leaf 4 7), obufSize := 18 }
      (fun s => s.obuf == [] && s.outLen == 0 && resultIs s 0x2012 0) = true := by
  decide +kernel

/-- V-TC3, the "abba" artifact with EXACT = 0. -/
theorem test_deserialize :
    after (.deserialize false) (loaded abbaArtifact)
      (fun s => s.tree == some abbaTree && s.inPtr == 56 && resultIs s 0x2100 0) = true := by
  decide +kernel

/-- V-TC4, the right leaf's payload-size changed to 2: FormatError at 37 and no tree. -/
theorem test_deserialize_corrupt :
    after (.deserialize true)
      { loaded (abbaBlob.set 54 2) with tree := some abbaTree }
      (fun s => s.tree == none && s.inPtr == 0 && resultIs s 0x2102 37) = true := by
  decide +kernel

/-- V-BS1. -/
theorem test_wrlen :
    after .wrlen { State.reset with origLen := 0x0102030405060708 }
      (fun s => outputIs s 0 [1, 2, 3, 4, 5, 6, 7, 8] && s.outLen == 8 && resultIs s 0x3000 0)
      = true := by
  decide +kernel

/-- V-BS2. -/
theorem test_rdlen :
    after .rdlen (loaded [1, 2, 3, 4, 5, 6, 7, 8, 9])
      (fun s => s.origLen == 0x0102030405060708 && s.inPtr == 8 && resultIs s 0x3100 0) = true := by
  decide +kernel

/-- V-BS3, the L1.1 stream: T = 15, body 2D 62. -/
theorem test_pack :
    after .pack { loaded concreteInput with tree := some concreteTree }
      (fun s => outputIs s 0 [0x2D, 0x62] && s.bitLen == 15 && s.outLen == 2 &&
        resultIs s 0x3200 0) = true := by
  decide +kernel

/-- V-BS4: NotInTree at offset 2. -/
theorem test_pack_not_in_tree :
    after .pack { loaded [0x61, 0x62, 0x63, 0x61] with tree := some abbaTree }
      (fun s => s.obuf == [] && resultIs s 0x3214 2) = true := by
  decide +kernel

/-- V-BS5, ORIG_LEN = 8: padding bits decode as 62. -/
theorem test_unpack :
    after .unpack { loaded [0x09] with tree := some abbaTree, origLen := 8 }
      (fun s => outputIs s 0 [0x61, 0x62, 0x62, 0x61, 0x62, 0x62, 0x62, 0x62] && s.bitLen == 8 &&
        s.inPtr == 1 && resultIs s 0x3300 0) = true := by
  decide +kernel

/-- V-BS5, ORIG_LEN = 9: TruncatedStream after 8 bytes. -/
theorem test_unpack_truncated :
    after .unpack { loaded [0x09] with tree := some abbaTree, origLen := 9 }
      (fun s => s.inPtr == 0 && s.outLen == 0 && resultIs s 0x3303 8) = true := by
  decide +kernel

/-- V-PL3. -/
theorem test_compress :
    after .compress (loaded [0x61, 0x62, 0x62, 0x61])
      (fun s => outputIs s 0 abbaArtifact && s.outLen == 65 && s.bitLen == 4 &&
        s.tree == some abbaTree && resultIs s 0x4000 0) = true := by
  decide +kernel

/-- V-PL7: OBUF_SIZE = 100 stops WRLEN at 93; COUNT's and BUILD's effects remain. -/
theorem test_compress_overflow :
    after .compress { loaded [0x61, 0x62, 0x63, 0x63] with obufSize := 100 }
      (fun s => s.outLen == 0 && s.origLen == 4 && s.treeValid && s.freq.get 0x63 == 2 &&
        resultIs s 0x4012 93) = true := by
  decide +kernel

/-- V-PL8: trailing bytes are not read. -/
theorem test_decompress :
    after .decompress (loaded (abbaArtifact ++ [0xFF, 0xFF]))
      (fun s => outputIs s 0 [0x61, 0x62, 0x62, 0x61] && s.inPtr == 65 && s.outLen == 4 &&
        resultIs s 0x4100 0) = true := by
  decide +kernel

/-- V-PL8: the blob alone fails in RDLEN and keeps the tree. -/
theorem test_decompress_no_length :
    after .decompress (loaded abbaBlob)
      (fun s => s.tree == some abbaTree && s.inPtr == 0 && resultIs s 0x4102 56) = true := by
  decide +kernel

/-! ## The bus (V-HB1, V-HB2) -/

/-- The response and state of one transaction. -/
def bus (kind : Access) (addr : Nat) (size : Size) (w : Word) (s : State) : State × Response :=
  s.hostAccess ⟨kind, BitVec.ofNat 32 addr, size, w⟩

theorem test_bus_registers :
    (bus .read 0 .word 0 State.reset).2 = ⟨.okay, 0x48554643⟩ ∧
      (bus .read 4 .word 0 State.reset).2 = ⟨.okay, 0x00010000⟩ ∧
      (bus .read 8 .word 0 State.reset).2 = ⟨.okay, 0x00010000⟩ ∧
      (bus .read 0x4C .word 0 State.reset).2 = ⟨.okay, 0⟩ ∧
      (bus .write 0x10 .word 0xFFFFFFFF State.reset).1.ctrlWord = 3 := by
  decide +kernel

theorem test_bus_errors :
    (bus .read 0x14 .half 0 State.reset).2 = ⟨.error, 0⟩ ∧
      (bus .read 0x15 .byte 0 State.reset).2 = ⟨.error, 0⟩ ∧
      (bus .read 0x16 .word 0 State.reset).2 = ⟨.error, 0⟩ ∧
      (bus .read 0x2000 .word 0 State.reset).2 = ⟨.error, 0⟩ ∧
      (bus .read 0x40000001 .word 0 State.reset).2 = ⟨.error, 0⟩ ∧
      (bus .write 0x40010000 .byte 0 State.reset).2 = ⟨.error, 0⟩ ∧
      (bus .read 0xC0000000 .word 0 State.reset).2 = ⟨.error, 0⟩ := by
  decide +kernel

theorem test_bus_word_write :
    (bus .write 0x40000000 .word 0x44332211 State.reset).1.ibuf =
        [(0, 0x11), (1, 0x22), (2, 0x33), (3, 0x44)] ∧
      (bus .read 0x40000002 .byte 0 (loaded [0x11, 0x22, 0x33, 0x44])).2 = ⟨.okay, 0x33⟩ ∧
      (bus .read 0x40000000 .word 0 (loaded [0x11, 0x22, 0x33, 0x44])).2 =
        ⟨.okay, 0x44332211⟩ := by
  decide +kernel

theorem test_bus_freq_window :
    (bus .read 0x1630 .word 0
      { State.reset with freq := countBytes [0x63, 0x63, 0x61, 0x62] }).2 = ⟨.okay, 2⟩ := by
  decide +kernel

theorem test_bus_busy :
    let s := State.reset.accept 0x40
    (bus .read 0x40000000 .byte 0 s).2 = ⟨.okay, 0⟩ ∧
      (bus .read 0x40000000 .byte 0 s).1.hostConflict = true ∧
      (bus .write 0x28 .word 9 s).1 = { s with hostConflict := true } ∧
      (bus .write 0x18 .word 0x41 s).1 = { s with cmdDropped := true } ∧
      (bus .write 0x10 .word 1 s).1.ieDone = true := by
  decide +kernel

/-- V-CT6: acceptance clears DONE, not ERR. -/
theorem test_accept_status :
    ({ State.reset with done := true, err := true, ieErr := true }.accept 0).statusWord = 0x85 := by
  decide +kernel

/-- P4, step 3: the script's COMPRESS is accepted by the first step and executed by the second. -/
theorem test_script_run :
    ((nextOf (step { loaded [7, 7, 7, 7] with agenda := scriptRun .compress })).bind
      fun s => nextOf (step s)).map (fun s => (s.resultWord, s.outLen, s.bitLen)) =
      some (0x4000, 27, 0) := by
  decide +kernel

/-! ## Witnesses: states that meet the hypotheses of each statement of Certificates/Slice0/Obligations.lean,
one conjunct or one theorem for each clause -/

/-- `loaded d` with the command `i` accepted. -/
def ready (i : Instr) (d : List Byte) : State := (loaded d).accept (encode i)

/-- What acceptance of `i` leaves in PEND there. -/
def readyPend (i : Instr) : Pending := ⟨encode i, 0, 0⟩

theorem ready_runs (i : Instr) (d : List Byte) : (ready i d).runs (readyPend i) := ⟨rfl, rfl, rfl⟩

theorem ready_paramsOk (i : Instr) (d : List Byte) : (ready i d).paramsOk = true :=
  State.paramsOk_iff.mpr (show 1 ≤ 65536 ∧ 65536 ≤ 2 ^ 30 ∧ 1 ≤ 65536 ∧ 65536 ≤ 2 ^ 30 by norm_num)

theorem loaded_regionIs {s : State} {d : List Byte} (hm : s.ibuf = Memory.writeBytes [] 0 d)
    (hp : s.inPtr = 0) (hl : s.inLen = BitVec.ofNat 32 d.length) (hs : s.ibufSize = 65536)
    (hd : d.length ≤ 65536) : s.regionIs d := by
  have e : (BitVec.ofNat 32 d.length).toNat = d.length := by
    rw [BitVec.toNat_ofNat]
    exact Nat.mod_eq_of_lt (by omega)
  have e0 : (0 : Word).toNat = 0 := rfl
  refine ⟨by rw [hl, e, hs]; exact hd, by rw [hl, e, hp, e0, Nat.zero_add], ?_⟩
  rw [hm, hp, e0]
  exact Memory.holds_of_stored (Memory.writeBytes_stored [] 0 d)

theorem ready_regionIs (i : Instr) {d : List Byte} (hd : d.length ≤ 65536) :
    (ready i d).regionIs d :=
  loaded_regionIs rfl rfl rfl rfl hd

/-! ### Words, acceptance, steps -/

theorem witness_DecodeEncodeRoundTrip : ∃ w i, decode w = .ok i := ⟨0x0000FF12, .path 0xFF, by decide⟩

theorem witness_DecodeSelectsMatchMaskRow :
    ∃ w, ∃ r ∈ encodingTable, r.selects w = true :=
  ⟨0x0000FF12, ⟨"PATH", 0xFFFF00FF, 0x00000012⟩, by decide, by decide⟩

theorem witness_AcceptanceOfCommandWord : State.reset.pend = none := rfl

theorem witness_CommandDroppedWhileBusy : ∃ p, (State.reset.accept 0).pend = some p := ⟨_, rfl⟩

theorem witness_StepRunsDecodedCommand :
    (∃ p, (ready .count []).pend = some p ∧ decode p.word = .ok .count ∧
      (ready .count []).agenda = []) ∧
    ∃ p, (State.reset.withFetchWord 32 0x10).pend = some p ∧ decode p.word = .ok .count ∧
      (State.reset.withFetchWord 32 0x10).agenda = [.engine] :=
  ⟨⟨_, rfl, by decide, rfl⟩, ⟨_, rfl, by decide, rfl⟩⟩

theorem witness_IllegalWordAborts :
    ∃ p, (State.reset.withFetchWord 32 0x110).pend = some p ∧ commandWordOk p.word = false ∧
      (State.reset.withFetchWord 32 0x110).agenda = [.engine] :=
  ⟨_, rfl, by decide, rfl⟩

theorem witness_EveryCommandCompletes :
    (∃ p, (ready .count []).pend = some p ∧ (ready .count []).agenda = []) ∧
    ∃ p, (State.reset.withFetchWord 32 0x10).pend = some p ∧
      (State.reset.withFetchWord 32 0x10).agenda = [.engine] :=
  ⟨⟨_, rfl, rfl⟩, ⟨_, rfl, rfl⟩⟩

theorem witness_CommandsWriteOnlyTheirRegisters :
    (ready .nop []).runs (readyPend .nop) ∧ ∃ s', exec .nop (ready .nop []) = .next s' :=
  ⟨ready_runs _ _, exec_isNext _ _⟩

/-- An aborted run of `i` from `s`, for the clauses of AbortRestoresAndKeeps. -/
def abortsWith (i : Instr) (s : State) (code : ResultCode) : Bool :=
  (nextOf (exec i s)).any fun s' => s'.resultCode == code

theorem witness_AbortRestoresAndKeeps :
    (∀ i d, (ready i d).runs (readyPend i) ∧ (ready i d).paramsOk = true) ∧
      abortsWith .build (ready .build []) .emptyInput = true ∧
      abortsWith (.deserialize true) (ready (.deserialize true) []) .formatError = true ∧
      abortsWith (.path 0) (ready (.path 0) []) .noTree = true ∧
      abortsWith .compress (ready .compress []) .emptyInput = true ∧
      abortsWith .decompress (ready .decompress []) .formatError = true :=
  ⟨fun i d => ⟨ready_runs i d, ready_paramsOk i d⟩, by decide +kernel⟩

theorem witness_AbortRestoresAndKeeps_output :
    abortsWith .compress { ready .compress [7] with obufSize := 26 } .outputOverflow = true ∧
      abortsWith .unpack { ready .unpack [] with tree := some abbaTree, origLen := 1 }
        .truncatedStream = true := by
  decide +kernel

/-! ### Reset and the invariant -/

theorem witness_ResetInputRestoresResetState :
    ({ ready .count [1] with agenda := [.reset] } : State).agenda = [.reset] := rfl

theorem witness_InvariantHoldsAtReset : (1 ≤ 1 ∧ 1 ≤ 2 ^ 30) ∧ (1 ≤ 2 ^ 30 ∧ 2 ^ 30 ≤ 2 ^ 30) := by
  decide

theorem witness_EveryStepKeepsInvariant :
    (ready .build [1]).Inv ∧ (∃ s', step (ready .build [1]) = .next s') ∧
    (∃ s', step { ready .build [1] with agenda := [.reset] } = .next s') ∧
    ∃ s', step { ready .build [1] with agenda := [scriptR32 .status] } = .next s' :=
  ⟨⟨by decide +kernel, by decide +kernel, by decide +kernel, by decide +kernel, by decide +kernel,
    by decide +kernel⟩, step_isNext _, step_isNext _, step_isNext _⟩

/-! ### NOP to PATH -/

theorem witness_NopOnlyCompletes :
    (∃ p, (ready .nop []).pend = some p) ∧ ∃ w : Word, opcodeOf w = 0x00 ∧ w ≠ 0 :=
  ⟨⟨_, rfl⟩, 0x00000100, by decide, by decide⟩

theorem witness_ClearResetsItsState : ∃ p, (ready .clear [1]).pend = some p := ⟨_, rfl⟩

theorem witness_CountTabulatesRegion :
    (∃ p, ({ ready .count [] with inPtr := 1 } : State).pend = some p) ∧
      ({ ready .count [] with inPtr := 1 } : State).inRegionOk = false ∧
      (∃ p, (ready .count [7, 7]).pend = some p) ∧ (ready .count [7, 7]).inRegionOk = true ∧
      (ready .count [7, 7]).paramsOk = true :=
  ⟨⟨_, rfl⟩, by decide, ⟨_, rfl⟩, by decide, ready_paramsOk _ _⟩

theorem witness_BuildWithoutCountsAborts :
    (∃ p, (ready .build []).pend = some p) ∧ ∀ v, (ready .build []).freq.get v = 0 :=
  ⟨⟨_, rfl⟩, FreqTable.get_zero⟩

/-- BUILD is pending and FREQ holds the counts of the concrete scenario. -/
def readyToBuild : State := { ready .build [] with freq := countBytes concreteInput }

theorem witness_BuildMakesWeightedTree :
    (∃ p, readyToBuild.pend = some p) ∧ (∃ v, readyToBuild.freq.get v ≠ 0) ∧
      readyToBuild.freq.total < 2 ^ 128 := by
  refine ⟨⟨_, rfl⟩, ⟨0x01, by decide +kernel⟩, ?_⟩
  have h : readyToBuild.freq.total = 7 := countBytes_total (d := concreteInput) (by decide)
  rw [h]
  norm_num

theorem witness_BuildFollowsTieBreak :
    ∃ s' t, exec .build readyToBuild = .next s' ∧ s'.tree = some t := by
  have h : buildStep readyToBuild = .ok { readyToBuild with tree := some concreteTree } := by
    simp only [buildStep, readyToBuild, test_build_concrete]
  exact ⟨_, _, finish_ok rfl h, rfl⟩

/-- PATH is pending and TREE is the tree of the concrete scenario. -/
def readyForPath (v : Byte) : State := { ready (.path v) [] with tree := some concreteTree }

theorem witness_PathReturnsRootToLeafCode :
    ((ready (.path 1) []).tree = none ∧ ∃ p, (ready (.path 1) []).pend = some p) ∧
      ((readyForPath 0xFF).tree = some concreteTree ∧ concreteTree.wf = true ∧
        (readyForPath 0xFF).leafMap.getLsbD 0xFF = true) ∧
      (readyForPath 0x00).leafMap.getLsbD 0x00 = false :=
  ⟨⟨rfl, _, rfl⟩, by decide +kernel⟩

theorem witness_CodesArePrefixFree :
    concreteTree.code? 0x01 = some [true] ∧
      concreteTree.code? 0x22 = some [false, true, true] ∧ (0x01 : Byte) ≠ 0x22 := by
  decide

/-! ### SERIALIZE and DESERIALIZE -/

/-- The full tree of depth `n` whose leaves are `v`, `v+1`, … -/
def fullTree : Nat → Byte → HufTree
  | 0, v => .leaf 1 v
  | n + 1, v => .node (BitVec.ofNat 128 (2 ^ (n + 1))) (fullTree n v)
      (fullTree n (v + BitVec.ofNat 8 (2 ^ n)))

theorem abbaTree_ser : abbaTree.ser = some abbaBlob := by decide

theorem leaf_ser : (HufTree.leaf 4 7).ser = some leafBlob := by decide

theorem fullTree_leaves (n : Nat) (v : Byte) :
    (fullTree n v).leaves = (List.range (2 ^ n)).map fun i => v + BitVec.ofNat 8 i := by
  induction n generalizing v with
  | zero => simp [fullTree, HufTree.leaves]
  | succ n ih =>
    rw [fullTree, HufTree.leaves, ih, ih, show 2 ^ (n + 1) = 2 ^ n + 2 ^ n by rw [pow_succ]; omega,
      List.range_add, List.map_append, List.map_map]
    congr 1
    apply List.map_congr_left
    intro i _
    simp [BitVec.ofNat_add, BitVec.add_assoc]

theorem fullTree_wf : (fullTree 8 0).wf = true := by
  rw [HufTree.wf, decide_eq_true_eq, fullTree_leaves,
    List.nodup_map_iff_inj_on List.nodup_range]
  intro x hx y hy hxy
  have hx := List.mem_range.mp hx
  have hy := List.mem_range.mp hy
  have := congrArg BitVec.toNat hxy
  rw [BitVec.toNat_add, BitVec.toNat_add, BitVec.toNat_ofNat, BitVec.toNat_ofNat] at this
  have h0 : (0 : Byte).toNat = 0 := rfl
  omega

/-- A leaf, a node, and the largest tree: 256 leaves. -/
theorem witness_SerializedTreeSize :
    (HufTree.leaf 4 7).ser = some leafBlob ∧ abbaTree.ser = some abbaBlob ∧
      (fullTree 8 0).wf = true :=
  ⟨leaf_ser, abbaTree_ser, fullTree_wf⟩

/-- 2048 leaves: too large for a payload field (30_encoding.md R130). -/
theorem fullTree_ser_none : (fullTree 11 0).ser = none := by
  cases h : (fullTree 11 0).ser with
  | none => rfl
  | some b =>
    obtain ⟨p, hb, hp, -⟩ := HufTree.ser_parts h
    have hl := HufTree.ser_length h
    have hn := (fullTree 11 0).blobLen_eq
    rw [fullTree_leaves, List.length_map, List.length_range] at hn
    rw [hb] at hl
    simp only [List.length_append, toBE_length] at hl
    omega

/-- SERIALIZE is pending with a tree, at OUT_LEN = `n` of an OBUF of 56 bytes more or less. -/
def readyToSerialize (t : Option HufTree) (n : Word) (size : Nat) : State :=
  { ready .serialize [] with tree := t, outLen := n, obufSize := size }

theorem witness_SerializeAppendsBlob :
    (∀ t n size, ∃ p, (readyToSerialize t n size).pend = some p) ∧
      (readyToSerialize none 2 1).outRegionOk = false ∧
      (readyToSerialize none 1 1).outRegionOk = true ∧
      ((readyToSerialize (some (fullTree 11 0)) 0 1).outRegionOk = true ∧
        (fullTree 11 0).ser = none) ∧
      (readyToSerialize (some abbaTree) 1 56).outLen.toNat + abbaBlob.length > 56 ∧
      (readyToSerialize (some abbaTree) 1 57).outLen.toNat + abbaBlob.length ≤ 57 ∧
      (readyToSerialize (some abbaTree) 1 57).paramsOk = true :=
  ⟨fun _ _ _ => ⟨_, rfl⟩, by decide, by decide, ⟨by decide, fullTree_ser_none⟩, by decide, by decide,
    State.paramsOk_iff.mpr (show 1 ≤ 65536 ∧ 65536 ≤ 2 ^ 30 ∧ 1 ≤ 57 ∧ 57 ≤ 2 ^ 30 by norm_num)⟩

theorem loaded_regionStarts (i : Instr) {b : List Byte} (rest : List Byte)
    (hd : (b ++ rest).length ≤ 65536) : (ready i (b ++ rest)).regionStarts b :=
  (ready_regionIs i hd).starts

/-- Clause 1, and clause 2 with EXACT = 1 and with EXACT = 0. -/
theorem witness_DeserializeInvertsSerialize :
    abbaTree.wf = true ∧ abbaTree.ser = some abbaBlob ∧
      (ready (.deserialize true) abbaBlob).regionIs abbaBlob ∧
      (∃ s', exec (.deserialize true) (ready (.deserialize true) (abbaBlob ++ [])) = .next s' ∧
        s'.resultCode = .ok) ∧
      ∃ s', exec (.deserialize false) (ready (.deserialize false) (abbaBlob ++ [0xFF])) =
        .next s' ∧ s'.resultCode = .ok :=
  ⟨by decide, abbaTree_ser, ready_regionIs _ (by decide),
    ⟨_, (exec_eq _ _).trans (finish_ok (p := readyPend (.deserialize true)) rfl
      (deserializeStep_blob true (by decide) abbaTree_ser (loaded_regionStarts _ [] (by decide))
        fun _ => by decide)), rfl⟩,
    _, (exec_eq _ _).trans (finish_ok (p := readyPend (.deserialize false)) rfl
      (deserializeStep_blob false (by decide) abbaTree_ser
        (loaded_regionStarts _ [0xFF] (by decide)) (by simp))), rfl⟩

theorem witness_DeserializeReadsLeadingBlob :
    (ready (.deserialize false) (abbaBlob ++ [0xFF])).regionStarts abbaBlob :=
  loaded_regionStarts _ _ (by decide)

theorem witness_DeserializeOutcomes :
    ({ ready (.deserialize true) [] with inPtr := 1 } : State).inRegionOk = false ∧
      (ready (.deserialize true) abbaBlob).inRegionOk = true := by
  decide

theorem witness_RootSizeCorruptionIsFormatError :
    (18 + 2 ≠ leafBlob.length) ∧
      (ready (.deserialize true) (leafBlob.take 16 ++ toBE 2 2 ++ leafBlob.drop 18)).regionIs
        (leafBlob.take 16 ++ toBE 2 2 ++ leafBlob.drop 18) :=
  ⟨by decide, ready_regionIs _ (by decide)⟩

/-- A tree with the leaf value 61 twice, and its blob. -/
def twinTree : HufTree := .node 4 (.leaf 2 0x61) (.leaf 2 0x61)

theorem witness_DuplicateLeafIsFormatError :
    ∃ b, twinTree.ser = some b ∧ ¬ twinTree.leaves.Nodup ∧
      (ready (.deserialize true) b).regionIs b :=
  ⟨abbaBlob.set 55 0x61, by decide, by decide, ready_regionIs _ (by decide)⟩

/-! ### WRLEN to UNPACK -/

/-- A command is pending at OUT_LEN = `n` of an OBUF of `size` bytes. -/
def readyAt (i : Instr) (n : Word) (size : Nat) : State :=
  { ready i [] with outLen := n, obufSize := size }

theorem readyAt_paramsOk (i : Instr) (n : Word) {size : Nat} (h1 : 1 ≤ size)
    (h2 : size ≤ 2 ^ 30) : (readyAt i n size).paramsOk = true :=
  State.paramsOk_iff.mpr ⟨(State.paramsOk_iff.mp (ready_paramsOk i [])).1,
    (State.paramsOk_iff.mp (ready_paramsOk i [])).2.1, h1, h2⟩

theorem witness_WrlenAppendsBigEndianLength :
    (readyAt .wrlen 0 8).paramsOk = true ∧ (readyAt .wrlen 9 8).outRegionOk = false ∧
      ((readyAt .wrlen 1 8).outRegionOk = true ∧ (readyAt .wrlen 1 8).outLen.toNat + 8 > 8) ∧
      (readyAt .wrlen 0 8).outLen.toNat + 8 ≤ 8 :=
  ⟨readyAt_paramsOk _ _ (by norm_num) (by norm_num), by decide, by decide, by decide⟩

theorem witness_RdlenLoadsBigEndianLength :
    ({ ready .rdlen [] with inPtr := 1 } : State).inRegionOk = false ∧
      ((ready .rdlen (List.replicate 7 0)).inRegionOk = true ∧
        (ready .rdlen (List.replicate 7 0)).regionLen < 8) ∧
      (ready .rdlen (List.replicate 8 0)).inRegionOk = true ∧
      8 ≤ (ready .rdlen (List.replicate 8 0)).regionLen := by
  decide

theorem witness_PackedBitPositions :
    (packBits [true, false, true])[0]? = some 0x05 ∧ [true, false, true].length ≤ 8 * 0 + 3 := by
  decide +kernel

theorem witness_PackAppendsCodeStream :
    ({ ready .pack [] with inPtr := 1 } : State).inRegionOk = false ∧
      ((readyAt .pack 9 8).inRegionOk = true ∧ (readyAt .pack 9 8).outRegionOk = false) ∧
      ((readyAt .pack 8 8).outRegionOk = true ∧ (readyAt .pack 8 8).tree = none) ∧
      (ready .pack [0x61, 0x62]).regionIs [0x61, 0x62] ∧
      (∀ v ∈ [0x61, 0x62], v ∈ abbaTree.leaves) ∧ (codeBits abbaTree [0x61, 0x62]).length = 2 ∧
      (readyAt .pack 8 8).outLen.toNat + (2 + 7) / 8 > 8 ∧
      (readyAt .pack 7 8).outLen.toNat + (2 + 7) / 8 ≤ 8 :=
  ⟨by decide, by decide, by decide, ready_regionIs _ (by decide), by decide, by decide, by decide,
    by decide⟩

theorem witness_PackRefusesByteWithoutLeaf :
    (ready .pack ([0x61] ++ 0x63 :: [0x61])).regionIs ([0x61] ++ 0x63 :: [0x61]) ∧
      (∀ v ∈ [0x61], v ∈ abbaTree.leaves) ∧ 0x63 ∉ abbaTree.leaves ∧
      (ready .pack []).outRegionOk = true :=
  ⟨ready_regionIs _ (by decide), by decide, by decide, by decide⟩

/-- "abba" packs to the byte 09. -/
theorem abba_packed : packBits (codeBits abbaTree [0x61, 0x62, 0x62, 0x61]) = [0x09] := by
  decide +kernel

/-- UNPACK is pending over `d`, with the "abba" tree and ORIG_LEN = `n`. -/
def readyToUnpack (d : List Byte) (n : DWord) : State :=
  { ready .unpack d with tree := some abbaTree, origLen := n }

theorem readyToUnpack_paramsOk (d : List Byte) (n : DWord) :
    (readyToUnpack d n).paramsOk = true := ready_paramsOk .unpack d

/-- V-BS5: three bytes of "abba" over the body 09, whose bit 3 is nonzero padding then. -/
theorem abb_body : startsWithBits [0x09] (codeBits abbaTree [0x61, 0x62, 0x62]) := by
  rw [show codeBits abbaTree [0x61, 0x62, 0x62] = [true, false, false] by decide]
  intro k hk
  have : k < 3 := hk
  interval_cases k <;> exact ⟨0x09, rfl, rfl⟩

/-- Clause 1 with nonzero padding. -/
theorem witness_UnpackInvertsPack :
    (readyToUnpack ([0x09] ++ [0xFF]) 3).regionStarts [0x09] ∧
      startsWithBits [0x09] (codeBits abbaTree [0x61, 0x62, 0x62]) ∧
      (∀ v ∈ [0x61, 0x62, 0x62], v ∈ abbaTree.leaves) ∧
      (readyToUnpack ([0x09] ++ [0xFF]) 3).origLen.toNat = 3 ∧
      (readyToUnpack ([0x09] ++ [0xFF]) 3).outLen.toNat + 3 ≤ 65536 :=
  ⟨(loaded_regionIs rfl rfl rfl rfl (by decide)).starts, abb_body, by decide, by decide, by decide⟩

/-- PACK is pending over "abba", with its tree. -/
def readyToPack : State := { ready .pack [0x61, 0x62, 0x62, 0x61] with tree := some abbaTree }

/-- Clause 2: PACK of "abba" appends the byte 09, and UNPACK is pending over it. -/
theorem witness_UnpackInvertsPack_pack :
    readyToPack.regionIs [0x61, 0x62, 0x62, 0x61] ∧ readyToPack.paramsOk = true ∧
      (∃ s', exec .pack readyToPack = .next s' ∧ s'.resultCode = .ok ∧
        s'.obuf.holds readyToPack.outLen.toNat [0x09] ∧
        s'.outLen.toNat = readyToPack.outLen.toNat + [(0x09 : Byte)].length) ∧
      (readyToUnpack ([0x09] ++ []) 4).regionStarts [0x09] := by
  have hr : readyToPack.regionIs [0x61, 0x62, 0x62, 0x61] :=
    loaded_regionIs rfl rfl rfl rfl (by decide)
  have hs := packStep_region hr (by decide) rfl (by decide)
  rw [abba_packed, output_ok (by decide), andThen_ok rfl] at hs
  exact ⟨hr, ready_paramsOk .pack [0x61, 0x62, 0x62, 0x61],
    ⟨_, (exec_eq _ _).trans (finish_ok (p := readyPend .pack) rfl hs), rfl,
      Memory.holds_of_stored (Memory.writeBytes_stored [] 0 [0x09]), by decide⟩,
    (loaded_regionIs rfl rfl rfl rfl (by decide)).starts⟩

theorem witness_UnpackWithoutReadingBits :
    ({ ready .unpack [] with inPtr := 1 } : State).inRegionOk = false ∧
      (readyAt .unpack 9 8).outRegionOk = false ∧
      ((readyAt .unpack 8 8).outRegionOk = true ∧ (readyAt .unpack 8 8).tree = none) ∧
      (readyAt .unpack 8 8).outLen.toNat + (1 : DWord).toNat > 8 ∧
      (readyAt .unpack 7 8).outLen.toNat + (1 : DWord).toNat ≤ 8 ∧
      (readyToUnpack [] 0).origLen = 0 := by
  decide

theorem witness_UnpackTruncatedBody :
    (readyToUnpack [] 1).runs (readyPend .unpack) ∧ (readyToUnpack [] 1).paramsOk = true ∧
      (readyToUnpack [] 1).regionIs ((packBits (codeBits abbaTree [0x61])).take 0) ∧
      (codeBits abbaTree ([0x61].take 0)).length ≤ 8 * 0 ∧
      8 * 0 < (codeBits abbaTree ([0x61].take 1)).length :=
  ⟨⟨rfl, rfl, rfl⟩, readyToUnpack_paramsOk _ _,
    loaded_regionIs (d := []) rfl rfl rfl rfl (by decide), by decide, by decide⟩

/-! ### COMPRESS and DECOMPRESS -/

/-- "abba". -/
def abba : List Byte := [0x61, 0x62, 0x62, 0x61]

theorem abba_build : buildTree (countBytes abba) = some abbaTree := by decide +kernel

theorem abba_artifact : artifact abbaTree abba = abbaArtifact := by decide +kernel

theorem witness_CompressWritesArtifact :
    (ready .compress abba).runs (readyPend .compress) ∧ (ready .compress abba).paramsOk = true ∧
      (ready .compress abba).regionIs abba ∧ abba ≠ [] ∧
      (ready .compress abba).outLen.toNat + abbaArtifact.length ≤ 65536 :=
  ⟨ready_runs _ _, ready_paramsOk _ _, ready_regionIs _ (by decide), by decide, by decide⟩

/-- One size for each step that can overflow: SERIALIZE (56 bytes), WRLEN (8 more), PACK (1 more). -/
theorem witness_CompressOverflowKeepsFinishedSteps :
    (ready .compress abba).outRegionOk = true ∧ buildTree (countBytes abba) = some abbaTree ∧
      abbaTree.ser = some abbaBlob ∧ (artifact abbaTree abba).length = 65 ∧
      (55 < 56 ∧ 55 < 65) ∧ (56 ≤ 56 ∧ 63 < 56 + 8 ∧ 63 < 65) ∧ (56 + 8 ≤ 64 ∧ 64 < 65) :=
  ⟨by decide, abba_build, abbaTree_ser, by rw [abba_artifact]; decide, by decide, by decide, by decide⟩

theorem witness_CompressChecks :
    ({ ready .compress [] with inPtr := 1 } : State).inRegionOk = false ∧
      ((readyAt .compress 9 8).inRegionOk = true ∧ (readyAt .compress 9 8).outRegionOk = false) ∧
      (readyAt .compress 8 8).inRegionOk = true ∧ (readyAt .compress 8 8).outRegionOk = true ∧
      (readyAt .compress 8 8).inPtr = (readyAt .compress 8 8).inLen := by
  decide

theorem witness_CompressSingleSymbol :
    (ready .compress [7]).runs (readyPend .compress) ∧ (ready .compress [7]).paramsOk = true ∧
      (ready .compress [7]).regionIs (List.replicate 1 7) ∧
      (ready .compress [7]).outLen.toNat + 27 ≤ 65536 :=
  ⟨ready_runs _ _, ready_paramsOk _ _, ready_regionIs _ (by decide), by decide⟩

/-- The body 09 for the three bytes "abb": its bit 3 is nonzero padding. -/
theorem witness_DecompressReadsArtifact :
    (ready .decompress (abbaBlob ++ toBE 8 3 ++ [0x09] ++ [0xFF])).runs (readyPend .decompress) ∧
      (ready .decompress (abbaBlob ++ toBE 8 3 ++ [0x09] ++ [0xFF])).regionStarts
        (abbaBlob ++ toBE 8 [(0x61 : Byte), 0x62, 0x62].length ++ [0x09]) ∧
      startsWithBits [0x09] (codeBits abbaTree [0x61, 0x62, 0x62]) ∧
      abbaTree.wf = true ∧ abbaTree.ser = some abbaBlob ∧
      (∀ v ∈ [0x61, 0x62, 0x62], v ∈ abbaTree.leaves) ∧
      (ready .decompress (abbaBlob ++ toBE 8 3 ++ [0x09] ++ [0xFF])).outLen.toNat + 3 ≤ 65536 :=
  ⟨ready_runs _ _, loaded_regionStarts _ [0xFF] (by decide), abb_body, by decide, abbaTree_ser,
    by decide, by decide⟩

theorem witness_DecompressInvertsCompress :
    (∃ s', exec .compress (ready .compress abba) = .next s' ∧
      s'.resultCode = .ok ∧ s'.obuf.holds 0 abbaArtifact ∧
      s'.outLen.toNat = 0 + abbaArtifact.length) ∧
    (ready .decompress abbaArtifact).runs (readyPend .decompress) ∧
    (ready .decompress abbaArtifact).regionIs abbaArtifact := by
  refine ⟨?_, ready_runs _ _, ready_regionIs _ (by decide)⟩
  obtain ⟨s', hs⟩ := exec_isNext .compress (ready .compress abba)
  have hr : run .compress (loaded abba) = some s' := by
    rw [run]
    exact congrArg nextOf hs
  have h := test_compress
  rw [after, show run .compress (loaded [0x61, 0x62, 0x62, 0x61]) = some s' from hr] at h
  simp only [Option.any_some, Bool.and_eq_true, beq_iff_eq, outputIs, resultIs] at h
  obtain ⟨⟨⟨⟨ho, hl⟩, _⟩, _⟩, hres, _⟩ := h
  refine ⟨s', hs, ?_, ?_, by rw [hl]; decide⟩
  · unfold State.resultWord at hres
    revert hres
    generalize s'.resultOpcode = op
    cases s'.resultCode <;> revert op <;> decide +kernel
  · refine Memory.holds_iff.mpr fun i hi => ?_
    have := congrArg (fun l => l[i]?) ho
    simpa [List.getElem?_map, List.getElem?_range hi, List.getElem?_eq_getElem hi] using this

/-- One conjunct for each clause: the two checks, DESERIALIZE's FormatError, the missing length field, a
length of 65537 bytes, and a body of no bytes for one byte of output. -/
theorem witness_DecompressKeepsFinishedSteps :
    ({ ready .decompress [] with inPtr := 1 } : State).inRegionOk = false ∧
      (readyAt .decompress 9 8).outRegionOk = false ∧
      ((ready .decompress []).inRegionOk = true ∧ (ready .decompress []).outRegionOk = true ∧
        abortsWith (.deserialize false) (ready .decompress []) .formatError = true) ∧
      ((ready .decompress (abbaBlob ++ List.replicate 7 0)).regionStarts abbaBlob ∧
        (ready .decompress (abbaBlob ++ List.replicate 7 0)).regionLen < abbaBlob.length + 8) ∧
      ((ready .decompress ((abbaBlob ++ toBE 8 65537) ++ [])).regionStarts
        (abbaBlob ++ toBE 8 65537) ∧ (ready .decompress []).outLen.toNat + 65537 > 65536) ∧
      ((ready .decompress (abbaBlob ++ toBE 8 1)).regionIs
        (abbaBlob ++ toBE 8 [(0x61 : Byte)].length ++
          (packBits (codeBits abbaTree [0x61])).take 0) ∧
        (codeBits abbaTree ([0x61].take 0)).length ≤ 8 * 0 ∧
        8 * 0 < (codeBits abbaTree ([0x61].take 1)).length) :=
  ⟨by decide, by decide, ⟨by decide, by decide, by decide +kernel⟩,
    ⟨loaded_regionStarts _ _ (by decide), by decide⟩,
    ⟨loaded_regionStarts _ _ (by decide), by decide⟩,
    by rw [List.take_zero, List.append_nil]; exact ready_regionIs _ (by decide), by decide,
    by decide⟩

theorem witness_CompositesCarryNothingOver :
    ∃ s' t', exec .compress (ready .compress abba) = .next s' ∧
      exec .compress { ready .compress abba with tree := some twinTree, origLen := 9 } =
        .next t' := by
  obtain ⟨s', hs⟩ := exec_isNext .compress (ready .compress abba)
  obtain ⟨t', ht⟩ :=
    exec_isNext .compress { ready .compress abba with tree := some twinTree, origLen := 9 }
  exact ⟨s', t', hs, ht⟩

/-! ### The bus -/

theorem witness_RegisterReadsFollowMap :
    (0x04C % 4 = 0) ∧ (0x0A0 % 4 = 0 ∧ 0x0A0 ≤ 0x0A0) ∧ (0xFFC % 4 = 0 ∧ 0xFFC ≤ 0xFFC) ∧ 7 < 8 ∧
      (0x00C % 4 = 0 ∧ 0x00C ≤ 0x00C) ∧ 0x038 ≤ 0x038 := by
  decide

theorem witness_StatusWordBits : (8 ≤ 8) ∧ 8 ≤ 31 := by decide

/-- Every result code is some state's. -/
theorem witness_ResultWordAndCodes :
    (∀ c : ResultCode, ({ State.reset with resultCode := c } : State).resultCode = c) ∧ 16 ≤ 16 :=
  ⟨fun _ => rfl, by decide⟩

theorem witness_StepPerformsHostAccess :
    ({ State.reset with agenda := [scriptR32 .id] } : State).agenda =
      [.access ⟨.read, 0x00000000, .word, 0⟩] := rfl

theorem witness_OperandRegisterWrites : State.reset.pend = none := rfl

theorem witness_BusErrorsExactly :
    (State.reset.hostAccess ⟨.read, 0xC0000000, .word, 0⟩).2.resp = .error := by
  decide +kernel

/-- IBUF and OBUF at their first and last bytes and words. -/
theorem witness_BufferAccesses :
    State.reset.pend = none ∧ State.reset.paramsOk = true ∧ 65535 < State.reset.ibufSize ∧
      (65532 % 4 = 0 ∧ 65532 + 4 ≤ State.reset.obufSize) ∧
      (loaded [0x5A]).ibuf.read? 0 = some 0x5A ∧
      (loaded [1, 2, 3, 4]).ibuf.holds 0 [1, 2, 3, 4] ∧
      ({ State.reset with obuf := [(0, 1)] } : State).obuf.read? 0 = some 1 ∧
      ({ State.reset with obuf := [(0, 1), (1, 2), (2, 3), (3, 4)] } : State).obuf.holds 0
        [1, 2, 3, 4] :=
  ⟨rfl, ready_paramsOk .nop [], by decide, by decide, by decide,
    ⟨rfl, rfl, rfl, rfl, trivial⟩, rfl, rfl, rfl, rfl, rfl, trivial⟩

theorem witness_FreqWindowReadsCounters : State.reset.pend = none ∧ 3 < 4 := by decide

theorem witness_TreeSummaryRegisters :
    State.reset.tree = none ∧ (readyForPath 0).tree = some concreteTree ∧
      concreteTree.wf = true := by
  decide

theorem witness_BusyAccessesRefused :
    (ready .nop []).busy = true ∧
      ((ready .nop []).hostAccess ⟨.read, 0x1000, .word, 0⟩).2.resp = .okay ∧
      ((ready .nop []).hostAccess ⟨.write, 0x034, .word, 9⟩).2.resp = .okay ∧
      ((ready .nop []).hostAccess ⟨.write, 0x8000FFFF, .byte, 9⟩).2.resp = .okay := by
  decide +kernel

theorem witness_HostCannotDisturbCommand :
    (∃ p, (ready .compress abba).pend = some p) ∧ ∃ u u',
      exec .compress (ready .compress abba) = .next u ∧
      exec .compress ([⟨.write, 0x40000000, .byte, 0⟩, ⟨.write, 0x018, .word, 0⟩].foldl
        (fun s t => (s.hostAccess t).1) (ready .compress abba)) = .next u' := by
  obtain ⟨u, hu⟩ := exec_isNext .compress (ready .compress abba)
  obtain ⟨u', hu'⟩ := exec_isNext .compress ([⟨.write, 0x40000000, .byte, 0⟩,
    ⟨.write, 0x018, .word, 0⟩].foldl (fun s t => (s.hostAccess t).1) (ready .compress abba))
  exact ⟨⟨_, rfl⟩, u, u', hu, hu'⟩

end Sys2Proof.Tests
end

section
/-! The invariant at reset: the reset state of a block with legal buffer sizes meets `State.Inv`
(00_scope.md R9, 70_reset_and_hazards.md R361). -/

namespace Sys2Proof.Machine

/-- Only the buffer sizes are free at reset; FREQ is all 0, so its total is inside any IBUF_SIZE. -/
theorem State.resetWith_settled {n m : Nat} (hp : (State.resetWith n m).paramsOk = true) :
    (State.resetWith n m).Settled where
  params := hp
  buffers := State.buffersOk_iff.mpr ⟨rfl, rfl, rfl, rfl⟩
  tree := rfl
  freq := by
    have ht : (State.resetWith n m).freq.total = 0 := FreqTable.total_zero
    simp [State.freqOk, ht]
  path := by simp [State.pathOk, State.resetWith]

/-- No command is pending at reset, so the clause on PEND holds of itself. -/
theorem State.resetWith_inv {n m : Nat} (hp : (State.resetWith n m).paramsOk = true) :
    (State.resetWith n m).Inv :=
  (State.resetWith_settled hp).inv rfl

/-- Settles O14: the two sizes of `State.reset` (log 1) are one legal pair. -/
theorem invariantHoldsAtReset : Obligations.InvariantHoldsAtReset := by
  unfold Obligations.InvariantHoldsAtReset
  constructor
  · exact State.resetWith_inv (State.paramsOk_iff.mpr (by decide))
  · intro n m hn hn' hm hm'
    exact State.resetWith_inv (State.paramsOk_iff.mpr ⟨hn, hn', hm, hm'⟩)

end Sys2Proof.Machine
end

section
/-! Every step keeps the invariant: the engine's turn ends in a completion, which leaves no command
pending; a host access writes the enables, the W1C bits, the operands of an idle block, CMD or
buffer bytes; the reset input leaves a reset state. -/

namespace Sys2Proof.Machine

/-! ### The engine's turn -/

theorem clearState_settled {s : State} (h : s.Settled) : (clearState s).Settled :=
  ⟨h.params, h.buffers, rfl, by simp [State.freqOk, clearState, FreqTable.total_zero],
    by simp [State.pathOk, clearState]⟩

theorem bothChecks_settled {s : State} (h : s.Settled) :
    ((inCheck s).andThen outCheck).All State.Settled :=
  (bothChecks_spec s).imp (by rintro _ ⟨_, _, rfl⟩; exact h) (by rintro _ _ _ ⟨rfl, _⟩; exact h)

theorem emptyRegionCheck_settled {s : State} (h : s.Settled) :
    (emptyRegionCheck s).All State.Settled :=
  (emptyRegionCheck_spec s).imp (by rintro _ ⟨_, rfl⟩; exact h) (by rintro _ _ _ ⟨rfl, _⟩; exact h)

theorem bodyOf_settled (i : Instr) {s : State} (h : s.Settled) :
    (bodyOf i s).All State.Settled := by
  cases i with
  | nop => exact h
  | clear => exact clearState_settled h
  | count => exact countStep_settled h
  | build => exact buildStep_settled h
  | path v => exact pathStep_settled v h
  | serialize => exact serializeStep_settled h
  | deserialize e => exact deserializeStep_settled e h
  | wrlen => exact wrlenStep_settled h
  | rdlen => exact rdlenStep_settled h
  | pack => exact packStep_settled h
  | unpack => exact unpackStep_settled h
  | compress =>
    exact ((bothChecks_settled h).andThen fun _ => emptyRegionCheck_settled).andThen
      fun _ => compressSteps_settled
  | decompress => exact (bothChecks_settled h).andThen fun _ => decompressSteps_settled

theorem State.pendOk_of_idle {s : State} (h : s.pend = none) : s.pendOk = true := by
  rw [State.pendOk, h]

/-- A completion leaves PEND idle (60_exceptions.md R321), whatever the cursors have become. -/
theorem StepResult.finish_inv {r : StepResult} {s' : State} (hr : r.All State.Settled)
    (h : r.finish = .next s') : s'.Inv := by
  cases r with
  | ok u =>
    have hu : u.Settled := hr
    obtain rfl := Host.Outcome.next.inj h
    exact ⟨hu.params, hu.buffers, hu.tree, hu.freq, rfl, hu.path⟩
  | err code info u =>
    have hu : u.Settled := hr
    obtain rfl := Host.Outcome.next.inj h
    exact ⟨hu.params, hu.buffers, hu.tree, hu.freq, rfl, hu.path⟩

theorem engineTurn_inv {s s' : State} (hs : s.Inv) (h : engineTurn s = .next s') : s'.Inv := by
  unfold engineTurn at h
  split at h
  · obtain rfl := Host.Outcome.next.inj h
    exact hs
  · split at h
    · next i _ =>
      rw [exec_eq] at h
      exact StepResult.finish_inv (bodyOf_settled i hs.settled) h
    · exact StepResult.finish_inv (r := .err _ _ s) hs.settled h

/-! ### A host access -/

/-- The fields that the invariant does not read at all. -/
theorem State.Inv.withHostFields {s : State} (h : s.Inv)
    (ieDone ieErr err hostConflict cmdDropped : Bool) (response : Option Response) (draws : Nat)
    (agenda : List Event) :
    { s with
      ieDone := ieDone, ieErr := ieErr, err := err, hostConflict := hostConflict,
      cmdDropped := cmdDropped, response := response, draws := draws, agenda := agenda }.Inv :=
  ⟨h.params, h.buffers, h.tree, h.freq, h.pend, h.path⟩

/-- Clearing DONE cannot break the clause on PEND, which asks for DONE = 0. -/
theorem State.Inv.acknowledge {s : State} (h : s.Inv) (w : Word) : (s.acknowledge w).Inv := by
  refine ⟨h.params, h.buffers, h.tree, h.freq, ?_, h.path⟩
  have hp := h.pend
  unfold State.pendOk at hp ⊢
  rw [State.acknowledge_pend]
  cases hs : s.pend with
  | none => rfl
  | some p =>
    simp only [hs, Bool.and_eq_true, Bool.not_eq_true'] at hp
    obtain ⟨hcursors, hdone⟩ := hp
    simp only [Bool.and_eq_true, State.acknowledge_done, hdone, Bool.false_and, Bool.not_false]
    exact ⟨hcursors, trivial⟩

/-- An acceptance records the word and the cursors in PEND and clears DONE (40_control.md R171). -/
theorem State.Inv.accept {s : State} (h : s.Inv) (w : Word) : (s.accept w).Inv :=
  ⟨h.params, h.buffers, h.tree, h.freq, by simp [State.pendOk], h.path⟩

/-- A running command refuses the write of an operand, so it takes effect only where PEND is idle
(70_reset_and_hazards.md R373). -/
theorem State.Inv.writeOperand {s t : State} (h : s.Inv) (ht : t.Settled) (hp : t.pend = s.pend) :
    (s.writeOperand t).Inv := by
  unfold State.writeOperand
  split_ifs with hb
  · exact h.withHostFields ..
  · refine ht.inv (State.pendOk_of_idle ?_)
    simpa [State.busy, hp] using hb

theorem State.Inv.writeReg {s : State} (h : s.Inv) (r : Reg) (w : Word) : (s.writeReg r w).Inv := by
  have hop : ∀ {t : State}, t.Settled → t.pend = s.pend → (s.writeOperand t).Inv := h.writeOperand
  have hs := h.settled
  cases r with
  | ctrl => exact h.withHostFields ..
  | status => exact h.acknowledge w
  | cmd =>
    simp only [State.writeReg]
    split_ifs
    · exact h.withHostFields ..
    · exact h.accept w
  | inLen => exact hop (hs.of_eq rfl rfl rfl rfl rfl rfl rfl rfl rfl) rfl
  | inPtr => exact hop (hs.of_eq rfl rfl rfl rfl rfl rfl rfl rfl rfl) rfl
  | outLen => exact hop (hs.of_eq rfl rfl rfl rfl rfl rfl rfl rfl rfl) rfl
  | origLenLo => exact hop (hs.of_eq rfl rfl rfl rfl rfl rfl rfl rfl rfl) rfl
  | origLenHi => exact hop (hs.of_eq rfl rfl rfl rfl rfl rfl rfl rfl rfl) rfl
  | id | version | ibufSizeReg | obufSizeReg | result | errInfo | bitLenLo | bitLenHi | nLeaves
  | blobLen | pathLen | rootWeight _ | pathBits _ | leafMap _ | reserved => exact h

/-- A write that the block takes stores inside its buffer (20_memory.md R85, R86). -/
theorem State.Inv.writeTarget {s : State} (h : s.Inv) {addr : Word} {size : Size} (w : Word)
    (ht : s.takes (s.target addr) size = true) : (s.writeTarget (s.target addr) size w).Inv := by
  obtain ⟨hwi, hii, hwo, hio⟩ := State.buffersOk_iff.mp h.buffers
  cases htg : s.target addr with
  | register off => exact h.writeReg _ w
  | freqWindow off => exact h
  | unmapped => exact h
  | ibuf a =>
    have hin := (State.target_ibuf htg (htg ▸ ht)).2
    refine { h with
      buffers := State.buffersOk_iff.mpr ⟨Memory.wf_writeBytes _ _ hwi, ?_, hwo, hio⟩ }
    exact Memory.within_writeBytes _ _ (by rwa [littleEndian_length]) hii
  | obuf a =>
    have hin := (State.target_obuf htg (htg ▸ ht)).2
    refine { h with
      buffers := State.buffersOk_iff.mpr ⟨hwi, hii, Memory.wf_writeBytes _ _ hwo, ?_⟩ }
    exact Memory.within_writeBytes _ _ (by rwa [littleEndian_length]) hio

theorem State.Inv.hostAccess {s : State} (h : s.Inv) (t : Transaction) :
    (s.hostAccess t).1.Inv := by
  obtain he | he | ⟨ht, -, -, he⟩ := s.hostAccess_fst_cases t
  · rwa [he]
  · rw [he]
    exact h.withHostFields ..
  · rw [he]
    exact h.writeTarget t.wdata ht

theorem State.Inv.hostTurn {s : State} (h : s.Inv) (t : Transaction) : (s.hostTurn t).Inv :=
  (h.hostAccess t).withHostFields ..

/-! ### The step -/

theorem State.Inv.resetInput {s : State} (h : s.Inv) : s.resetInput.Inv :=
  (State.resetWith_inv (n := s.ibufSize) (m := s.obufSize) h.params).withHostFields ..

/-- Settles O15, event by event; taking the event off the agenda and opening a new draw epoch
changes no field that the invariant reads. -/
theorem everyStepKeepsInvariant : Obligations.EveryStepKeepsInvariant := by
  unfold Obligations.EveryStepKeepsInvariant
  intro s s' hs h
  have hturn : ∀ rest, (s.freshEpoch.withAgenda rest).Inv := fun _ => hs.withHostFields ..
  unfold step at h
  split at h
  · exact engineTurn_inv (hs.withHostFields ..) h
  · exact engineTurn_inv (hturn _) h
  · obtain rfl := Host.Outcome.next.inj h
    exact (hturn _).hostTurn _
  · obtain rfl := Host.Outcome.next.inj h
    exact (hturn _).resetInput

end Sys2Proof.Machine
end

section
/-! The frame of every command (10_state.md R24, column "written by commands"). -/

namespace Sys2Proof.Machine

/-- The state that some command writes before its completion; `path` is PATH_FOUND, PATH_LEN and
PATH_BITS together, which no command writes apart. -/
inductive CommandField where
  | inLen | inPtr | outLen | origLen | bitLen | tree | freq | path | obuf

/-- The field holds in `s'` what it holds in `s`. -/
def CommandField.Same (s s' : State) : CommandField → Prop
  | .inLen => s'.inLen = s.inLen
  | .inPtr => s'.inPtr = s.inPtr
  | .outLen => s'.outLen = s.outLen
  | .origLen => s'.origLen = s.origLen
  | .bitLen => s'.bitLen = s.bitLen
  | .tree => s'.tree = s.tree
  | .freq => s'.freq = s.freq
  | .path => s'.pathFound = s.pathFound ∧ s'.pathLen = s.pathLen ∧ s'.pathBits = s.pathBits
  | .obuf => s'.obuf = s.obuf

/-- From `s` to `s'` at most the fields in `W` have been written. -/
def SameOff (W : List CommandField) (s s' : State) : Prop :=
  ∀ f, f ∉ W → f.Same s s'

theorem CommandField.Same.refl (f : CommandField) (s : State) : f.Same s s := by
  cases f <;> simp [CommandField.Same]

theorem CommandField.Same.trans {f : CommandField} {a b c : State} (h1 : f.Same a b)
    (h2 : f.Same b c) : f.Same a c := by
  cases f <;> simp_all [CommandField.Same]

theorem SameOff.refl (W : List CommandField) (s : State) : SameOff W s s :=
  fun f _ => .refl f s

theorem SameOff.trans {W : List CommandField} {a b c : State} (h1 : SameOff W a b)
    (h2 : SameOff W b c) : SameOff W a c :=
  fun f hf => (h1 f hf).trans (h2 f hf)

theorem SameOff.mono {V W : List CommandField} {s s' : State} (hVW : V ⊆ W)
    (h : SameOff V s s') : SameOff W s s' :=
  fun f hf => h f fun hV => hf (hVW hV)

/-! ### What each step writes -/

theorem emit_writes (b : List Byte) (s : State) : SameOff [.outLen, .obuf] s (s.emit b) := by
  intro f hf
  cases f <;> simp_all [CommandField.Same]

theorem forgetOutput_writes (s : State) : SameOff [.obuf] s s.forgetOutput := by
  intro f hf
  cases f <;> simp_all [CommandField.Same]

theorem countStep_writes (s : State) : (countStep s).All (SameOff [.origLen, .freq] s) :=
  (countStep_spec s).imp
    (by rintro _ ⟨_, rfl⟩ f hf; cases f <;> simp_all [CommandField.Same])
    (by rintro _ _ _ ⟨_, _, _, rfl⟩; exact .refl _ _)

theorem buildStep_writes (s : State) : (buildStep s).All (SameOff [.tree] s) :=
  (buildStep_spec s).imp
    (by rintro _ ⟨_, _, rfl⟩ f hf; cases f <;> simp_all [CommandField.Same])
    (by rintro _ _ _ ⟨_, _, _, rfl⟩ f hf; cases f <;> simp_all [CommandField.Same])

theorem pathStep_writes (v : Byte) (s : State) : (pathStep v s).All (SameOff [.path] s) :=
  (pathStep_spec v s).imp
    (by
      rintro _ ⟨_, _, ⟨_, _, rfl⟩ | ⟨_, rfl⟩⟩ f hf
      all_goals cases f <;> simp_all [CommandField.Same])
    (by rintro _ _ _ ⟨_, _, _, rfl⟩; exact .refl _ _)

theorem serializeStep_writes (s : State) :
    (serializeStep s).All (SameOff [.outLen, .obuf] s) :=
  (serializeStep_spec s).imp (by rintro _ ⟨_, _, _, _, _, _, rfl⟩; exact emit_writes _ _)
    (by rintro _ _ _ ⟨rfl, _⟩; exact .refl _ _)

theorem deserializeStep_writes (exact : Bool) (s : State) :
    (deserializeStep exact s).All (SameOff [.inPtr, .tree] s) :=
  (deserializeStep_spec exact s).imp
    (by rintro _ ⟨_, _, _, _, _, _, rfl⟩ f hf; cases f <;> simp_all [CommandField.Same])
    (by
      rintro _ _ _ (⟨_, _, _, rfl⟩ | ⟨_, _, rfl, _⟩)
      · exact .refl _ _
      · intro f hf; cases f <;> simp_all [CommandField.Same])

theorem wrlenStep_writes (s : State) : (wrlenStep s).All (SameOff [.outLen, .obuf] s) :=
  (wrlenStep_spec s).imp (by rintro _ ⟨_, _, rfl⟩; exact emit_writes _ _)
    (by rintro _ _ _ ⟨rfl, _⟩; exact .refl _ _)

theorem rdlenStep_writes (s : State) : (rdlenStep s).All (SameOff [.inPtr, .origLen] s) :=
  (rdlenStep_spec s).imp
    (by rintro _ ⟨_, _, rfl⟩ f hf; cases f <;> simp_all [CommandField.Same])
    (by rintro _ _ _ ⟨rfl, _⟩; exact .refl _ _)

theorem packStep_writes (s : State) :
    (packStep s).All (SameOff [.outLen, .bitLen, .obuf] s) :=
  (packStep_spec s).imp
    (by rintro _ ⟨_, _, _, _, _, _, rfl⟩ f hf; cases f <;> simp_all [CommandField.Same])
    (by rintro _ _ _ ⟨rfl, _⟩; exact .refl _ _)

theorem unpackStep_writes (s : State) :
    (unpackStep s).All (SameOff [.inPtr, .outLen, .bitLen, .obuf] s) :=
  (unpackStep_spec s).imp
    (by rintro _ ⟨_, _, _, _, _, _, _, _, rfl⟩ f hf; cases f <;> simp_all [CommandField.Same])
    (by
      rintro _ _ _ (⟨rfl, _⟩ | ⟨rfl, _⟩)
      · exact .refl _ _
      · exact (forgetOutput_writes s).mono (by simp))

/-! ### What each command writes -/

/-- The fields that each command may write (10_state.md R24). -/
def writtenBy : Instr → List CommandField
  | .nop => []
  | .clear => [.inLen, .inPtr, .outLen, .origLen, .bitLen, .tree, .freq, .path]
  | .count => [.origLen, .freq]
  | .build => [.tree]
  | .path _ => [.path]
  | .serialize => [.outLen, .obuf]
  | .deserialize _ => [.inPtr, .tree]
  | .wrlen => [.outLen, .obuf]
  | .rdlen => [.inPtr, .origLen]
  | .pack => [.outLen, .bitLen, .obuf]
  | .unpack => [.inPtr, .outLen, .bitLen, .obuf]
  | .compress => [.outLen, .origLen, .bitLen, .tree, .freq, .obuf]
  | .decompress => [.inPtr, .outLen, .origLen, .bitLen, .tree, .obuf]

theorem StepResult.Spec.all_mono {V W : List CommandField} {s : State} {r : StepResult}
    (hVW : V ⊆ W) (h : r.All (SameOff V s)) : r.All (SameOff W s) :=
  h.imp (fun _ h => h.mono hVW) fun _ _ _ h => h.mono hVW

/-- The next step of a sequence writes what it writes by itself. -/
theorem SameOff.andThen {V W : List CommandField} {s : State} {r : StepResult}
    {f : State → StepResult} (hr : r.All (SameOff W s)) (hVW : V ⊆ W)
    (hf : ∀ s, (f s).All (SameOff V s)) : (r.andThen f).All (SameOff W s) :=
  StepResult.All.andThen hr fun u hu =>
    (hf u).imp (fun _ h => hu.trans (h.mono hVW)) fun _ _ _ h => hu.trans (h.mono hVW)

theorem SameOff.forgetOnError {W : List CommandField} {s : State} {r : StepResult}
    (hW : .obuf ∈ W) (hr : r.All (SameOff W s)) : r.forgetOnError.All (SameOff W s) := by
  cases r with
  | ok u => exact hr
  | err code info u => exact SameOff.trans hr ((forgetOutput_writes u).mono (by simpa using hW))

theorem compressSteps_writes (s : State) :
    (compressSteps s).All (SameOff (writtenBy .compress) s) := by
  have hcount := (countStep_writes s).all_mono (W := writtenBy .compress) (by simp [writtenBy])
  have hbuild := SameOff.andThen hcount (by simp [writtenBy]) buildStep_writes
  have hserialize := SameOff.andThen hbuild (by simp [writtenBy]) serializeStep_writes
  have hwrlen := SameOff.andThen hserialize (by simp [writtenBy]) wrlenStep_writes
  have hpack := SameOff.andThen hwrlen (by simp [writtenBy]) packStep_writes
  exact SameOff.forgetOnError (by simp [writtenBy]) hpack

theorem decompressSteps_writes (s : State) :
    (decompressSteps s).All (SameOff (writtenBy .decompress) s) := by
  have hdeserialize := (deserializeStep_writes false s).all_mono (W := writtenBy .decompress)
    (by simp [writtenBy])
  have hrdlen := SameOff.andThen hdeserialize (by simp [writtenBy]) rdlenStep_writes
  have hunpack := SameOff.andThen hrdlen (by simp [writtenBy]) unpackStep_writes
  exact SameOff.forgetOnError (by simp [writtenBy]) hunpack

theorem bothChecks_writes (W : List CommandField) (s : State) :
    ((inCheck s).andThen outCheck).All (SameOff W s) :=
  (bothChecks_spec s).imp (by rintro _ ⟨_, _, rfl⟩; exact .refl _ _)
    (by rintro _ _ _ ⟨rfl, _⟩; exact .refl _ _)

theorem emptyRegionCheck_writes (s : State) : (emptyRegionCheck s).All (SameOff [] s) :=
  (emptyRegionCheck_spec s).imp (by rintro _ ⟨_, rfl⟩; exact .refl _ _)
    (by rintro _ _ _ ⟨rfl, _⟩; exact .refl _ _)

theorem bodyOf_writes (i : Instr) (s : State) : (bodyOf i s).All (SameOff (writtenBy i) s) := by
  cases i with
  | nop => exact SameOff.refl _ s
  | clear =>
    intro f hf
    cases f <;> simp_all [CommandField.Same, writtenBy, clearState]
  | count => exact countStep_writes s
  | build => exact buildStep_writes s
  | path v => exact pathStep_writes v s
  | serialize => exact serializeStep_writes s
  | deserialize e => exact deserializeStep_writes e s
  | wrlen => exact wrlenStep_writes s
  | rdlen => exact rdlenStep_writes s
  | pack => exact packStep_writes s
  | unpack => exact unpackStep_writes s
  | compress =>
    exact SameOff.andThen (SameOff.andThen (bothChecks_writes _ s) (by simp [writtenBy])
      emptyRegionCheck_writes) (by simp [writtenBy]) compressSteps_writes
  | decompress =>
    exact SameOff.andThen (bothChecks_writes _ s) (by simp [writtenBy]) decompressSteps_writes

/-- A completion writes none of these fields, except that an abort puts the cursors back, here to
where they stood when the command began to run (60_exceptions.md R326 point 1). -/
theorem exec_writes {i : Instr} {s s' : State} {p : Pending} (hp : s.runs p)
    (h : exec i s = .next s') : SameOff (writtenBy i) s s' := by
  obtain ⟨hpend, hin, hout⟩ := hp
  have hbody := bodyOf_writes i s
  obtain ⟨u, hu, -, rfl⟩ | ⟨code, info, u, hu, -, -, rfl⟩ := exec_next hpend h
  · rw [hu] at hbody
    have hbody : SameOff (writtenBy i) s u := hbody
    intro f hf
    have hfu := hbody f hf
    cases f <;> exact hfu
  · rw [hu] at hbody
    have hbody : SameOff (writtenBy i) s u := hbody
    intro f hf
    have hfu := hbody f hf
    cases f with
    | inPtr => exact hin
    | outLen => exact hout
    | inLen | origLen | bitLen | tree | freq | path | obuf => exact hfu

/-- Settles O10. What no command writes is `SameHostState` with the completion's own fields left
aside; the rest is `exec_writes`, read off field by field. -/
theorem commandsWriteOnlyTheirRegisters : Obligations.CommandsWriteOnlyTheirRegisters := by
  unfold Obligations.CommandsWriteOnlyTheirRegisters
  intro i s s' p hp h
  have hw := exec_writes hp h
  refine ⟨?_, fun _ => hw .inLen ?_, fun _ _ _ _ _ => hw .inPtr ?_,
    fun _ _ _ _ _ _ _ => hw .outLen ?_, fun _ _ _ _ _ => hw .origLen ?_,
    fun _ _ _ _ _ => hw .bitLen ?_, fun _ _ _ _ _ => hw .tree ?_, fun _ _ _ => hw .freq ?_,
    fun _ _ => hw .path ?_, fun _ _ _ _ _ _ => hw .obuf ?_⟩
  · obtain ⟨u, -, hu, rfl⟩ | ⟨code, info, u, -, -, hu, rfl⟩ := exec_next hp.1 h
    all_goals exact ⟨hu.ibufSize, hu.obufSize, hu.ieDone, hu.ieErr, hu.hostConflict, hu.cmdDropped,
      hu.cmd, hu.ibuf, hu.response, hu.draws, hu.agenda⟩
  -- a field whose writers are all excluded is not on the list of the command that is left
  all_goals cases i <;> simp_all [writtenBy]

end Sys2Proof.Machine
end

section
/-! Host reads and writes of the register file by register, and of the FREQ window
(10_state.md R21 to R42, R53). -/

namespace Sys2Proof.Machine

/-! ### One law for every register -/

theorem Reg.ofOffset_offset (r : Reg) : Reg.ofOffset r.offset = r := by
  cases r with
  | rootWeight j => decide +revert
  | pathBits j => decide +revert
  | leafMap j => decide +revert
  | id | version | ibufSizeReg | obufSizeReg | ctrl | status | cmd | result | errInfo | inLen
  | inPtr | outLen | origLenLo | origLenHi | bitLenLo | bitLenHi | nLeaves | blobLen | pathLen
  | reserved => rfl

theorem Reg.offset_lt (r : Reg) : r.offset < 0x1000 ∧ r.offset % 4 = 0 := by
  cases r with
  | rootWeight j | pathBits j | leafMap j =>
    simp only [Reg.offset]
    omega
  | id | version | ibufSizeReg | obufSizeReg | ctrl | status | cmd | result | errInfo | inLen
  | inPtr | outLen | origLenLo | origLenHi | bitLenLo | bitLenHi | nLeaves | blobLen | pathLen
  | reserved => decide

theorem State.reads_reg (s : State) (r : Reg) :
    s.reads (BitVec.ofNat 32 r.offset) (s.readReg r) := by
  have h := s.reads_register r.offset_lt.1 r.offset_lt.2
  rwa [Reg.ofOffset_offset] at h

theorem State.hostAccess_writeReg (s : State) (r : Reg) (w : Word) :
    (s.hostAccess ⟨.write, BitVec.ofNat 32 r.offset, .word, w⟩).1 = s.writeReg r w := by
  rw [s.hostAccess_writeRegister w r.offset_lt.1 r.offset_lt.2, Reg.ofOffset_offset]

theorem Reg.ofOffset_reserved {off : Nat} (h : off = 0x04C ∨ 0x0A0 ≤ off) :
    Reg.ofOffset off = .reserved := by
  obtain rfl | h := h
  · rfl
  · unfold Reg.ofOffset
    repeat rw [if_neg (by omega)]

theorem State.writeOperand_idle {s : State} (h : s.pend = none) (t : State) :
    s.writeOperand t = t := by
  simp [State.writeOperand, State.busy, h]

/-! ### The register map -/

/-- A register made of single bits, bit 0 first, is 0 above them. -/
theorem getLsbD_setWidth_ofBoolListLE {n : Nat} (l : List Bool) (hl : l.length ≤ n) (i : Nat) :
    ((BitVec.ofBoolListLE l).setWidth n).getLsbD i = l.getD i false := by
  rw [BitVec.getLsbD_setWidth, BitVec.getLsbD_ofBoolListLE]
  by_cases h : i < n
  · simp [h]
  · have hnone : l[i]? = none := List.getElem?_eq_none (by omega)
    simp [h, hnone]

/-- The two enables, then 0 (10_state.md R25). -/
theorem State.ctrlWord_getLsbD (s : State) (i : Nat) :
    s.ctrlWord.getLsbD i = [s.ieDone, s.ieErr].getD i false :=
  getLsbD_setWidth_ofBoolListLE _ (by simp) i

/-- Settles O47, register by register through `State.reads_reg`. -/
theorem registerReadsFollowMap : Obligations.RegisterReadsFollowMap := by
  unfold Obligations.RegisterReadsFollowMap
  intro s
  have hctrl : ∀ i, 2 ≤ i → s.ctrlWord.getLsbD i = false := fun i hi => by
    rw [State.ctrlWord_getLsbD, List.getD_eq_default _ _ (by simpa using hi)]
  refine ⟨s.reads_reg .id, s.reads_reg .version, s.reads_reg .ibufSizeReg, s.reads_reg .obufSizeReg,
    ⟨_, s.reads_reg .ctrl, s.ctrlWord_getLsbD 0, s.ctrlWord_getLsbD 1, hctrl⟩,
    s.reads_reg .cmd, s.reads_reg .errInfo, s.reads_reg .inLen, s.reads_reg .inPtr,
    s.reads_reg .outLen, s.reads_reg .origLenLo, s.reads_reg .origLenHi, s.reads_reg .bitLenLo,
    s.reads_reg .bitLenHi, ⟨_, s.reads_reg .pathLen, ?_⟩,
    fun j hj => s.reads_reg (.pathBits ⟨j, hj⟩), ?_, ?_⟩
  · exact BitVec.toNat_setWidth_of_le (by decide)
  · intro off h4 hoff
    have h := s.reads_register (off := off) (by omega) h4
    rwa [Reg.ofOffset_reserved (by omega)] at h
  · intro off w h4 hoff
    have hignored := s.writeReg_ignored w (off := off) (by simp; omega)
    rw [s.hostAccess_writeRegister w (by omega) h4]
    exact ⟨hignored, rfl⟩

/-! ### STATUS, CTRL, RESULT -/

/-- The eight status bits, then 0 (10_state.md R26). -/
theorem State.statusWord_getLsbD (s : State) (i : Nat) :
    s.statusWord.getLsbD i = [s.busy, s.done, s.err, s.treeValid, s.pathFound, s.hostConflict,
      s.cmdDropped, s.irq].getD i false :=
  getLsbD_setWidth_ofBoolListLE _ (by simp) i

/-- Settles O48. -/
theorem statusWordBits : Obligations.StatusWordBits := by
  unfold Obligations.StatusWordBits
  intro s
  have hbit := s.statusWord_getLsbD
  refine ⟨rfl, _, s.reads_reg .status, hbit 0, hbit 1, hbit 2, hbit 3, hbit 4, hbit 5, hbit 6,
    hbit 7, fun i hi => ?_⟩
  exact (hbit i).trans (List.getD_eq_default _ _ (by simpa using hi))

/-- Settles O49: neither write is refused, so what a running command may change plays no part. -/
theorem statusAndCtrlWrites : Obligations.StatusAndCtrlWrites := by
  unfold Obligations.StatusAndCtrlWrites
  intro s w
  exact ⟨s.hostAccess_writeReg .status w, s.hostAccess_writeReg .ctrl w⟩

/-- RESULT's three fields (10_state.md R28). -/
theorem State.resultWord_fields (s : State) :
    s.resultWord.extractLsb' 0 8 = s.resultCode.toByte ∧
      s.resultWord.extractLsb' 8 8 = s.resultOpcode ∧
      ∀ i, 16 ≤ i → s.resultWord.getLsbD i = false := by
  refine ⟨BitVec.extractLsb'_append_eq_right, ?_, fun i hi => ?_⟩
  · rw [State.resultWord, BitVec.extractLsb'_append_eq_of_le (by decide)]
    exact BitVec.extractLsb'_append_eq_right
  · rw [State.resultWord, BitVec.getLsbD_append, if_neg (by omega), BitVec.getLsbD_append,
      if_neg (by omega), BitVec.ofNat_eq_ofNat, BitVec.getLsbD_zero]

/-- Settles O57. -/
theorem resultWordAndCodes : Obligations.ResultWordAndCodes := by
  unfold Obligations.ResultWordAndCodes
  intro s
  obtain ⟨hcode, hopcode, hzero⟩ := s.resultWord_fields
  refine ⟨_, s.reads_reg .result, hopcode, hzero, ?_⟩
  simp only [State.readReg]
  rw [hcode]
  refine ⟨?_, ?_, ?_, ?_, ?_, ?_, ?_, ?_, ?_, ?_⟩
  all_goals
    intro h
    rw [h]
    rfl

/-! ### The operand registers -/

/-- Settles O50. -/
theorem operandRegisterWrites : Obligations.OperandRegisterWrites := by
  unfold Obligations.OperandRegisterWrites
  intro s w hidle
  have hwrite : ∀ (r : Reg) (t : State), s.writeReg r w = s.writeOperand t →
      (s.hostAccess ⟨.write, BitVec.ofNat 32 r.offset, .word, w⟩).1 = t := fun r t ht => by
    rw [s.hostAccess_writeReg, ht, State.writeOperand_idle hidle]
  exact ⟨hwrite .inLen _ rfl, hwrite .inPtr _ rfl, hwrite .outLen _ rfl,
    ⟨_, hwrite .origLenLo _ rfl,
      BitVec.extractLsb'_append_eq_right, BitVec.extractLsb'_append_eq_left⟩,
    ⟨_, hwrite .origLenHi _ rfl,
      BitVec.extractLsb'_append_eq_left, BitVec.extractLsb'_append_eq_right⟩⟩

/-! ### The FREQ window -/

theorem State.target_freqWindow (s : State) {off : Nat} (h : off < 0x1000) :
    s.target (BitVec.ofNat 32 (0x1000 + off)) = .freqWindow off := by
  have hx : (BitVec.ofNat 32 (0x1000 + off)).toNat = 0x1000 + off := by
    rw [BitVec.toNat_ofNat]
    exact Nat.mod_eq_of_lt (by omega)
  simp only [State.target, hx]
  rw [if_neg (by omega), if_pos (by omega), Nat.add_sub_cancel_left]

theorem State.readFreqWord_eq (s : State) (v : Byte) {j : Nat} (h : j < 4) :
    s.readFreqWord (16 * v.toNat + 4 * j) = wordOf (s.freq.get v) j := by
  have hv : (16 * v.toNat + 4 * j) / 16 = v.toNat := by omega
  have hj : (16 * v.toNat + 4 * j) % 16 / 4 = j := by omega
  rw [State.readFreqWord, hv, hj, BitVec.ofNat_toNat, BitVec.setWidth_eq]

/-- Settles O53: at an idle block the window's word accesses are taken and not refused. -/
theorem freqWindowReadsCounters : Obligations.FreqWindowReadsCounters := by
  unfold Obligations.FreqWindowReadsCounters
  intro s v j w hidle hj
  have hv := v.isLt
  have htarget := s.target_freqWindow (off := 16 * v.toNat + 4 * j) (by omega)
  rw [← Nat.add_assoc] at htarget
  have htakes : s.takes (.freqWindow (16 * v.toNat + 4 * j)) .word = true := by
    simp only [State.takes, wordOnly, decide_eq_true_eq]
    omega
  have hbusy : s.busy = false := by simp [State.busy, hidle]
  refine ⟨?_, ?_⟩
  · rw [State.hostAccess_read (by rwa [htarget]) (by simp [hbusy]) rfl, htarget]
    exact congrArg (fun d => (s, (⟨.okay, d⟩ : Response))) (s.readFreqWord_eq v hj)
  · rw [State.hostAccess_write (by rwa [htarget]) (by simp [hbusy]) rfl, htarget]
    exact ⟨rfl, rfl⟩

/-! ### The tree summaries -/

theorem State.summaries_none {s : State} (h : s.tree = none) :
    s.nLeaves = 0 ∧ s.blobLen = 0 ∧ s.rootWeight = 0 ∧ s.leafMap = 0 := by
  simp [State.nLeaves, State.blobLen, State.rootWeight, State.leafMap, h]

theorem State.summaries_some {s : State} {t : HufTree} (h : s.tree = some t) :
    s.nLeaves = BitVec.ofNat 9 t.leaves.length ∧ s.blobLen = BitVec.ofNat 32 t.blobLen ∧
      s.rootWeight = t.weight ∧ s.leafMap = t.leafMap := by
  simp [State.nLeaves, State.blobLen, State.rootWeight, State.leafMap, h]

theorem State.nLeaves_toNat {s : State} {t : HufTree} (h : s.tree = some t) (hwf : t.wf = true) :
    s.nLeaves.toNat = t.leaves.length := by
  have hle := HufTree.wf_leaves_le hwf
  rw [(State.summaries_some h).1, BitVec.toNat_ofNat, Nat.mod_eq_of_lt (by omega)]

theorem State.blobLen_toNat {s : State} {t : HufTree} (h : s.tree = some t) (hwf : t.wf = true) :
    s.blobLen.toNat = t.blobLen := by
  have hle := HufTree.wf_blobLen_le hwf
  rw [(State.summaries_some h).2.1, BitVec.toNat_ofNat, Nat.mod_eq_of_lt (by omega)]

theorem wordOf_zero {n : Nat} (j : Nat) : wordOf (0 : BitVec n) j = 0 :=
  BitVec.extractLsb'_zero

theorem wordOf_getLsbD {n : Nat} (v : BitVec n) (j : Nat) {i : Nat} (h : i < 32) :
    (wordOf v j).getLsbD i = v.getLsbD (32 * j + i) := by
  simp [wordOf, h]

/-- Settles O54: the summaries are views of TREE (log 9), wide enough for a tree that repeats no
leaf value. -/
theorem treeSummaryRegisters : Obligations.TreeSummaryRegisters := by
  unfold Obligations.TreeSummaryRegisters
  intro s
  have hreads : ∀ (r : Reg) {v : Word}, s.readReg r = v → s.reads (BitVec.ofNat 32 r.offset) v :=
    fun r v hv => hv ▸ s.reads_reg r
  constructor
  · intro hnone
    obtain ⟨hn, hb, hw, hm⟩ := State.summaries_none hnone
    refine ⟨hreads .nLeaves ?_, hreads .blobLen hb, fun j hj => hreads (.rootWeight ⟨j, hj⟩) ?_,
      fun j hj => hreads (.leafMap ⟨j, hj⟩) ?_⟩
    · rw [State.readReg, hn]
      rfl
    · rw [State.readReg, hw, wordOf_zero]
    · rw [State.readReg, hm, wordOf_zero]
  · intro t ht hwf
    obtain ⟨-, -, hw, hm⟩ := State.summaries_some ht
    have hlen := HufTree.wf_blobLen_le hwf
    obtain ⟨b, hser, hb⟩ := HufTree.ser_some (t := t) (by omega)
    refine ⟨⟨_, s.reads_reg .nLeaves, ?_⟩, ⟨b, _, hser, s.reads_reg .blobLen, ?_⟩,
      fun j hj => hreads (.rootWeight ⟨j, hj⟩) (by rw [State.readReg, hw]; rfl), fun v => ?_⟩
    · exact (BitVec.toNat_setWidth_of_le (by decide)).trans (State.nLeaves_toNat ht hwf)
    · exact (State.blobLen_toNat ht hwf).trans hb.symm
    · have hv : v.toNat / 32 < 8 := by
        have := v.isLt
        omega
      refine ⟨_, s.reads_reg (.leafMap ⟨v.toNat / 32, hv⟩), ?_⟩
      rw [State.readReg, hm, wordOf_getLsbD _ _ (Nat.mod_lt _ (by decide)), Nat.div_add_mod]
      exact t.leafMap_getLsbD v

end Sys2Proof.Machine
end

section
/-! A running command and the host (20_memory.md R92, R94; 70_reset_and_hazards.md R372, R373):
while a command is pending the host can change only status and enable bits, and no command reads
those. -/

namespace Sys2Proof.Machine

/-! ### What the host can change while a command is pending -/

/-- `s` with the status and enable bits of `h`. -/
def State.withStatusOf (s h : State) : State :=
  { s with
    ieDone := h.ieDone, ieErr := h.ieErr, done := h.done, err := h.err,
    hostConflict := h.hostConflict, cmdDropped := h.cmdDropped }

/-- A busy block refuses the write of an operand and drops the write of CMD (40_control.md R172,
70_reset_and_hazards.md R373). -/
theorem State.writeReg_busy {s : State} (hb : s.busy = true) (r : Reg) (w : Word) :
    s.writeReg r w = s.withStatusOf (s.writeReg r w) := by
  cases r with
  | cmd =>
    rw [State.writeReg, if_pos hb]
    rfl
  | inLen | inPtr | outLen | origLenLo | origLenHi =>
    rw [State.writeReg, State.writeOperand, if_pos hb]
    rfl
  | ctrl | status => rfl
  | id | version | ibufSizeReg | obufSizeReg | result | errInfo | bitLenLo | bitLenHi | nLeaves
  | blobLen | pathLen | rootWeight _ | pathBits _ | leafMap _ | reserved => rfl

theorem State.hostAccess_busy {s : State} (hb : s.busy = true) (t : Transaction) :
    (s.hostAccess t).1 = s.withStatusOf (s.hostAccess t).1 := by
  obtain he | he | ⟨-, hr, -, he⟩ := s.hostAccess_fst_cases t
  · rw [he]
    rfl
  · rw [he]
    rfl
  · rw [he]
    cases htg : s.target t.addr with
    | register off => exact State.writeReg_busy hb (.ofOffset off) t.wdata
    | freqWindow _ | unmapped => rfl
    | ibuf _ | obuf _ => simp [hb, htg, Target.refusedWhileBusy] at hr

theorem State.hostAccesses_busy {s : State} (hb : s.busy = true) (ts : List Transaction) :
    ∃ h, ts.foldl (fun s t => (s.hostAccess t).1) s = s.withStatusOf h := by
  induction ts generalizing s with
  | nil => exact ⟨s, rfl⟩
  | cons t ts ih =>
    have ht := State.hostAccess_busy hb t
    obtain ⟨h, hts⟩ := ih (s := (s.hostAccess t).1) (by rw [ht]; exact hb)
    refine ⟨h, ?_⟩
    rw [List.foldl_cons, hts, ht]
    rfl

/-! ### No command reads the status bits -/

/-- A step result with `g` applied to the state it carries. -/
def StepResult.map (g : State → State) : StepResult → StepResult
  | .ok s => .ok (g s)
  | .err code info s => .err code info (g s)

/-- The status bits of the state that `f` starts from decide nothing: they are only carried
along. -/
def BlindToStatus (f : State → StepResult) : Prop :=
  ∀ s h : State, f (s.withStatusOf h) = (f s).map (·.withStatusOf h)

theorem BlindToStatus.ok : BlindToStatus .ok := fun _ _ => rfl

theorem BlindToStatus.err (code : ResultCode) (info : Word) : BlindToStatus (.err code info) :=
  fun _ _ => rfl

theorem BlindToStatus.andThen {r f : State → StepResult} (hr : BlindToStatus r)
    (hf : BlindToStatus f) : BlindToStatus fun s => (r s).andThen f := fun s h => by
  simp only [hr s h]
  cases r s with
  | ok u => exact hf u h
  | err code info u => rfl

theorem BlindToStatus.forgetOnError {r : State → StepResult} (hr : BlindToStatus r) :
    BlindToStatus fun s => (r s).forgetOnError := fun s h => by
  simp only [hr s h]
  cases r s <;> rfl

/-- A step that branches on what is no status bit. -/
theorem BlindToStatus.ite {c : State → Prop} [DecidablePred c] {r f : State → StepResult}
    (hc : ∀ s h : State, c (s.withStatusOf h) ↔ c s) (hr : BlindToStatus r)
    (hf : BlindToStatus f) : BlindToStatus fun s => if c s then r s else f s := fun s h => by
  by_cases hs : c s
  · simpa only [if_pos hs, if_pos ((hc s h).mpr hs)] using hr s h
  · simpa only [if_neg hs, if_neg (mt (hc s h).mp hs)] using hf s h

/-- A step that branches on TREE. -/
theorem BlindToStatus.onTree {f : State → StepResult} {g : HufTree → State → StepResult}
    (hf : BlindToStatus f) (hg : ∀ t, BlindToStatus (g t)) :
    BlindToStatus fun s => match s.tree with | none => f s | some t => g t s := fun s h => by
  simp only [show (s.withStatusOf h).tree = s.tree from rfl]
  cases s.tree with
  | none => exact hf s h
  | some t => exact hg t s h

theorem inCheck_blind : BlindToStatus inCheck :=
  .ite (c := fun s => s.inRegionOk = true) (fun _ _ => .rfl) .ok (.err .badRegion 0)

theorem outCheck_blind : BlindToStatus outCheck :=
  .ite (c := fun s => s.outRegionOk = true) (fun _ _ => .rfl) .ok (.err .badRegion 1)

theorem emptyRegionCheck_blind : BlindToStatus emptyRegionCheck :=
  .ite (c := fun s => s.inPtr = s.inLen) (fun _ _ => .rfl) (.err .emptyInput 0) .ok

theorem output_blind (b : List Byte) : BlindToStatus (State.output b) :=
  .ite (c := fun s => s.overflows b.length = true) (fun _ _ => .rfl) (fun _ _ => rfl) fun _ _ => rfl

theorem countStep_blind : BlindToStatus countStep :=
  inCheck_blind.andThen fun _ _ => rfl

theorem buildStep_blind : BlindToStatus buildStep := fun s h => by
  simp only [buildStep, show (s.withStatusOf h).freq = s.freq from rfl]
  cases buildTree s.freq <;> rfl

theorem pathStep_blind (v : Byte) : BlindToStatus (pathStep v) :=
  .onTree (.err .noTree 0) fun t _ _ => by cases t.code? v <;> rfl

theorem serializeStep_blind : BlindToStatus serializeStep :=
  outCheck_blind.andThen <| .onTree (.err .noTree 0) fun t => by
    cases t.ser with
    | none => exact .err .oversizedSubtree 0
    | some b => exact output_blind b

theorem deserializeStep_blind (exact : Bool) : BlindToStatus (deserializeStep exact) :=
  inCheck_blind.andThen <|
    .ite (c := fun s => s.regionLen < 18) (fun _ _ => .rfl) (fun _ _ => rfl) <|
    .ite (c := fun s => exact = true ∧ s.regionLen ≠ s.declaredLen) (fun _ _ => .rfl)
      (fun _ _ => rfl) <|
    .ite (c := fun s => exact = false ∧ s.regionLen < s.declaredLen) (fun _ _ => .rfl)
      (fun _ _ => rfl) fun s h => by
        change (match s.parseBlob s.inPtr.toNat (s.inPtr.toNat + s.declaredLen) with
          | .error a => _ | .ok (t, _) => _) = _
        cases s.parseBlob s.inPtr.toNat (s.inPtr.toNat + s.declaredLen) <;> rfl

theorem wrlenStep_blind : BlindToStatus wrlenStep :=
  outCheck_blind.andThen fun s h => output_blind (toBE 8 s.origLen.toNat) s h

theorem rdlenStep_blind : BlindToStatus rdlenStep :=
  inCheck_blind.andThen <|
    .ite (c := fun s => s.regionLen < 8) (fun _ _ => .rfl) (fun _ _ => rfl) fun _ _ => rfl

theorem packStep_blind : BlindToStatus packStep :=
  (inCheck_blind.andThen outCheck_blind).andThen <| .onTree (.err .noTree 0) fun t s h => by
    simp only [show (s.withStatusOf h).firstWithoutLeaf t = s.firstWithoutLeaf t from rfl]
    cases s.firstWithoutLeaf t with
    | some i => rfl
    | none => exact (output_blind (packBits (s.codeStream t))).andThen (fun _ _ => rfl) s h

theorem unpackStep_blind : BlindToStatus unpackStep :=
  (inCheck_blind.andThen outCheck_blind).andThen <| .onTree (.err .noTree 0) fun t =>
    .ite (c := fun s => s.overflows s.origLen.toNat = true) (fun _ _ => .rfl) (fun _ _ => rfl)
      fun s h => by
        change (match unpackStream s.regionBit (8 * s.regionLen) t s.origLen.toNat with
          | .error m => _ | .ok (out, k) => _) = _
        cases unpackStream s.regionBit (8 * s.regionLen) t s.origLen.toNat <;> rfl

theorem compressSteps_blind : BlindToStatus compressSteps :=
  ((((countStep_blind.andThen buildStep_blind).andThen serializeStep_blind).andThen
    wrlenStep_blind).andThen packStep_blind).forgetOnError

theorem decompressSteps_blind : BlindToStatus decompressSteps :=
  (((deserializeStep_blind false).andThen rdlenStep_blind).andThen unpackStep_blind).forgetOnError

theorem bodyOf_blind (i : Instr) : BlindToStatus (bodyOf i) := by
  cases i with
  | nop => exact .ok
  | clear => exact fun _ _ => rfl
  | count => exact countStep_blind
  | build => exact buildStep_blind
  | path v => exact pathStep_blind v
  | serialize => exact serializeStep_blind
  | deserialize e => exact deserializeStep_blind e
  | wrlen => exact wrlenStep_blind
  | rdlen => exact rdlenStep_blind
  | pack => exact packStep_blind
  | unpack => exact unpackStep_blind
  | compress =>
    exact ((inCheck_blind.andThen outCheck_blind).andThen emptyRegionCheck_blind).andThen
      compressSteps_blind
  | decompress => exact (inCheck_blind.andThen outCheck_blind).andThen decompressSteps_blind

/-- A completion sets DONE and clears PEND, and the rest of what it writes does not come from the
status bits (60_exceptions.md R321, R322, R325). -/
theorem StepResult.finish_map_withStatusOf {r : StepResult} {h u u' : State}
    (hu : r.finish = .next u) (hu' : (r.map (·.withStatusOf h)).finish = .next u') :
    ∃ h', u' = u.withStatusOf h' ∧ u'.pend = none ∧ u'.done = true := by
  refine ⟨u', ?_⟩
  cases r with
  | ok v =>
    obtain rfl := Host.Outcome.next.inj hu
    obtain rfl := Host.Outcome.next.inj hu'
    exact ⟨rfl, rfl, rfl⟩
  | err code info v =>
    obtain rfl := Host.Outcome.next.inj hu
    obtain rfl := Host.Outcome.next.inj hu'
    exact ⟨rfl, rfl, rfl⟩

/-- Settles O56: the accesses change only the status bits, the command's body carries those along,
and its completion differs in them alone. -/
theorem hostCannotDisturbCommand : Obligations.HostCannotDisturbCommand := by
  unfold Obligations.HostCannotDisturbCommand
  intro i s u u' p ts hp hu hu'
  have hbusy : s.busy = true := by simp [State.busy, hp]
  obtain ⟨h, hts⟩ := State.hostAccesses_busy hbusy ts
  rw [hts, exec_eq, bodyOf_blind i s h] at hu'
  rw [exec_eq] at hu
  obtain ⟨h', rfl, hpend, hdone⟩ := StepResult.finish_map_withStatusOf hu hu'
  exact ⟨rfl, rfl, rfl, rfl, rfl, rfl, rfl, rfl, rfl, rfl, rfl, rfl, rfl, rfl, rfl, rfl,
    hpend, hdone⟩

end Sys2Proof.Machine
end

section
/-! The bus (20_memory.md R81 to R89): which transactions get ERROR, what a busy block refuses, and
the accesses to IBUF and OBUF at an idle block. -/

namespace Sys2Proof.Machine

/-! ### ERROR -/

theorem State.hostAccess_resp_error_iff {s : State} {t : Transaction} :
    (s.hostAccess t).2.resp = .error ↔ s.takes (s.target t.addr) t.size = false := by
  refine ⟨fun h => ?_, fun h => by rw [State.hostAccess_error h]⟩
  rw [← Bool.not_eq_true]
  intro ht
  cases hr : s.busy && (s.target t.addr).refusedWhileBusy with
  | true => simp [State.hostAccess_refused ht hr] at h
  | false =>
    cases hk : t.kind with
    | read => simp [State.hostAccess_read ht hr hk] at h
    | write => simp [State.hostAccess_write ht hr hk] at h

/-- The address map read backwards: which addresses name each target (20_memory.md R81). -/
theorem State.target_cases (s : State) (addr : Word) :
    (addr.toNat < 0x1000 ∧ s.target addr = .register addr.toNat) ∨
    (0x1000 ≤ addr.toNat ∧ addr.toNat < 0x2000 ∧
      s.target addr = .freqWindow (addr.toNat - 0x1000)) ∨
    (0x40000000 ≤ addr.toNat ∧ addr.toNat < 0x80000000 ∧ addr.toNat - 0x40000000 < s.ibufSize ∧
      s.target addr = .ibuf (addr.toNat - 0x40000000)) ∨
    (0x80000000 ≤ addr.toNat ∧ addr.toNat < 0xC0000000 ∧ addr.toNat - 0x80000000 < s.obufSize ∧
      s.target addr = .obuf (addr.toNat - 0x80000000)) ∨
    (0x2000 ≤ addr.toNat ∧
      (0x40000000 ≤ addr.toNat → addr.toNat < 0x80000000 → s.ibufSize ≤ addr.toNat - 0x40000000) ∧
      (0x80000000 ≤ addr.toNat → addr.toNat < 0xC0000000 → s.obufSize ≤ addr.toNat - 0x80000000) ∧
      s.target addr = .unmapped) := by
  simp only [State.target]
  split_ifs with h1 h2 h3 h4
  · exact .inl ⟨h1, rfl⟩
  · exact .inr (.inl ⟨by omega, h2, rfl⟩)
  · obtain ⟨hlo, hhi, hsize⟩ := h3
    exact .inr (.inr (.inl ⟨hlo, hhi, hsize, rfl⟩))
  · obtain ⟨hlo, hhi, hsize⟩ := h4
    exact .inr (.inr (.inr (.inl ⟨hlo, hhi, hsize, rfl⟩)))
  · exact .inr (.inr (.inr (.inr ⟨by omega, by omega, by omega, rfl⟩)))

theorem wordOnly_eq_false_iff {off : Nat} {size : Size} :
    wordOnly off size = false ↔ size ≠ .word ∨ off % 4 ≠ 0 := by
  cases size <;> simp [wordOnly]

theorem bufferTakes_eq_false_iff {n a : Nat} {size : Size} :
    bufferTakes n a size = false ↔ size = .half ∨ size = .word ∧ (a % 4 ≠ 0 ∨ n < a + 4) := by
  cases size <;> simp [bufferTakes, imp_iff_not_or]

/-- Settles O51, target by target. -/
theorem busErrorsExactly : Obligations.BusErrorsExactly := by
  unfold Obligations.BusErrorsExactly
  intro s t
  refine ⟨?_, fun h => State.hostAccess_error (State.hostAccess_resp_error_iff.mp h)⟩
  rw [State.hostAccess_resp_error_iff]
  obtain ⟨hx, htg⟩ | ⟨hlo, hhi, htg⟩ | ⟨hlo, hhi, hsize, htg⟩ | ⟨hlo, hhi, hsize, htg⟩ |
    ⟨hlo, hibuf, hobuf, htg⟩ := s.target_cases t.addr
  -- in each target what is left is arithmetic on the address, once the size is known
  all_goals
    simp only [htg, State.takes, wordOnly_eq_false_iff, bufferTakes_eq_false_iff]
    cases t.size <;> simp <;> omega

/-! ### The refusals of a busy block -/

/-- From 0x1000 on, every mapped access is one that a running command refuses (20_memory.md R89). -/
theorem State.refusedWhileBusy_of_le {s : State} {addr : Word} {size : Size}
    (h : 0x1000 ≤ addr.toNat) (ht : s.takes (s.target addr) size = true) :
    (s.target addr).refusedWhileBusy = true := by
  obtain ⟨hlt, -⟩ | ⟨-, -, htg⟩ | ⟨-, -, -, htg⟩ | ⟨-, -, -, htg⟩ | ⟨-, -, -, htg⟩ :=
    s.target_cases addr
  · omega
  · rw [htg, Target.refusedWhileBusy]
  · rw [htg, Target.refusedWhileBusy]
  · rw [htg, Target.refusedWhileBusy]
  · simp [htg, State.takes] at ht

/-- While a command runs, a write of an operand register sets HOST_CONFLICT and nothing else
(70_reset_and_hazards.md R373). -/
theorem State.writeReg_operand_busy {s : State} (hb : s.busy = true) {off : Nat}
    (h : off ∈ [0x024, 0x028, 0x02C, 0x030, 0x034]) (w : Word) :
    s.writeReg (.ofOffset off) w = { s with hostConflict := true } := by
  have hop : ∀ t, s.writeOperand t = { s with hostConflict := true } := fun t => by
    rw [State.writeOperand, if_pos hb]
  simp only [List.mem_cons, List.not_mem_nil, or_false] at h
  obtain rfl | rfl | rfl | rfl | rfl := h
  all_goals exact hop _

/-- Settles O55: from 0x1000 on the map itself refuses the access, below it the write of an operand
register does. -/
theorem busyAccessesRefused : Obligations.BusyAccessesRefused := by
  unfold Obligations.BusyAccessesRefused
  intro s t hb hokay h
  have ht : s.takes (s.target t.addr) t.size = true := by
    rw [← Bool.not_eq_false, ← State.hostAccess_resp_error_iff, hokay]
    decide
  obtain hle | ⟨hk, hoff⟩ := h
  · have hr := State.refusedWhileBusy_of_le hle ht
    rw [State.hostAccess_refused ht (by rw [hb, hr]; rfl)]
    exact ⟨rfl, fun hk => by rw [hk]⟩
  · have htg : s.target t.addr = .register t.addr.toNat := by
      rw [← s.target_register (off := t.addr.toNat) (by simp at hoff; omega), BitVec.ofNat_toNat,
        BitVec.setWidth_eq]
    rw [State.hostAccess_write ht (by rw [htg, Target.refusedWhileBusy, Bool.and_false]) hk, htg]
    exact ⟨State.writeReg_operand_busy hb hoff t.wdata, fun hread => by simp [hk] at hread⟩

/-! ### IBUF and OBUF at an idle block -/

theorem toNat_ofNat_bufferBase {base a : Nat} (hb : base ≤ 0x80000000) (ha : a < 0x40000000) :
    (BitVec.ofNat 32 (base + a)).toNat = base + a := by
  rw [BitVec.toNat_ofNat, Nat.mod_eq_of_lt (by omega)]

theorem State.target_ofNat_ibuf {s : State} (hp : s.paramsOk = true) {a : Nat}
    (h : a < s.ibufSize) : s.target (BitVec.ofNat 32 (0x40000000 + a)) = .ibuf a := by
  obtain ⟨-, hmax, -, -⟩ := State.paramsOk_iff.mp hp
  have hx := toNat_ofNat_bufferBase (base := 0x40000000) (a := a) (by omega) (by omega)
  simp only [State.target, hx]
  rw [if_neg (by omega), if_neg (by omega), if_pos ⟨by omega, by omega, by omega⟩,
    Nat.add_sub_cancel_left]

theorem State.target_ofNat_obuf {s : State} (hp : s.paramsOk = true) {a : Nat}
    (h : a < s.obufSize) : s.target (BitVec.ofNat 32 (0x80000000 + a)) = .obuf a := by
  obtain ⟨-, -, -, hmax⟩ := State.paramsOk_iff.mp hp
  have hx := toNat_ofNat_bufferBase (base := 0x80000000) (a := a) (by omega) (by omega)
  simp only [State.target, hx]
  rw [if_neg (by omega), if_neg (by omega), if_neg (by omega),
    if_pos ⟨by omega, by omega, by omega⟩, Nat.add_sub_cancel_left]

theorem Memory.holds_singleton {m : Memory} {a : Nat} {b : Byte} :
    m.holds a [b] ↔ m.read? a = some b := by
  simp [Memory.holds]

theorem hostBytes_of_holds {m : Memory} {a : Nat} {d : List Byte} (h : m.holds a d) (epoch : Nat) :
    hostBytes m epoch a d.length = d := by
  apply List.ext_getElem (by simp [hostBytes])
  intro i h1 h2
  simp [hostBytes, Memory.holds_read? h i h2]

theorem ofLittleEndian_byte (b : Byte) : ofLittleEndian [b] = b.setWidth 32 := by
  simp [ofLittleEndian]

theorem ofLittleEndian_word (b0 b1 b2 b3 : Byte) :
    ofLittleEndian [b0, b1, b2, b3] = b3 ++ b2 ++ b1 ++ b0 := by
  simp only [ofLittleEndian, List.foldr]
  ext i hi
  simp
  grind

theorem State.hostAccess_write_idle {s : State} (hidle : s.pend = none) {addr : Word} {tg : Target}
    (size : Size) (htg : s.target addr = tg) (ht : s.takes tg size = true) (w : Word) :
    (s.hostAccess ⟨.write, addr, size, w⟩).1 = s.writeTarget tg size w := by
  subst htg
  rw [State.hostAccess_write ht (by simp [State.busy, hidle]) rfl]

theorem State.hostAccess_read_idle {s : State} (hidle : s.pend = none) {addr : Word} {tg : Target}
    (size : Size) (htg : s.target addr = tg) (ht : s.takes tg size = true) {v : Word}
    (hv : s.readTarget tg size = v) (w : Word) :
    s.hostAccess ⟨.read, addr, size, w⟩ = (s, ⟨.okay, v⟩) := by
  subst htg hv
  rw [State.hostAccess_read ht (by simp [State.busy, hidle]) rfl]

theorem bufferTakes_word {n a : Nat} (h4 : a % 4 = 0) (hle : a + 4 ≤ n) :
    bufferTakes n a .word = true := by
  simp [bufferTakes, h4, hle]

/-- What the host reads of written bytes, as a word. -/
theorem ofLittleEndian_hostBytes {m : Memory} {a : Nat} {d : List Byte} (h : m.holds a d)
    (epoch : Nat) : ofLittleEndian (hostBytes m epoch a d.length) = ofLittleEndian d := by
  rw [hostBytes_of_holds h]

/-- Settles O52: byte accesses and aligned word accesses inside a buffer are taken, and their data
goes into the buffer and comes back from it in little-endian order. -/
theorem bufferAccesses : Obligations.BufferAccesses := by
  unfold Obligations.BufferAccesses
  intro s a w hidle hp
  have hibuf := State.target_ofNat_ibuf hp (a := a)
  have hobuf := State.target_ofNat_obuf hp (a := a)
  refine ⟨fun h => ⟨_, s.ibuf.writeBytes_stored a _, ?_⟩,
    fun h4 h => ⟨_, s.ibuf.writeBytes_stored a _, ?_⟩,
    fun h => ⟨_, s.obuf.writeBytes_stored a _, ?_⟩,
    fun h4 h => ⟨_, s.obuf.writeBytes_stored a _, ?_⟩,
    fun b h hb => ?_, fun b0 b1 b2 b3 h4 h hd => ?_,
    fun b h hb => ?_, fun b0 b1 b2 b3 h4 h hd => ?_⟩
  · exact State.hostAccess_write_idle hidle .byte (hibuf (by omega)) rfl w
  · exact State.hostAccess_write_idle hidle .word (hibuf (by omega)) (bufferTakes_word h4 h) w
  · exact State.hostAccess_write_idle hidle .byte (hobuf (by omega)) rfl w
  · exact State.hostAccess_write_idle hidle .word (hobuf (by omega)) (bufferTakes_word h4 h) w
  · refine State.hostAccess_read_idle hidle .byte (hibuf (by omega)) rfl ?_ w
    exact (ofLittleEndian_hostBytes (Memory.holds_singleton.mpr hb) _).trans (ofLittleEndian_byte b)
  · refine State.hostAccess_read_idle hidle .word (hibuf (by omega)) (bufferTakes_word h4 h) ?_ w
    exact (ofLittleEndian_hostBytes hd _).trans (ofLittleEndian_word b0 b1 b2 b3)
  · refine State.hostAccess_read_idle hidle .byte (hobuf (by omega)) rfl ?_ w
    exact (ofLittleEndian_hostBytes (Memory.holds_singleton.mpr hb) _).trans (ofLittleEndian_byte b)
  · refine State.hostAccess_read_idle hidle .word (hobuf (by omega)) (bufferTakes_word h4 h) ?_ w
    exact (ofLittleEndian_hostBytes hd _).trans (ofLittleEndian_word b0 b1 b2 b3)

/-! ### A host access as a step -/

theorem step_access {s : State} {t : Transaction} {rest : List Event}
    (h : s.agenda = .access t :: rest) :
    step s = .next ((s.freshEpoch.withAgenda rest).hostTurn t) := by
  simp only [step, h]

/-- Settles O58: `hostTurn` is the access with its response recorded. -/
theorem stepPerformsHostAccess : Obligations.StepPerformsHostAccess := by
  unfold Obligations.StepPerformsHostAccess
  intro s t rest h
  exact step_access h

end Sys2Proof.Machine
end

section
/-! Command words (30_encoding.md R120 to R126): a word is its three fields, so the decoder, the encoder
and the match and mask table each say what the fields have to be, and they agree field by field. -/

namespace Sys2Proof

/-! ### The fields of a word -/

theorem append_eq_append_iff {m n : Nat} {a c : BitVec m} {b d : BitVec n} :
    a ++ b = c ++ d ↔ a = c ∧ b = d := by
  constructor
  · intro h
    refine ⟨?_, ?_⟩
    · simpa only [BitVec.extractLsb'_append_eq_left] using congrArg (BitVec.extractLsb' n m) h
    · simpa only [BitVec.extractLsb'_append_eq_right] using congrArg (BitVec.extractLsb' 0 n) h
  · rintro ⟨rfl, rfl⟩
    rfl

/-- Bits [31:16], VALUE and OPCODE make up the word (30_encoding.md R120). -/
theorem word_fields (w : Word) : w.extractLsb' 16 16 ++ valueOf w ++ opcodeOf w = w := by
  rw [valueOf, BitVec.extractLsb'_append_extractLsb'_eq_extractLsb' (by decide), opcodeOf]
  exact BitVec.extractLsb'_append_extractLsb'

theorem append_eq_word_iff {hi : BitVec 16} {v op : Byte} {w : Word} :
    hi ++ v ++ op = w ↔ hi = w.extractLsb' 16 16 ∧ v = valueOf w ∧ op = opcodeOf w := by
  conv_lhs => rw [← word_fields w]
  rw [append_eq_append_iff, append_eq_append_iff, and_assoc]

theorem encode_eq_iff {i : Instr} {w : Word} :
    encode i = w ↔
      w.extractLsb' 16 16 = 0 ∧ valueOf w = i.operandByte ∧ opcodeOf w = i.opcode := by
  rw [encode, append_eq_word_iff, eq_comm, @eq_comm _ i.operandByte, @eq_comm _ i.opcode]

/-- What the decoder of format N requires to be 0 (30_encoding.md R126). -/
theorem reservedN_eq_zero_iff (w : Word) :
    w.extractLsb' 8 24 = 0 ↔ w.extractLsb' 16 16 = 0 ∧ valueOf w = 0 := by
  have h : w.extractLsb' 8 24 = w.extractLsb' 16 16 ++ valueOf w := by
    rw [valueOf, BitVec.extractLsb'_append_extractLsb'_eq_extractLsb' (by decide)]
  rw [h]
  exact append_eq_append_iff (c := 0) (d := 0)

/-- What the decoder of format F requires to be 0: EXACT is all that is left of VALUE
(30_encoding.md R121, R126). -/
theorem reservedF_eq_zero_iff (w : Word) :
    w.extractLsb' 9 23 = 0 ↔
      w.extractLsb' 16 16 = 0 ∧ valueOf w = (Instr.deserialize (exactOf w)).operandByte := by
  have hw : w.extractLsb' 9 23 = w.extractLsb' 16 16 ++ w.extractLsb' 9 7 := by
    rw [BitVec.extractLsb'_append_extractLsb'_eq_extractLsb' (by decide)]
  have h7 : w.extractLsb' 9 7 = (valueOf w).extractLsb' 1 7 := by
    ext i hi
    simp [valueOf, show 1 + i < 8 by omega, ← Nat.add_assoc]
  have h0 : exactOf w = (valueOf w).getLsbD 0 := by simp [exactOf, valueOf]
  have hbyte : ∀ v : Byte, v.extractLsb' 1 7 = 0 ↔
      v = (Instr.deserialize (v.getLsbD 0)).operandByte := by decide
  rw [hw, h7, h0, ← hbyte]
  exact append_eq_append_iff (c := 0) (d := 0)

/-! ### The decoder and the encoder -/

theorem whenReservedZero_eq_ok_iff {zero : Bool} {i j : Instr} :
    whenReservedZero zero i = .ok j ↔ zero = true ∧ i = j := by
  cases zero <;> simp [whenReservedZero]

theorem formatNOpcode_fields {op : Byte} {i : Instr} (h : formatNOpcode op = some i) :
    i.opcode = op ∧ i.operandByte = 0 := by
  revert op i
  decide

/-- The decoder drops no bit of a legal word (30_encoding.md R124). -/
theorem encode_of_decode {w : Word} {i : Instr} (h : decode w = .ok i) : encode i = w := by
  rw [encode_eq_iff]
  unfold decode at h
  split at h
  · next hop =>
    obtain ⟨hz, rfl⟩ := whenReservedZero_eq_ok_iff.mp h
    exact ⟨eq_of_beq hz, rfl, hop⟩
  · split at h
    · next hop =>
      obtain ⟨hz, rfl⟩ := whenReservedZero_eq_ok_iff.mp h
      obtain ⟨hhi, hv⟩ := (reservedF_eq_zero_iff w).mp (eq_of_beq hz)
      exact ⟨hhi, hv, hop⟩
    · split at h
      · next j hj =>
        obtain ⟨hz, rfl⟩ := whenReservedZero_eq_ok_iff.mp h
        obtain ⟨hhi, hv⟩ := (reservedN_eq_zero_iff w).mp (eq_of_beq hz)
        obtain ⟨hop, hbyte⟩ := formatNOpcode_fields hj
        exact ⟨hhi, hv.trans hbyte.symm, hop.symm⟩
      · cases h

theorem decode_encode (i : Instr) : decode (encode i) = .ok i := by
  obtain ⟨hhi, hv, hop⟩ := encode_eq_iff.mp (rfl : encode i = encode i)
  cases i with
  | path v =>
    rw [decode, hop, hhi, hv]
    rfl
  | deserialize e =>
    have he : exactOf (encode (.deserialize e)) = e := by cases e <;> decide
    have hz := (reservedF_eq_zero_iff _).mpr ⟨hhi, by rw [he, hv]⟩
    rw [decode, hop, hz, he]
    rfl
  | _ => decide

/-- A word decodes to a command exactly when it is the command's encoding (30_encoding.md R124). -/
theorem decode_eq_ok_iff {w : Word} {i : Instr} : decode w = .ok i ↔ encode i = w :=
  ⟨encode_of_decode, fun h => h ▸ decode_encode i⟩

/-- Settles O1: both directions of `decode_eq_ok_iff`. -/
theorem decodeEncodeRoundTrip : Obligations.DecodeEncodeRoundTrip := by
  unfold Obligations.DecodeEncodeRoundTrip
  exact ⟨decode_encode, fun _ _ => encode_of_decode⟩

/-! ### The match and mask table -/

/-- The bits of byte [15:8] that a command's format fixes (30_encoding.md R120, R126). -/
def Instr.fixedByte : Instr → Byte
  | .path _ => 0x00
  | .deserialize _ => 0xFE
  | _ => 0xFF

/-- A command's row of the match and mask table, from its opcode and format. -/
def Instr.row (i : Instr) : EncodingRow :=
  ⟨i.mnemonic, 0xFFFF#16 ++ i.fixedByte ++ 0xFF#8, 0#16 ++ 0#8 ++ i.opcode⟩

/-- The command of the same mnemonic whose operand is read from `v`. -/
def Instr.withOperandByte (v : Byte) : Instr → Instr
  | .path _ => .path v
  | .deserialize _ => .deserialize (v.getLsbD 0)
  | i => i

theorem encodingTable_eq_rows : encodingTable = List.map Instr.row
    [.nop, .clear, .count, .build, .path 0, .serialize, .deserialize false, .wrlen, .rdlen, .pack,
      .unpack, .compress, .decompress] := rfl

theorem Instr.row_mem_encodingTable (i : Instr) : i.row ∈ encodingTable := by
  rw [encodingTable_eq_rows]
  have hrow : (i.withOperandByte 0).row = i.row := by cases i <;> rfl
  exact List.mem_map.mpr ⟨i.withOperandByte 0, by cases i <;> simp [Instr.withOperandByte], hrow⟩

theorem eq_row_of_mem_encodingTable {r : EncodingRow} (h : r ∈ encodingTable) :
    ∃ i : Instr, i.row = r := by
  rw [encodingTable_eq_rows] at h
  obtain ⟨i, -, hi⟩ := List.mem_map.mp h
  exact ⟨i, hi⟩

theorem row_eq_of_mnemonic_eq {r r' : EncodingRow} (h : r ∈ encodingTable) (h' : r' ∈ encodingTable)
    (hm : r.mnemonic = r'.mnemonic) : r = r' := by
  have hn : (encodingTable.map EncodingRow.mnemonic).Nodup := by
    simp [encodingTable, EncodingRow.formatN]
  exact List.inj_on_of_nodup_map hn h h' hm

/-- A row looks at a word's fields one by one: bits [31:16] and what the format fixes of byte [15:8]
have to be 0, OPCODE the row's (30_encoding.md R123). -/
theorem Instr.row_selects_iff (i : Instr) (w : Word) : i.row.selects w = true ↔
    w.extractLsb' 16 16 = 0 ∧ valueOf w &&& i.fixedByte = 0 ∧ opcodeOf w = i.opcode := by
  have hhi : ∀ x : BitVec 16, x &&& 0xFFFF#16 = x := fun x => BitVec.and_allOnes
  have hop : ∀ x : Byte, x &&& 0xFF#8 = x := fun x => BitVec.and_allOnes
  conv_lhs => rw [← word_fields w]
  rw [EncodingRow.selects, beq_iff_eq, Instr.row, BitVec.and_append, BitVec.and_append,
    append_eq_append_iff, append_eq_append_iff, hhi, hop, and_assoc]
  rfl

theorem Instr.operandByte_and_fixedByte (i : Instr) : i.operandByte &&& i.fixedByte = 0 := by
  cases i with
  | path v => exact BitVec.and_zero
  | deserialize e => cases e <;> rfl
  | _ => rfl

theorem Instr.withOperandByte_operandByte (i : Instr) {v : Byte} (h : v &&& i.fixedByte = 0) :
    (i.withOperandByte v).operandByte = v := by
  have hexact : ∀ u : Byte, u &&& 0xFE = 0 →
      (Instr.deserialize (u.getLsbD 0)).operandByte = u := by decide
  cases i with
  | path _ => rfl
  | deserialize _ => exact hexact v h
  | _ => exact (BitVec.and_allOnes.symm.trans h).symm

@[simp] theorem Instr.withOperandByte_mnemonic (i : Instr) (v : Byte) :
    (i.withOperandByte v).mnemonic = i.mnemonic := by
  cases i <;> rfl

@[simp] theorem Instr.withOperandByte_opcode (i : Instr) (v : Byte) :
    (i.withOperandByte v).opcode = i.opcode := by
  cases i <;> rfl

theorem Instr.row_selects_encode (i : Instr) : i.row.selects (encode i) = true := by
  obtain ⟨hhi, hv, hop⟩ := encode_eq_iff.mp (rfl : encode i = encode i)
  exact (i.row_selects_iff _).mpr ⟨hhi, by rw [hv, i.operandByte_and_fixedByte], hop⟩

/-- The table's condition and the decoder's are the same one (30_encoding.md R123, R124). -/
theorem selects_iff_decode {r : EncodingRow} (hr : r ∈ encodingTable) (w : Word) :
    r.selects w = true ↔ ∃ i, decode w = .ok i ∧ i.mnemonic = r.mnemonic := by
  constructor
  · obtain ⟨i, rfl⟩ := eq_row_of_mem_encodingTable hr
    intro h
    obtain ⟨hhi, hv, hop⟩ := (i.row_selects_iff w).mp h
    refine ⟨i.withOperandByte (valueOf w), decode_eq_ok_iff.mpr (encode_eq_iff.mpr ?_), ?_⟩
    · exact ⟨hhi, (i.withOperandByte_operandByte hv).symm, by simpa using hop⟩
    · exact i.withOperandByte_mnemonic _
  · rintro ⟨i, hd, hm⟩
    obtain rfl : i.row = r := row_eq_of_mnemonic_eq i.row_mem_encodingTable hr hm
    rw [← encode_of_decode hd]
    exact i.row_selects_encode

/-- Settles O2: a word decodes to one command at most, and a mnemonic names one row. -/
theorem decodeSelectsMatchMaskRow : Obligations.DecodeSelectsMatchMaskRow := by
  unfold Obligations.DecodeSelectsMatchMaskRow
  refine ⟨fun w r hr => selects_iff_decode hr w, fun w r hr r' hr' h h' => ?_⟩
  obtain ⟨i, hi, hm⟩ := (selects_iff_decode hr w).mp h
  obtain ⟨j, hj, hm'⟩ := (selects_iff_decode hr' w).mp h'
  obtain rfl : i = j := Except.ok.inj (hi.symm.trans hj)
  exact row_eq_of_mnemonic_eq hr hr' (hm.symm.trans hm')

theorem commandWordOk_of_decode {w : Word} {i : Instr} (h : decode w = .ok i) :
    commandWordOk w = true :=
  List.any_eq_true.mpr ⟨i.row, i.row_mem_encodingTable, encode_of_decode h ▸ i.row_selects_encode⟩

/-! ### Words written out -/

/-- Settles O3: each word is a literal, the decoder runs on it. -/
theorem writtenWordsDecode : Obligations.WrittenWordsDecode := by
  unfold Obligations.WrittenWordsDecode
  refine ⟨?_, ?_, ?_, ?_, ?_, ?_, ?_⟩ <;> rfl

end Sys2Proof
end

section
/-! The engine's turn on an illegal word (30_encoding.md R125, 40_control.md R176). -/

namespace Sys2Proof.Machine

theorem step_engine {s : State} {rest : List Event} (h : s.agenda = .engine :: rest) :
    step s = engineTurn (s.freshEpoch.withAgenda rest) := by
  simp only [step, h]

/-- An illegal word's turn is the abort (40_control.md R176). -/
theorem engineTurn_illegal {s : State} {p : Pending} (hp : s.pend = some p)
    (hw : commandWordOk p.word = false) :
    engineTurn s = .next (s.aborted p .illegalCommand p.word) := by
  have hturn : engineTurn s = execIllegal s := by
    simp only [engineTurn, hp]
    split
    · next i hd =>
      rw [commandWordOk_of_decode hd] at hw
      cases hw
    · rfl
  rw [hturn, execIllegal, State.accepted_of_pend hp]
  exact finish_err hp rfl

/-- Settles O8: taking the event off the agenda and opening a new draw epoch leave PEND alone. -/
theorem illegalWordAborts : Obligations.IllegalWordAborts := by
  unfold Obligations.IllegalWordAborts
  intro s p rest hp hw hag
  rw [step_engine hag]
  exact engineTurn_illegal hp hw

end Sys2Proof.Machine
end

section
/-! The sizes of the wire formats: blobs (30_encoding.md R131, 42_tree_codec.md R234) and packed bodies
(30_encoding.md R136). -/

namespace Sys2Proof.Machine

/-- Settles O24: ser(t) has |ser(t)| bytes, 37 of them per leaf less 18, and a tree without repeated
leaf values has at most 256 leaves, far below the payload cap. -/
theorem serializedTreeSize : Obligations.SerializedTreeSize := by
  unfold Obligations.SerializedTreeSize
  refine ⟨fun w v b h => HufTree.ser_length h, fun w l r b p q hb hp hq => ?_, fun t hwf => ?_⟩
  · rw [HufTree.ser_length hb, HufTree.ser_length hp, HufTree.ser_length hq, HufTree.blobLen]
  · have hmax := HufTree.wf_blobLen_le hwf
    have hlen := t.blobLen_eq
    obtain ⟨b, hb, hl⟩ := HufTree.ser_some (t := t) (by omega)
    exact ⟨b, hb, by omega, by omega⟩

/-- Bit i of body byte j is stream bit 8j + i, and 0 past the stream's end (30_encoding.md R136). -/
theorem packBits_byte_getLsbD {S : List Bool} {j i : Nat} {B : Byte} (h : (packBits S)[j]? = some B)
    (hi : i < 8) : B.getLsbD i = S.getD (8 * j + i) false := by
  obtain ⟨hj, -⟩ := List.getElem?_eq_some_iff.mp h
  have hbit := packBits_bit S (8 * j + i) (by omega)
  rwa [show (8 * j + i) / 8 = j by omega, show (8 * j + i) % 8 = i by omega,
    List.getD_eq_getElem?_getD, h, Option.getD_some] at hbit

/-- Settles O33. -/
theorem packedBitPositions : Obligations.PackedBitPositions := by
  unfold Obligations.PackedBitPositions
  intro S
  refine ⟨packBits_length S, fun k hk => ?_, fun j B hB i hi hend => ?_⟩
  · have hj : k / 8 < (packBits S).length := by
      have := ceil8_mul_ge S.length
      rw [packBits_length]
      omega
    refine ⟨_, List.getElem?_eq_getElem hj, ?_⟩
    rw [packBits_byte_getLsbD (List.getElem?_eq_getElem hj) (Nat.mod_lt _ (by decide)),
      Nat.div_add_mod, List.getD_eq_getElem _ _ hk]
  · rw [packBits_byte_getLsbD hB hi, List.getD_eq_default _ _ hend]

end Sys2Proof.Machine
end

section
/-! Issue of a command and the engine's turn on a legal word (40_control.md R171 to R173), and the two
commands that run no step of the pipeline, NOP and CLEAR (R177, R178). -/

namespace Sys2Proof.Machine

/-! ### The host's write of CMD -/

/-- A CMD write is never an ERROR and never refused; BUSY decides between the acceptance and the drop
(40_control.md R171, R172). -/
theorem State.hostAccess_writeCmd (s : State) (w : Word) :
    s.hostAccess ⟨.write, 0x00000018, .word, w⟩ =
      (if s.busy then s.dropCommand else s.accept w, ⟨.okay, Config.freeWriteData s.draws⟩) :=
  s.hostAccess_writeRegister w (off := Reg.cmd.offset) (by decide) (by decide)

theorem State.busy_of_pend_none {s : State} (h : s.pend = none) : s.busy = false := by
  rw [State.busy, h, Option.isSome_none]

theorem State.busy_of_pend_some {s : State} {p : Pending} (h : s.pend = some p) : s.busy = true := by
  rw [State.busy, h, Option.isSome_some]

/-- Acceptance clears DONE, so only ERR can still hold irq (40_control.md R171). -/
theorem State.accept_irq (s : State) (w : Word) : (s.accept w).irq = (s.err && s.ieErr) := by
  rw [State.irq, State.accept_done, State.accept_err, State.accept_ieErr, Bool.false_and,
    Bool.false_or]

/-- Settles O4: at an idle block the write is `State.accept`. -/
theorem acceptanceOfCommandWord : Obligations.AcceptanceOfCommandWord := by
  unfold Obligations.AcceptanceOfCommandWord
  intro s w hidle
  rw [s.hostAccess_writeCmd, State.busy_of_pend_none hidle]
  exact ⟨rfl, rfl, rfl, s.accept_irq w⟩

/-- Settles O5: at a busy block the write is `State.dropCommand`. -/
theorem commandDroppedWhileBusy : Obligations.CommandDroppedWhileBusy := by
  unfold Obligations.CommandDroppedWhileBusy
  intro s p w hp
  rw [s.hostAccess_writeCmd, State.busy_of_pend_some hp]
  exact ⟨rfl, rfl⟩

/-! ### The engine's turn -/

theorem step_agenda_nil {s : State} (h : s.agenda = []) : step s = engineTurn s.freshEpoch := by
  simp only [step, h]

/-- A legal word's turn is its command (40_control.md R173). -/
theorem engineTurn_legal {s : State} {p : Pending} {i : Instr} (hp : s.pend = some p)
    (hd : decode p.word = .ok i) : engineTurn s = exec i s := by
  simp only [engineTurn, hp, hd]

/-- Settles O6: taking the event off the agenda and opening a new draw epoch leave PEND alone. -/
theorem stepRunsDecodedCommand : Obligations.StepRunsDecodedCommand := by
  unfold Obligations.StepRunsDecodedCommand
  intro s p i hp hd
  refine ⟨fun hag => ?_, fun rest hag => ?_⟩
  · rw [step_agenda_nil hag]
    exact engineTurn_legal hp hd
  · rw [step_engine hag]
    exact engineTurn_legal hp hd

/-- A full 32-bit word is placed as it stands. -/
theorem State.withFetchWord_toNat (s : State) (w : Word) :
    s.withFetchWord 32 w.toNat = (s.accept w).withAgenda (.engine :: s.agenda) := by
  rw [State.withFetchWord, Nat.mod_eq_of_lt w.isLt, BitVec.ofNat_toNat, BitVec.setWidth_eq]

/-- Settles O7: the placed word is accepted with the engine's turn next, and it decodes to `i`. -/
theorem fetchWordIsRunNext : Obligations.FetchWordIsRunNext := by
  unfold Obligations.FetchWordIsRunNext
  intro s i
  rw [s.withFetchWord_toNat, step_engine rfl]
  exact engineTurn_legal rfl (decode_encode i)

/-! ### NOP and CLEAR -/

/-- With opcode 0x00, format N reserves every other bit (30_encoding.md R126). -/
theorem decode_opcode_nop {w : Word} (h : opcodeOf w = 0x00) :
    decode w = whenReservedZero (w.extractLsb' 8 24 == 0) .nop := by
  rw [decode, h]
  rfl

/-- A word whose OPCODE and reserved bits are 0 is the word 0 (30_encoding.md R120). -/
theorem eq_zero_of_fields {w : Word} (hop : opcodeOf w = 0x00) (hz : w.extractLsb' 8 24 = 0) :
    w = 0 := by
  obtain ⟨hhi, hv⟩ := (reservedN_eq_zero_iff w).mp hz
  exact (encode_eq_iff (i := .nop).mpr ⟨hhi, hv, hop⟩).symm

/-- Settles O16: NOP's body leaves the state as it is, and the bits NOP reserves are all but OPCODE. -/
theorem nopOnlyCompletes : Obligations.NopOnlyCompletes := by
  unfold Obligations.NopOnlyCompletes
  refine ⟨fun s p hp => ?_, fun w hop hne => ?_⟩
  · rw [exec_eq]
    exact finish_ok hp rfl
  · have hres : (w.extractLsb' 8 24 == 0) = false :=
      beq_eq_false_iff_ne.mpr fun hz => hne (eq_zero_of_fields hop hz)
    rw [decode_opcode_nop hop, hres]
    rfl

/-- Settles O17: CLEAR's body is `clearState`, which leaves PEND alone. -/
theorem clearResetsItsState : Obligations.ClearResetsItsState := by
  unfold Obligations.ClearResetsItsState
  intro s p hp
  refine ⟨FreqTable.zero, FreqTable.get_zero, ?_⟩
  rw [exec_eq]
  exact finish_ok (s := clearState s) hp rfl

end Sys2Proof.Machine
end

section
/-! COUNT, BUILD and PATH (41_analysis.md): each command's forward equation in each of its cases, and the
statements read off the laws of COUNT's table, BUILD's loop and the codes. -/

namespace Sys2Proof.Machine

/-! ### COUNT -/

/-- The number of bytes equal to `v` that a region read sees, offset by offset. -/
theorem State.region_count (s : State) (site : Site) (v : Byte) :
    (s.region site).count v = ((List.range (s.inLen.toNat - s.inPtr.toNat)).filter fun k =>
      s.ibufByte site (s.inPtr.toNat + k) = v).length := by
  rw [State.region, State.ibufBytes, List.count, List.countP_map, List.countP_eq_length_filter]
  rfl

/-- A region's length is that of a 32-bit register at most (10_state.md R30). -/
theorem State.regionLen_lt (s : State) : s.regionLen < 2 ^ 32 :=
  lt_of_le_of_lt (Nat.sub_le _ _) s.inLen.isLt

/-- Settles O18: the table of the region's bytes, whose length both 64-bit ORIG_LEN and the 128-bit
counters can hold. -/
theorem countTabulatesRegion : Obligations.CountTabulatesRegion := by
  unfold Obligations.CountTabulatesRegion
  intro s p hp
  have hlen := s.regionLen_lt
  refine ⟨fun hbad => ?_, fun hok _ =>
    ⟨countBytes (s.region .count), BitVec.ofNat 64 s.regionLen, ?_, ?_, ?_, fun v => ?_⟩⟩
  · rw [exec_eq]
    exact finish_err hp (andThen_err (inCheck_err hbad))
  · rw [exec_eq]
    exact finish_ok hp (andThen_ok (inCheck_ok hok))
  · rw [BitVec.toNat_ofNat, Nat.mod_eq_of_lt (by omega), State.regionLen]
  · rw [countBytes_total (by rw [State.region_length]; omega), State.region_length,
      BitVec.toNat_ofNat, Nat.mod_eq_of_lt (by omega)]
  · rw [countBytes_get_toNat (by rw [State.region_length]; omega), State.region_count]

/-! ### BUILD -/

theorem exec_build_of_some {s : State} {p : Pending} {t : HufTree} (hp : s.pend = some p)
    (ht : buildTree s.freq = some t) :
    exec .build s = .next (({ s with tree := some t } : State).finished p) := by
  rw [exec_eq]
  exact finish_ok hp (by simp only [bodyOf, buildStep, ht])

theorem exec_build_of_none {s : State} {p : Pending} (hp : s.pend = some p)
    (ht : buildTree s.freq = none) :
    exec .build s = .next (({ s with tree := none } : State).aborted p .emptyInput 0) := by
  rw [exec_eq]
  exact finish_err hp (by simp only [bodyOf, buildStep, ht])

/-- The tree after BUILD is the tree of its counts, or none (41_analysis.md R195). -/
theorem exec_build_tree {s s' : State} {p : Pending} (hp : s.pend = some p)
    (h : exec .build s = .next s') : s'.tree = buildTree s.freq := by
  cases ht : buildTree s.freq with
  | none =>
    rw [exec_build_of_none hp ht, Host.Outcome.next.injEq] at h
    rw [← h, State.aborted_tree]
  | some t =>
    rw [exec_build_of_some hp ht, Host.Outcome.next.injEq] at h
    rw [← h, State.finished_tree]

/-- Settles O19: BUILD's loop ends without a tree only over an empty working set, and the abort leaves
no tree. -/
theorem buildWithoutCountsAborts : Obligations.BuildWithoutCountsAborts := by
  unfold Obligations.BuildWithoutCountsAborts
  intro s p hp
  rw [← buildTree_none_iff]
  refine ⟨exec_build_of_none hp, fun h => ?_⟩
  rw [← exec_build_tree hp h, State.aborted_tree]

/-- BUILD's tree has a leaf for exactly the nonzero counts (41_analysis.md R197). -/
theorem buildTree_mem_weightedLeaves {F : FreqTable} {t : HufTree} (h : buildTree F = some t)
    (v : Byte) (w : Weight) : (v, w) ∈ t.weightedLeaves ↔ w = F.get v ∧ w ≠ 0 := by
  simp only [(buildTree_weightedLeaves h).mem_iff, List.mem_map, mem_usedValues, Prod.mk.injEq]
  constructor
  · rintro ⟨u, hu, rfl, rfl⟩
    exact ⟨rfl, hu⟩
  · rintro ⟨rfl, hw⟩
    exact ⟨v, hw, rfl, rfl⟩

/-- Settles O20: the laws of BUILD's tree, which has at most 256 leaves as it repeats none. -/
theorem buildMakesWeightedTree : Obligations.BuildMakesWeightedTree := by
  unfold Obligations.BuildMakesWeightedTree
  rintro s p hp ⟨v, hv⟩ htotal
  obtain ⟨t, ht⟩ := Option.ne_none_iff_exists'.mp fun h => hv ((buildTree_none_iff s.freq).mp h v)
  obtain ⟨hadd, hroot⟩ := buildTree_weights htotal ht
  have hwf := buildTree_wf ht
  refine ⟨t, exec_build_of_some hp ht, hadd, buildTree_leftLighter ht, hroot,
    of_decide_eq_true hwf, buildTree_mem_weightedLeaves ht, ?_, fun u x hx => ?_⟩
  · have := t.nodes_eq
    omega
  · have := HufTree.code_length_lt hx
    have := HufTree.wf_leaves_le hwf
    omega

/-- A field of the leaf entries that depends on the byte value alone is mapped over the used values. -/
theorem leafEntries_map {α : Type} (F : FreqTable) {f : Entry → α} {g : Byte → α}
    (hfg : ∀ v n, f ⟨F.get v, n, .leaf (F.get v) v⟩ = g v) :
    (leafEntries F).map f = (usedValues F).map g := by
  conv_rhs => rw [← List.zipIdx_map_fst 0 (usedValues F)]
  rw [leafEntries, List.map_map, List.map_map]
  exact List.map_congr_left fun q _ => hfg q.1 q.2

/-- BUILD's tree is that of the loop over its leaf entries, in whatever order (10_state.md R52). -/
theorem buildTree_builds {F : FreqTable} {t : HufTree} (h : buildTree F = some t) :
    Builds (leafEntries F) (leafEntries F).length t :=
  (mergeEntries_builds (entriesOk_init F) h).perm (foldr_insertEntry_perm _)

/-- Settles O21: the working set is the leaf entries, before BUILD puts them in order. -/
theorem buildFollowsTieBreak : Obligations.BuildFollowsTieBreak := by
  unfold Obligations.BuildFollowsTieBreak
  intro s s' p t hp hexec htree used
  have hused : used = usedValues s.freq := List.filter_congr fun v _ =>
    Bool.eq_iff_iff.mpr (by rw [decide_eq_true_iff, bne_iff_ne])
  have ht : buildTree s.freq = some t := (exec_build_tree hp hexec).symm.trans htree
  rw [hused]
  refine ⟨leafEntries s.freq, leafEntries_map _ fun _ _ => rfl, leafEntries_map _ fun _ _ => rfl,
    leafEntries_seq s.freq, ?_⟩
  rw [← leafEntries_length]
  exact buildTree_builds ht

/-! ### PATH -/

theorem exec_path_of_none {s : State} {p : Pending} (v : Byte) (hp : s.pend = some p)
    (ht : s.tree = none) : exec (.path v) s = .next (s.aborted p .noTree 0) := by
  rw [exec_eq]
  exact finish_err hp (by simp only [bodyOf, pathStep, ht])

theorem exec_path_found {s : State} {p : Pending} {t : HufTree} {v : Byte} {x : Code}
    (hp : s.pend = some p) (ht : s.tree = some t) (hx : t.code? v = some x) :
    exec (.path v) s = .next (({ s with
      pathFound := true
      pathLen := BitVec.ofNat 9 x.length
      pathBits := pathBitsOf x } : State).finished p) := by
  rw [exec_eq]
  exact finish_ok hp (by simp only [bodyOf, pathStep, ht, hx])

theorem exec_path_absent {s : State} {p : Pending} {t : HufTree} {v : Byte} (hp : s.pend = some p)
    (ht : s.tree = some t) (hx : t.code? v = none) :
    exec (.path v) s = .next
      (({ s with pathFound := false, pathLen := 0, pathBits := 0 } : State).finished p) := by
  rw [exec_eq]
  exact finish_ok hp (by simp only [bodyOf, pathStep, ht, hx])

/-- LEAFMAP has a byte value's bit set exactly where the value has a code (10_state.md R40, R47). -/
theorem State.leafMap_getLsbD {s : State} {t : HufTree} (ht : s.tree = some t) (v : Byte) :
    s.leafMap.getLsbD v.toNat = (t.code? v).isSome := by
  obtain ⟨-, -, -, hmap⟩ := State.summaries_some ht
  rw [Bool.eq_iff_iff, hmap, t.leafMap_getLsbD, t.code?_isSome]

/-- Settles O22: PATH's three cases; a code of a tree that repeats no leaf fits PATH_LEN and
PATH_BITS. -/
theorem pathReturnsRootToLeafCode : Obligations.PathReturnsRootToLeafCode := by
  unfold Obligations.PathReturnsRootToLeafCode
  intro s p v hp
  refine ⟨exec_path_of_none v hp, fun t ht hwf hmem => ?_, fun t ht hmem => ?_⟩
  · rw [State.leafMap_getLsbD ht] at hmem
    obtain ⟨x, hx⟩ := Option.isSome_iff_exists.mp hmem
    obtain ⟨w, hw⟩ := HufTree.follow_code hx
    have hlen : x.length < 256 := (HufTree.code_length_lt hx).trans_le (HufTree.wf_leaves_le hwf)
    refine ⟨x, w, pathBitsOf x, BitVec.ofNat 9 x.length, hw, ?_, pathBitsOf_getLsbD x hlen.le,
      exec_path_found hp ht hx⟩
    rw [BitVec.toNat_ofNat, Nat.mod_eq_of_lt (by omega)]
  · rw [State.leafMap_getLsbD ht] at hmem
    exact exec_path_absent hp ht (by simpa using hmem)

/-- A code that another one begins with is the code of the same value (41_analysis.md R208). -/
theorem HufTree.eq_of_code_starts {t : HufTree} {u v : Byte} {x y : Code}
    (hu : t.code? u = some x) (hv : t.code? v = some y) (h : x <+: y) : u = v := by
  obtain ⟨e, rfl⟩ := h
  obtain ⟨_, hx⟩ := HufTree.follow_code hu
  obtain ⟨_, hy⟩ := HufTree.follow_code hv
  exact (HufTree.follow_leaf_append hx hy).2

/-- Settles O23, in both directions. -/
theorem codesArePrefixFree : Obligations.CodesArePrefixFree := by
  unfold Obligations.CodesArePrefixFree
  intro t u v x y hu hv hne
  exact ⟨fun h => hne (HufTree.eq_of_code_starts hu hv h),
    fun h => hne (HufTree.eq_of_code_starts hv hu h).symm⟩

end Sys2Proof.Machine
end

section
/-! SERIALIZE and DESERIALIZE (42_tree_codec.md): what each command answers in each of its cases, and the
parse of a blob that repeats a leaf value. -/

namespace Sys2Proof.Machine

/-- A cursor value that fits a 32-bit register is held as it is (00_scope.md R10). -/
theorem toNat_ofNat_word {n : Nat} (h : n < 2 ^ 32) : (BitVec.ofNat 32 n).toNat = n := by
  rw [BitVec.toNat_ofNat, Nat.mod_eq_of_lt h]

/-! ### SERIALIZE -/

/-- OUT_LEN after an append that fits a legal OBUF (10_state.md R32). -/
theorem State.emit_outLen_toNat {s : State} {b : List Byte} (hpar : s.paramsOk = true)
    (hfit : s.outLen.toNat + b.length ≤ s.obufSize) :
    (s.emit b).outLen.toNat = s.outLen.toNat + b.length := by
  obtain ⟨-, -, -, hmax⟩ := State.paramsOk_iff.mp hpar
  rw [State.emit, BitVec.toNat_add, toNat_ofNat_word (by omega), Nat.mod_eq_of_lt (by omega)]

/-- SERIALIZE with a tree whose blob exists is the output of that blob (42_tree_codec.md R232). -/
theorem serializeStep_blob {s : State} {t : HufTree} {b : List Byte} (ho : s.outRegionOk = true)
    (ht : s.tree = some t) (hb : t.ser = some b) : serializeStep s = s.output b := by
  rw [serializeStep, andThen_ok (outCheck_ok ho)]
  simp only [ht, hb]

/-- Settles O25: the checks in the order of SERIALIZE's pseudocode, then the one output. -/
theorem serializeAppendsBlob : Obligations.SerializeAppendsBlob := by
  unfold Obligations.SerializeAppendsBlob
  intro s p hp hpar
  simp only [exec_eq, bodyOf]
  refine ⟨fun hbad => ?_, fun ho ht => ?_, fun t ho ht hser => ?_, fun t b ho ht hser =>
    ⟨fun hbig => ?_, fun hfit => ?_⟩⟩
  · exact finish_err hp (andThen_err (outCheck_err hbad))
  · exact finish_err hp ((andThen_ok (outCheck_ok ho)).trans (by simp only [ht]))
  · exact finish_err hp ((andThen_ok (outCheck_ok ho)).trans (by simp only [ht, hser]))
  · exact finish_err hp ((serializeStep_blob ho ht hser).trans (output_err hbig))
  · exact ⟨_, _, State.emit_outLen_toNat hpar hfit, Memory.writeBytes_stored _ _ b,
      finish_ok (s := s.emit b) hp ((serializeStep_blob ho ht hser).trans (output_ok hfit))⟩

/-! ### DESERIALIZE: the two ways it ends over a legal region -/

/-- A blob that the parse of a whole blob accepts (42_tree_codec.md R236, R239, R240). -/
theorem State.parseBlob_ok {s : State} {a e : Nat} {t : HufTree} {st : ParseState}
    (h : s.parseBlob a e = .ok (t, st)) : e = a + t.blobLen ∧ t.wf = true ∧ t.nodes ≤ 511 := by
  obtain ⟨hlen, hcount, hmax, -⟩ := parse_ok h
  simp only [Config.maxNodes] at hcount hmax
  exact ⟨hlen, parse_ok_wf h, by omega⟩

/-- DESERIALIZE over a legal region leaves the tree that the parse of the bytes up to the new IN_PTR
gives, or reports an offset of the region (42_tree_codec.md R236). -/
theorem exec_deserialize_cases {s : State} {p : Pending} (e : Bool) (hp : s.pend = some p)
    (hr : s.inRegionOk = true) :
    (∃ (t : HufTree) (st : ParseState) (n : Word),
      s.parseBlob s.inPtr.toNat n.toNat = .ok (t, st) ∧ n.toNat ≤ s.inLen.toNat ∧
      (e = true → n = s.inLen) ∧
      exec (.deserialize e) s = .next
        (({ s with tree := some t, inPtr := n } : State).finished p)) ∨
    ∃ a : Word, s.inPtr.toNat ≤ a.toNat ∧ a.toNat ≤ s.inLen.toNat ∧
      exec (.deserialize e) s = .next
        (({ s with tree := none } : State).aborted p .formatError a) := by
  obtain ⟨hle, -⟩ := State.inRegionOk_iff.mp hr
  have hlt := s.inLen.isLt
  have hspec := deserializeStep_spec e s
  rw [exec_eq, bodyOf]
  cases hstep : deserializeStep e s with
  | ok u =>
    rw [hstep] at hspec
    obtain ⟨-, t, st, hL, hexact, hparse, rfl⟩ := hspec
    unfold State.regionLen at hL hexact
    have hn : (BitVec.ofNat 32 (s.inPtr.toNat + s.declaredLen)).toNat =
        s.inPtr.toNat + s.declaredLen := toNat_ofNat_word (by omega)
    refine .inl ⟨t, st, _, hn.symm ▸ hparse, by omega, fun he => ?_, finish_ok hp rfl⟩
    have := hexact he
    exact BitVec.eq_of_toNat_eq (by omega)
  | err code info u =>
    rw [hstep] at hspec
    obtain ⟨hbad, -⟩ | ⟨-, rfl, rfl, a, rfl, hlo, hhi⟩ := hspec
    · rw [hr] at hbad
      cases hbad
    · have ha := toNat_ofNat_word (n := a) (by omega)
      exact .inr ⟨_, by omega, by omega, finish_err hp rfl⟩

/-- Settles O28: a bad region, or one of the two ends over a legal region. -/
theorem deserializeOutcomes : Obligations.DeserializeOutcomes := by
  unfold Obligations.DeserializeOutcomes
  intro s p e hp
  refine ⟨fun hbad => ?_, fun hr => ?_⟩
  · rw [exec_eq]
    exact finish_err hp (andThen_err (inCheck_err hbad))
  · obtain ⟨t, st, n, hparse, hn, he, hexec⟩ | ⟨a, hlo, hhi, hexec⟩ :=
      exec_deserialize_cases e hp hr
    · obtain ⟨hlen, hwf, hnodes⟩ := State.parseBlob_ok hparse
      exact .inl ⟨t, n, hwf, hnodes, hlen, hn, he, hexec⟩
    · exact .inr ⟨a, hlo, hhi, hexec, State.summaries_none rfl⟩

/-! ### DESERIALIZE and ser -/

/-- DESERIALIZE of a region that starts with the blob of a tree without repeated values; EXACT = 1 wants
nothing after it (42_tree_codec.md R236, R244). -/
theorem exec_deserialize_blob {s : State} {p : Pending} {t : HufTree} {b : List Byte} (e : Bool)
    (hp : s.pend = some p) (hw : t.wf = true) (hb : t.ser = some b) (h : s.regionStarts b)
    (he : e = true → s.regionLen = b.length) :
    exec (.deserialize e) s = .next (({ s with
      tree := some t
      inPtr := BitVec.ofNat 32 (s.inPtr.toNat + b.length) } : State).finished p) := by
  rw [exec_eq]
  exact finish_ok hp (deserializeStep_blob e hw hb h he)

/-- Settles O27: IN_PTR past the blob stays below IN_LEN, so it does not wrap. -/
theorem deserializeReadsLeadingBlob : Obligations.DeserializeReadsLeadingBlob := by
  unfold Obligations.DeserializeReadsLeadingBlob
  intro s p t b hp hw hb h
  have hlt : s.inPtr.toNat + b.length < 2 ^ 32 := h.2.1.trans_lt s.inLen.isLt
  exact ⟨_, toNat_ofNat_word hlt, exec_deserialize_blob false hp hw hb h (by simp)⟩

/-- An accepted stretch of a written region is the serialization of the tree it is read as
(42_tree_codec.md R244). -/
theorem ser_of_parseBlob {s : State} {d : List Byte} {n : Nat} {t : HufTree}
    {st : ParseState} (h : s.regionIs d) (hn : n ≤ s.inLen.toNat)
    (hparse : s.parseBlob s.inPtr.toNat n = .ok (t, st)) :
    t.ser = some (d.take (n - s.inPtr.toNat)) := by
  have hlen := h.2.1
  have htake : readsAt (s.ibufByte .header) s.inPtr.toNat (d.take (n - s.inPtr.toNat)) := by
    have hd := h.readsAt .header
    rw [← List.take_append_drop (n - s.inPtr.toNat) d, readsAt_append] at hd
    exact hd.1
  have hagree : ∀ x, s.inPtr.toNat ≤ x → x < n → s.ibufByte .leftSize x = s.ibufByte .header x := by
    intro x hlo hhi
    obtain ⟨i, rfl⟩ := Nat.exists_eq_add_of_le hlo
    rw [h.readsAt .leftSize i (by omega), h.readsAt .header i (by omega)]
  have hread := readBytes_eq htake
  rw [List.length_take, Nat.min_eq_left (by omega)] at hread
  rw [ser_of_parse_agree hagree hparse, hread]

/-- Settles O26: `parse` reads back what `ser` wrote, and `ser` writes what `parse` accepted. -/
theorem deserializeInvertsSerialize : Obligations.DeserializeInvertsSerialize := by
  unfold Obligations.DeserializeInvertsSerialize
  refine ⟨fun s p t b hp hw hb h => ?_, fun s s' p e d hp h hexec hok => ?_⟩
  · have hstart : s.regionStarts b := State.regionIs.starts (rest := []) (by simpa using h)
    have hptr : BitVec.ofNat 32 (s.inPtr.toNat + b.length) = s.inLen := by
      rw [← h.2.1, BitVec.ofNat_toNat, BitVec.setWidth_eq]
    rw [exec_deserialize_blob true hp hw hb hstart fun _ => h.regionLen_eq, hptr]
  · obtain ⟨t, st, n, hparse, hn, he, hnext⟩ | ⟨a, -, -, hnext⟩ :=
      exec_deserialize_cases e hp h.inRegionOk
    · obtain rfl : s' = _ := Host.Outcome.next.inj (hexec.symm.trans hnext)
      have hlen := h.2.1
      have hend := (State.parseBlob_ok hparse).1
      refine ⟨t, _, _, rfl, ser_of_parseBlob h hn hparse, (List.take_append_drop _ d).symm, ?_,
        fun heq => ?_⟩
      · rw [State.finished_inPtr, List.length_take, Nat.min_eq_left (by omega)]
        simp only
        omega
      · rw [he heq, List.take_of_length_le (by omega)]
    · obtain rfl : s' = _ := Host.Outcome.next.inj (hexec.symm.trans hnext)
      cases hok

/-! ### Corrupt blobs -/

/-- With EXACT = 1 a region of another length than its root declares is a FormatError at IN_PTR
(42_tree_codec.md R236). -/
theorem deserializeStep_length_ne {s : State} (hr : s.inRegionOk = true)
    (hne : s.regionLen ≠ s.declaredLen) :
    deserializeStep true s = .err .formatError s.inPtr { s with tree := none } := by
  have hfail : formatFail s.inPtr.toNat s = .err .formatError s.inPtr { s with tree := none } := by
    rw [formatFail, BitVec.ofNat_toNat, BitVec.setWidth_eq]
  rw [deserializeStep, andThen_ok (inCheck_ok hr)]
  simp only [hne, hfail, ne_eq, not_false_eq_true, and_self, if_true, ite_self]

/-- Settles O29: the root declares another length than the region has. -/
theorem rootSizeCorruptionIsFormatError : Obligations.RootSizeCorruptionIsFormatError := by
  unfold Obligations.RootSizeCorruptionIsFormatError
  intro s p t b ps hp hb hps hne h
  have hlen : 19 ≤ b.length := by
    have := HufTree.ser_length hb
    have := t.blobLen_eq
    have := t.leaves_length_pos
    omega
  have hw : (b.take 16).length = 16 := by rw [List.length_take, Nat.min_eq_left (by omega)]
  have hregion : s.regionLen = b.length := by
    rw [h.regionLen_eq, List.length_append, List.length_append, hw, toBE_length, List.length_drop]
    omega
  rw [exec_eq]
  refine finish_err hp (deserializeStep_length_ne h.inRegionOk ?_)
  rw [State.declaredLen_eq hw hps h.2.2, hregion]
  exact hne.symm

/-- The size field of a blob holds its payload's length (30_encoding.md R130). -/
theorem readBytes_size_of_ser {rd : Nat → Byte} {s : Nat} {t : HufTree} {b : List Byte}
    (hb : t.ser = some b) (h : readsAt rd s b) :
    18 + ofBE (readBytes rd (s + 16) 2) = b.length := by
  obtain ⟨p, rfl, hp, -⟩ := HufTree.ser_parts hb
  rw [readsAt_append, readsAt_append, toBE_length] at h
  rw [ofBE_read_toBE h.1.2 (by omega)]
  simp only [List.length_append, toBE_length]

/-- A leaf whose value was seen before fails at its header (42_tree_codec.md R239). -/
theorem parse_leaf_seen {rd ahead : Nat → Byte} {depth s : Nat} {st : ParseState} {w : Weight}
    {v : Byte} {b : List Byte} (hb : (HufTree.leaf w v).ser = some b) (hr : readsAt rd s b)
    (hv : v ∈ st.seen) : parse rd ahead depth s (s + b.length) st = .error s := by
  have hlen : b.length = 19 := HufTree.ser_length hb
  have hsize := readBytes_size_of_ser hb hr
  have hval : rd (s + 18) = v := by
    rw [hr 18 (by omega)]
    simp only [HufTree.ser, Option.some.injEq] at hb
    subst hb
    rfl
  cases depth with
  | zero => rfl
  | succ depth =>
    simp only [parse, hval, hv, if_true]
    rw [if_pos (show ofBE (readBytes rd (s + 16) 2) = 1 by omega)]
    simp only [ite_self]

/-- A node whose left child is read and whose right child fails, fails where the right child does
(42_tree_codec.md R237). -/
theorem parse_node_right_error {rd ahead : Nat → Byte} {depth s a : Nat} {st st1 : ParseState}
    {w : Weight} {l r : HufTree} {b p : List Byte} (hb : (HufTree.node w l r).ser = some b)
    (hp : l.ser = some p) (hr : readsAt rd s b) (hahead : readsAt ahead (s + 18) p)
    (hcount : st.count < Config.maxNodes)
    (hleft : parse rd ahead depth (s + 18) (s + 18 + p.length) ⟨st.count + 1, st.seen⟩ =
      .ok (l, st1))
    (hright : parse rd ahead depth (s + 18 + p.length) (s + b.length) st1 = .error a) :
    parse rd ahead (depth + 1) s (s + b.length) st = .error a := by
  have hsize := readBytes_size_of_ser hb hr
  have hleftSize := readBytes_size_of_ser hp hahead
  have hlen := HufTree.ser_length hb
  have hplen := HufTree.ser_length hp
  have hlblob := l.blobLen_eq
  have hrblob := r.blobLen_eq
  have hlpos := l.leaves_length_pos
  have hrpos := r.leaves_length_pos
  rw [HufTree.blobLen] at hlen
  have hle : s + 18 + 18 + ofBE (readBytes ahead (s + 18 + 16) 2) = s + 18 + p.length := by omega
  simp only [parse, hle, hleft, hright]
  rw [if_neg (by omega), if_neg (by omega), if_neg (by omega), if_neg (by omega),
    if_neg (by omega), if_neg (by omega)]

/-- Two sibling leaves of one value: the second one's header is the offset (42_tree_codec.md R239). -/
theorem parseBlob_twin_leaves {s : State} {w wl wr : Weight} {v : Byte}
    {b : List Byte} (hb : (HufTree.node w (.leaf wl v) (.leaf wr v)).ser = some b)
    (h : s.regionIs b) :
    s.parseBlob s.inPtr.toNat (s.inPtr.toNat + b.length) = .error (s.inPtr.toNat + 37) := by
  obtain ⟨p, q, hp, hq, -, hbpq⟩ := HufTree.ser_node hb
  have hplen : p.length = 19 := HufTree.ser_length hp
  have hqlen : q.length = 19 := HufTree.ser_length hq
  have hchildren (site : Site) : readsAt (s.ibufByte site) (s.inPtr.toNat + 18) p ∧
      readsAt (s.ibufByte site) (s.inPtr.toNat + 18 + p.length) q := by
    have hr := h.readsAt site
    rw [hbpq, readsAt_append, readsAt_append (b := p)] at hr
    simpa [toBE_length] using hr.2
  obtain ⟨hrp, hrq⟩ := hchildren .header
  have hap := (hchildren .leftSize).1
  refine parse_node_right_error hb hp (h.readsAt .header) hap (by decide)
    (parse_ser hp hrp hap (show 1 ≤ 511 by decide) (show 0 + 1 + 1 ≤ 511 by decide)
      (by simp [HufTree.leaves]) (by simp)) ?_
  have hend : s.inPtr.toNat + b.length = s.inPtr.toNat + 18 + p.length + q.length := by
    rw [HufTree.ser_length hb, hplen, hqlen]
    rfl
  rw [hend, parse_leaf_seen hq hrq (by simp [HufTree.leaves]), hplen]

/-- With EXACT = 1, DESERIALIZE of a blob whose parse fails reports the offset of the failure
(42_tree_codec.md R236). -/
theorem deserializeStep_parse_error {s : State} {t : HufTree} {b : List Byte} {a : Nat}
    (hb : t.ser = some b) (h : s.regionIs b)
    (ha : s.parseBlob s.inPtr.toNat (s.inPtr.toNat + b.length) = .error a) :
    deserializeStep true s = .err .formatError (BitVec.ofNat 32 a) { s with tree := none } := by
  have hdeclared : s.declaredLen = b.length := readBytes_size_of_ser hb (h.readsAt .rootSize)
  have h18 : ¬ b.length < 18 := by
    rw [← hdeclared, State.declaredLen]
    omega
  rw [deserializeStep, andThen_ok (inCheck_ok h.inRegionOk)]
  simp only [h.regionLen_eq, hdeclared, h18, ha, formatFail, ne_eq, not_true_eq_false, and_false,
    lt_irrefl, if_false]

/-- Settles O30: had DESERIALIZE succeeded, its tree, which repeats no value, would be the one of the
blob; two sibling leaves are parsed. -/
theorem duplicateLeafIsFormatError : Obligations.DuplicateLeafIsFormatError := by
  unfold Obligations.DuplicateLeafIsFormatError
  refine ⟨fun s p t b hp hb hdup h => ?_, fun s p w wl wr v b hp hb h => ?_⟩
  · obtain ⟨t', st, n, hparse, hn, he, -⟩ | ⟨a, -, -, hexec⟩ :=
      exec_deserialize_cases true hp h.inRegionOk
    · have hlen := h.2.1
      have hser := ser_of_parseBlob h hn hparse
      rw [he rfl, List.take_of_length_le (by omega)] at hser
      obtain rfl := HufTree.ser_inj hb hser
      exact absurd (of_decide_eq_true (State.parseBlob_ok hparse).2.1) hdup
    · exact ⟨a, hexec⟩
  · have hoffset : BitVec.ofNat 32 (s.inPtr.toNat + 37) = s.inPtr + 37 := by
      rw [BitVec.ofNat_add, BitVec.ofNat_toNat, BitVec.setWidth_eq]
      rfl
    rw [exec_eq, ← hoffset]
    exact finish_err hp (deserializeStep_parse_error hb h (parseBlob_twin_leaves hb h))

end Sys2Proof.Machine
end

section
/-! WRLEN, RDLEN, PACK and UNPACK (43_bitstream.md): what each command answers in each of its
cases, and the inverse law of the two stream commands. -/

namespace Sys2Proof.Machine

/-! ### Cursors and the region checks -/

/-- A number that fits a 64-bit register is held as it is (00_scope.md R10). -/
theorem toNat_ofNat_dword {n : Nat} (h : n < 2 ^ 64) : (BitVec.ofNat 64 n).toNat = n := by
  rw [BitVec.toNat_ofNat, Nat.mod_eq_of_lt h]

/-- A cursor that advances inside 32 bits does not wrap (00_scope.md R10). -/
theorem toNat_add_ofNat_word {w : Word} {n : Nat} (h : w.toNat + n < 2 ^ 32) :
    (w + BitVec.ofNat 32 n).toNat = w.toNat + n := by
  rw [BitVec.toNat_add, toNat_ofNat_word (by omega), Nat.mod_eq_of_lt h]

theorem bothChecks_ok {s : State} (hi : s.inRegionOk = true) (ho : s.outRegionOk = true) :
    (inCheck s).andThen outCheck = .ok s :=
  (andThen_ok (inCheck_ok hi)).trans (outCheck_ok ho)

theorem bothChecks_err_in {s : State} (hi : s.inRegionOk = false) :
    (inCheck s).andThen outCheck = .err .badRegion 0 s :=
  andThen_err (inCheck_err hi)

theorem bothChecks_err_out {s : State} (hi : s.inRegionOk = true) (ho : s.outRegionOk = false) :
    (inCheck s).andThen outCheck = .err .badRegion 1 s :=
  (andThen_ok (inCheck_ok hi)).trans (outCheck_err ho)

theorem State.emit_nil (s : State) : s.emit [] = s := by
  simp only [State.emit, Memory.writeBytes, List.length_nil, BitVec.add_zero]

/-! ### WRLEN and RDLEN -/

/-- Settles O31: the check of OUT_LEN, then the one output of ORIG_LEN's eight bytes. -/
theorem wrlenAppendsBigEndianLength : Obligations.WrlenAppendsBigEndianLength := by
  unfold Obligations.WrlenAppendsBigEndianLength
  intro s p hp hpar
  have hlen := toBE_length 8 s.origLen.toNat
  simp only [exec_eq, bodyOf, ← toBE_eq_extract]
  refine ⟨fun hbad => ?_, fun ho hbig => ?_, fun hfit => ?_⟩
  · exact finish_err hp (andThen_err (outCheck_err hbad))
  · exact finish_err hp ((andThen_ok (outCheck_ok ho)).trans (output_err (by omega)))
  · have ho : s.outRegionOk = true := State.outRegionOk_iff.mpr (by omega)
    have hn := State.emit_outLen_toNat hpar (b := toBE 8 s.origLen.toNat) (by omega)
    rw [hlen] at hn
    exact ⟨_, _, hn, Memory.writeBytes_stored _ _ _, finish_ok (s := s.emit _) hp
      ((andThen_ok (outCheck_ok ho)).trans (output_ok (by omega)))⟩

/-- The bytes of a 64-bit register that holds eight bytes read big-endian are those bytes
(00_scope.md R12). -/
theorem extractLsb'_ofBE {b : List Byte} (hb : b.length = 8) {k : Nat} (hk : k < 8) :
    (BitVec.ofNat 64 (ofBE b)).extractLsb' (56 - 8 * k) 8 = b[k] := by
  have hlt := ofBE_lt b
  have hbytes := toBE_ofBE b
  rw [hb] at hlt hbytes
  have hfields := toBE_eq_extract (BitVec.ofNat 64 (ofBE b))
  rw [toNat_ofNat_dword (by omega), hbytes] at hfields
  rw [List.getElem_of_eq hfields (by omega), List.getElem_map, List.getElem_range]

/-- Settles O32: the checks in the order of RDLEN's pseudocode; the eight bytes lie below IN_LEN, so
IN_PTR does not wrap. -/
theorem rdlenLoadsBigEndianLength : Obligations.RdlenLoadsBigEndianLength := by
  unfold Obligations.RdlenLoadsBigEndianLength
  intro s p hp
  simp only [exec_eq, bodyOf]
  refine ⟨fun hbad => ?_, fun hi hshort => ?_, fun hi hlong => ?_⟩
  · exact finish_err hp (andThen_err (inCheck_err hbad))
  · exact finish_err hp ((andThen_ok (inCheck_ok hi)).trans (if_pos hshort))
  · have hptr : s.inPtr.toNat + 8 < 2 ^ 32 := by
      have := s.inLen.isLt
      omega
    refine ⟨_, _, toNat_add_ofNat_word hptr, fun k hk => ?_, finish_ok hp
      ((andThen_ok (inCheck_ok hi)).trans (if_neg (Nat.not_lt.mpr hlong)))⟩
    rw [extractLsb'_ofBE (by simp [State.ibufBytes]) hk]
    simp [State.ibufBytes]

/-! ### PACK -/

/-- The first pass stops at the first byte of a written region that has no leaf (43_bitstream.md
R270, R273). -/
theorem State.regionIs.firstWithoutLeaf_eq {s : State} {t : HufTree} {d e : List Byte} {x : Byte}
    (h : s.regionIs (d ++ x :: e)) (hd : ∀ v ∈ d, v ∈ t.leaves) (hx : x ∉ t.leaves) :
    s.firstWithoutLeaf t = some d.length := by
  have hread := h.readsAt .packCheck
  have hlen : d.length < (d ++ x :: e).length := by simp
  rw [State.firstWithoutLeaf, h.regionLen_eq, List.find?_range_eq_some]
  refine ⟨?_, List.mem_range.mpr hlen, fun j hj => ?_⟩
  · rw [hread d.length hlen, List.getElem_append_right (le_refl _)]
    simpa [← t.code?_isSome] using hx
  · rw [hread j (by omega), List.getElem_append_left hj]
    have := (t.code?_isSome d[j]).mpr (hd _ (List.getElem_mem hj))
    simpa [Option.isSome_iff_ne_none] using this

/-- Settles O35: the first pass ends PACK before the capacity check. -/
theorem packRefusesByteWithoutLeaf : Obligations.PackRefusesByteWithoutLeaf := by
  unfold Obligations.PackRefusesByteWithoutLeaf
  intro s p t d e x hp h ho ht hd hx
  have hptr : s.inPtr.toNat + d.length < 2 ^ 32 := by
    have hlen := h.2.1
    have := s.inLen.isLt
    rw [List.length_append, List.length_cons] at hlen
    omega
  refine ⟨_, toNat_add_ofNat_word hptr, ?_⟩
  rw [exec_eq]
  refine finish_err hp ((andThen_ok (bothChecks_ok h.inRegionOk ho)).trans ?_)
  simp only [ht, h.firstWithoutLeaf_eq hd hx]

/-- A code stream whose packed body fits a legal OBUF has a length that BIT_LEN holds
(10_state.md R34). -/
theorem toNat_ofNat_length_of_packBits_fits {s : State} {S : List Bool} (hpar : s.paramsOk = true)
    (hfit : s.outLen.toNat + (packBits S).length ≤ s.obufSize) :
    (BitVec.ofNat 64 S.length).toNat = S.length := by
  obtain ⟨-, -, -, hmax⟩ := State.paramsOk_iff.mp hpar
  have := ceil8_mul_ge S.length
  rw [packBits_length] at hfit
  exact toNat_ofNat_dword (by omega)

/-- Settles O34: the checks in the order of PACK's pseudocode, then the output of the packed
stream. -/
theorem packAppendsCodeStream : Obligations.PackAppendsCodeStream := by
  unfold Obligations.PackAppendsCodeStream
  intro s p hp
  simp only [exec_eq, bodyOf]
  refine ⟨fun hi => ?_, fun hi ho => ?_, fun hi ho ht => ?_, fun t d h ho ht _ hpar hd => ?_⟩
  · exact finish_err hp (andThen_err (bothChecks_err_in hi))
  · exact finish_err hp (andThen_err (bothChecks_err_out hi ho))
  · exact finish_err hp ((andThen_ok (bothChecks_ok hi ho)).trans (by simp only [ht]))
  · have hlen : ((codeBits t d).length + 7) / 8 = (packBits (codeBits t d)).length :=
      (packBits_length _).symm
    rw [hlen]
    refine ⟨fun hbig => ?_, fun hfit => ?_⟩
    · exact finish_err hp
        ((packStep_region h ho ht hd).trans (andThen_err (output_err hbig)))
    · exact ⟨_, _, _, toNat_ofNat_length_of_packBits_fits hpar hfit,
        State.emit_outLen_toNat hpar hfit, Memory.writeBytes_stored _ _ _,
        finish_ok hp ((packStep_region h ho ht hd).trans (andThen_ok (output_ok hfit)))⟩

/-- A PACK of a written region that ends with the result OK appended the packed code stream
(43_bitstream.md R270 to R272). -/
theorem exec_pack_ok {s s' : State} {p : Pending} {t : HufTree} {d : List Byte}
    (hp : s.pend = some p) (h : s.regionIs d) (ht : s.tree = some t) (hd : ∀ v ∈ d, v ∈ t.leaves)
    (hexec : exec .pack s = .next s') (hok : s'.resultCode = .ok) :
    s.outLen.toNat + (packBits (codeBits t d)).length ≤ s.obufSize ∧
      s' = State.finished p { s.emit (packBits (codeBits t d)) with
        bitLen := BitVec.ofNat 64 (codeBits t d).length } := by
  obtain ⟨u, hu, -, rfl⟩ | ⟨code, info, u, -, hcode, -, rfl⟩ := exec_next hp hexec
  · have hspec := packStep_spec s
    rw [show packStep s = .ok u from hu] at hspec
    obtain ⟨-, -, t', ht', -, hfit, rfl⟩ := hspec
    obtain rfl : t = t' := Option.some.inj (ht.symm.trans ht')
    rw [h.codeStream_eq hd] at hfit ⊢
    exact ⟨hfit, rfl⟩
  · exact absurd hok hcode

/-! ### UNPACK -/

/-- UNPACK whose checks pass and whose decoder answers (43_bitstream.md R276). -/
theorem unpackStep_ok {s : State} {t : HufTree} {out : List Byte} {k : Nat}
    (hi : s.inRegionOk = true) (ht : s.tree = some t)
    (hfit : s.outLen.toNat + s.origLen.toNat ≤ s.obufSize)
    (hdec : unpackStream s.regionBit (8 * s.regionLen) t s.origLen.toNat = .ok (out, k)) :
    unpackStep s = .ok { s.emit out with
      inPtr := s.inPtr + BitVec.ofNat 32 (ceil8 k)
      bitLen := BitVec.ofNat 64 k } := by
  have ho : s.outRegionOk = true := State.outRegionOk_iff.mpr (by omega)
  rw [unpackStep, andThen_ok (bothChecks_ok hi ho)]
  simp only [ht, hdec]
  rw [if_neg (by simp [State.overflows, hfit])]

/-- UNPACK whose checks pass and whose stream ends early (43_bitstream.md R279, 60_exceptions.md
R326 point 4). -/
theorem unpackStep_truncated {s : State} {t : HufTree} {m : Nat} (hi : s.inRegionOk = true)
    (ht : s.tree = some t) (hfit : s.outLen.toNat + s.origLen.toNat ≤ s.obufSize)
    (hdec : unpackStream s.regionBit (8 * s.regionLen) t s.origLen.toNat = .error m) :
    unpackStep s = .err .truncatedStream (BitVec.ofNat 32 m) s.forgetOutput := by
  have ho : s.outRegionOk = true := State.outRegionOk_iff.mpr (by omega)
  rw [unpackStep, andThen_ok (bothChecks_ok hi ho)]
  simp only [ht, hdec]
  rw [if_neg (by simp [State.overflows, hfit])]

/-- UNPACK whose decoder consumes no bit leaves IN_PTR (43_bitstream.md R278, R281). -/
theorem unpackStep_no_bits {s : State} {t : HufTree} {out : List Byte}
    (hi : s.inRegionOk = true) (ht : s.tree = some t)
    (hfit : s.outLen.toNat + s.origLen.toNat ≤ s.obufSize)
    (hdec : unpackStream s.regionBit (8 * s.regionLen) t s.origLen.toNat = .ok (out, 0)) :
    unpackStep s = .ok { s.emit out with bitLen := 0 } := by
  have hptr : s.inPtr + BitVec.ofNat 32 (ceil8 0) = s.inPtr := BitVec.add_zero _
  rw [unpackStep_ok hi ht hfit hdec, hptr]
  rfl

/-- No byte is decoded from no bit, whatever the tree (43_bitstream.md R281). -/
theorem unpackStream_zero (bit : Nat → Bool) (avail : Nat) (t : HufTree) :
    unpackStream bit avail t 0 = .ok ([], 0) := by
  cases t <;> rfl

/-- Settles O37: the checks in the order of UNPACK's pseudocode, then the two streams of no bits. -/
theorem unpackWithoutReadingBits : Obligations.UnpackWithoutReadingBits := by
  unfold Obligations.UnpackWithoutReadingBits
  intro s p hp hpar
  simp only [exec_eq, bodyOf]
  refine ⟨fun hi => ?_, fun hi ho => ?_, fun hi ho ht => ?_, fun t hi ho ht hbig => ?_,
    fun w v hi ht hfit => ?_, fun t hi ho ht hzero => ?_⟩
  · exact finish_err hp (andThen_err (bothChecks_err_in hi))
  · exact finish_err hp (andThen_err (bothChecks_err_out hi ho))
  · exact finish_err hp ((andThen_ok (bothChecks_ok hi ho)).trans (by simp only [ht]))
  · refine finish_err hp ((andThen_ok (bothChecks_ok hi ho)).trans ?_)
    simp only [ht]
    rw [if_pos (by simpa [State.overflows] using hbig)]
  · have hn := State.emit_outLen_toNat hpar (b := List.replicate s.origLen.toNat v) (by simpa)
    rw [List.length_replicate] at hn
    exact ⟨_, _, hn, Memory.writeBytes_stored _ _ _,
      finish_ok hp (unpackStep_no_bits hi ht hfit rfl)⟩
  · have hn : s.origLen.toNat = 0 := by rw [hzero]; rfl
    have hstep := unpackStep_no_bits hi ht
      (by rw [hn]; exact State.outRegionOk_iff.mp ho) (by rw [hn]; exact unpackStream_zero _ _ t)
    rw [State.emit_nil] at hstep
    exact finish_ok hp hstep

/-! ### UNPACK of a packed body -/

/-- A packed body starts with the stream it was made of (30_encoding.md R136). -/
theorem packBits_startsWithBits (S : List Bool) : startsWithBits (packBits S) S := by
  simpa using startsWithBits_packBits S []

/-- UNPACK of a region that starts with the codes of `d` appends `d` and consumes exactly those
bits, which lie inside the region, so no cursor wraps (43_bitstream.md R280, R282). -/
theorem exec_unpack_bits {s : State} {p : Pending} {t : HufTree} {d B : List Byte}
    (hp : s.pend = some p) (hpar : s.paramsOk = true) (ht : s.tree = some t)
    (hd : ∀ v ∈ d, v ∈ t.leaves) (hn : s.origLen.toNat = d.length)
    (hfit : s.outLen.toNat + d.length ≤ s.obufSize) (h : s.regionStarts B)
    (hB : startsWithBits B (codeBits t d)) :
    ∃ (m : Memory) (n k : Word), n.toNat = s.outLen.toNat + d.length ∧
      k.toNat = s.inPtr.toNat + ceil8 (codeBits t d).length ∧
      s.obuf.stored m s.outLen.toNat d ∧
      exec .unpack s = .next (State.finished p { s with
        obuf := m
        outLen := n
        inPtr := k
        bitLen := BitVec.ofNat 64 (codeBits t d).length }) := by
  have hptr : s.inPtr.toNat + ceil8 (codeBits t d).length < 2 ^ 32 := by
    have := hB.ceil8_le
    have := h.2.1
    have := s.inLen.isLt
    omega
  rw [exec_eq]
  exact ⟨_, _, _, State.emit_outLen_toNat hpar hfit, toNat_add_ofNat_word hptr,
    Memory.writeBytes_stored _ _ _, finish_ok hp (unpackStep_bits h hB ht hd hn hfit)⟩

/-- Settles O36: what PACK appended is determined by its place and length, and it starts with the
codes of the region. -/
theorem unpackInvertsPack : Obligations.UnpackInvertsPack := by
  unfold Obligations.UnpackInvertsPack
  refine ⟨fun s p t d B hp hpar ht hd hn hfit h hB => ?_,
    fun s s' u p q t d B hp hpar ht _ h hd hexec hok hheld hlen hq hupar hut hn hfit hu => ?_⟩
  · obtain ⟨m, n, k, hm, hk, hst, hnext⟩ := exec_unpack_bits hp hpar ht hd hn hfit h hB
    have hT : (codeBits t d).length < 2 ^ 64 := by
      have := ceil8_mul_ge (codeBits t d).length
      have := hB.ceil8_le
      have := h.2.1
      have := s.inLen.isLt
      omega
    exact ⟨m, n, k, _, hm, hk, toNat_ofNat_dword hT, hst, hnext⟩
  · obtain ⟨hpack, rfl⟩ := exec_pack_ok hp h ht hd hexec hok
    have hBlen : B.length = (packBits (codeBits t d)).length := by
      have := (State.emit_outLen_toNat hpar hpack).symm.trans hlen
      omega
    obtain rfl : B = packBits (codeBits t d) := Memory.holds_inj hheld
      (Memory.holds_of_stored (Memory.writeBytes_stored _ _ _)) hBlen
    have hunpack := exec_unpack_bits hq hupar hut hd hn hfit hu (packBits_startsWithBits _)
    rw [← packBits_length] at hunpack
    refine ⟨?_, hunpack⟩
    rw [State.finished_bitLen, toNat_ofNat_length_of_packBits_fits hpar hpack, packBits_length]
    rfl

/-! ### UNPACK of a body cut off -/

/-- The first bytes of a body hold the first bits of its stream (30_encoding.md R136). -/
theorem startsWithBits.take {B : List Byte} {S : List Bool} (h : startsWithBits B S) (n : Nat) :
    startsWithBits (B.take n) (S.take (8 * n)) := by
  intro k hk
  rw [List.length_take] at hk
  obtain ⟨x, hx, hbit⟩ := h k (by omega)
  exact ⟨x, by rw [List.getElem?_take_of_lt (by omega), hx], by rw [hbit, List.getElem_take]⟩

/-- UNPACK's decoder over a code stream that ends inside the code of byte `c`; a single leaf has
no such stream (43_bitstream.md R276, R278, R279). -/
theorem unpackStream_cut {bit : Nat → Bool} {avail c : Nat} {t : HufTree} {d : List Byte}
    (hd : ∀ v ∈ d, v ∈ t.leaves) (hb : bitsAt bit 0 ((codeBits t d).take avail))
    (hc : c < d.length) (h1 : (codeBits t (d.take c)).length ≤ avail)
    (h2 : avail < (codeBits t (d.take (c + 1))).length) :
    unpackStream bit avail t d.length = .error c := by
  cases t with
  | leaf w v => simp [codeBits_leaf] at h2
  | node w l r =>
    refine decodeBytes_cut hd (fun i hi ha => ?_) hc (by omega) (by omega)
    rw [hb i (by rw [List.length_take]; omega), List.getElem_take]

/-- While a command runs, OUT_LEN0 is OUT_LEN (40_control.md R171). -/
theorem State.forgetOutput_of_runs {s : State} {p : Pending} (h : s.runs p) :
    s.forgetOutput = { s with obuf := s.obuf.forgetFrom s.outLen.toNat } := by
  obtain ⟨hp, -, hout⟩ := h
  rw [State.forgetOutput, State.accepted_of_pend hp, hout]

/-- Settles O38: the region holds the stream's first 8n bits, which end inside the code of byte
`c`. -/
theorem unpackTruncatedBody : Obligations.UnpackTruncatedBody := by
  unfold Obligations.UnpackTruncatedBody
  intro s p t d n c hruns hpar ht hd hn hfit hbody h hc h1 h2
  have hlen : s.regionLen = n := by
    rw [h.regionLen_eq, List.length_take, packBits_length]
    exact Nat.min_eq_left hbody
  have hstarts : s.regionStarts ((packBits (codeBits t d)).take n) :=
    State.regionIs.starts (rest := []) (by simpa using h)
  have hdec : unpackStream s.regionBit (8 * s.regionLen) t s.origLen.toNat = .error c := by
    rw [hlen, hn]
    exact unpackStream_cut hd (hstarts.bitsAt ((packBits_startsWithBits _).take n)) hc h1 h2
  have hc32 : c < 2 ^ 32 := by
    obtain ⟨-, -, -, hmax⟩ := State.paramsOk_iff.mp hpar
    omega
  rw [exec_eq]
  refine ⟨_, _, toNat_ofNat_word hc32, s.obuf.forgetFrom_forgotten _, finish_err hruns.1 ?_⟩
  rw [← State.forgetOutput_of_runs hruns]
  exact unpackStep_truncated h.inRegionOk ht (by omega) hdec

end Sys2Proof.Machine
end

section
/-! COMPRESS (44_pipeline.md R300 to R303): its checks, then three outputs in a row over what COUNT and
BUILD leave, whose bytes together are the artifact. -/

namespace Sys2Proof.Machine

/-! ### The completion of a composite -/

/-- What forgetting leaves of a buffer depends on the bytes below the offset alone (60_exceptions.md R326
point 4). -/
theorem Memory.forgotten_forgetFrom {m m' : Memory} {a : Nat} (h : ∀ x, x < a → m'.read? x = m.read? x) :
    m.forgotten (m'.forgetFrom a) a := by
  obtain ⟨hbelow, hfrom⟩ := m'.forgetFrom_forgotten a
  exact ⟨fun x hx => (hbelow x hx).trans (h x hx), hfrom⟩

/-- An abort in the steps of a running composite, which write OBUF from OUT_LEN0 on alone, forgets what they
have written (60_exceptions.md R326 point 4). -/
theorem finish_forgetOnError_err {r : StepResult} {s u : State} {p : Pending} {code : ResultCode}
    {info : Word} (hruns : s.runs p) (hpend : u.pend = s.pend)
    (hobuf : ∀ x, x < s.outLen.toNat → u.obuf.read? x = s.obuf.read? x)
    (hr : r = .err code info u) :
    ∃ m : Memory, s.obuf.forgotten m s.outLen.toNat ∧
      r.forgetOnError.finish = .next (({ u with obuf := m } : State).aborted p code info) := by
  obtain ⟨hp, -, hout⟩ := hruns
  have hup := hpend.trans hp
  have hforget : u.forgetOutput = { u with obuf := u.obuf.forgetFrom s.outLen.toNat } := by
    rw [State.forgetOutput, State.accepted_of_pend hup, hout]
  refine ⟨_, Memory.forgotten_forgetFrom hobuf, ?_⟩
  rw [hr, StepResult.forgetOnError, hforget]
  exact finish_err hup rfl

/-! ### COMPRESS's own checks -/

/-- Settles O41: the checks in the order of COMPRESS's pseudocode. -/
theorem compressChecks : Obligations.CompressChecks := by
  unfold Obligations.CompressChecks
  intro s p hp
  simp only [exec_eq]
  refine ⟨fun hi => ?_, fun hi ho => ?_, fun hi ho hempty => ?_⟩
  · exact finish_err hp (andThen_err (andThen_err (bothChecks_err_in hi)))
  · exact finish_err hp (andThen_err (andThen_err (bothChecks_err_out hi ho)))
  · exact finish_err hp (andThen_err ((andThen_ok (bothChecks_ok hi ho)).trans (if_pos hempty)))

/-- A nonempty region does not end where it starts. -/
theorem State.regionIs.inPtr_ne {s : State} {d : List Byte} (h : s.regionIs d) (hd : d ≠ []) :
    s.inPtr ≠ s.inLen := by
  intro heq
  have hlen := h.2.1
  have := List.length_pos_iff.mpr hd
  rw [heq] at hlen
  omega

/-- COMPRESS past its own checks is its steps (44_pipeline.md R301). -/
theorem exec_compress_steps {s : State} {d : List Byte} (h : s.regionIs d) (hd : d ≠ [])
    (ho : s.outRegionOk = true) : exec .compress s = (compressSteps s).finish := by
  rw [exec_eq, bodyOf, compressBody, andThen_ok ((andThen_ok (bothChecks_ok h.inRegionOk ho)).trans
    (if_neg (h.inPtr_ne hd)))]

/-! ### The tree of a region's counts -/

theorem State.regionIs.length_lt {s : State} {d : List Byte} (h : s.regionIs d) : d.length < 2 ^ 32 := by
  have := h.2.1
  have := s.inLen.isLt
  omega

/-- BUILD of a nonempty sequence's counts makes a tree (41_analysis.md R195). -/
theorem buildTree_countBytes {d : List Byte} (hd : d ≠ []) (hlen : d.length < 2 ^ 128) :
    ∃ t, buildTree (countBytes d) = some t := by
  obtain ⟨v, hv⟩ := List.exists_mem_of_ne_nil d hd
  have hcount := countBytes_get_toNat hlen v
  have hpos := List.count_pos_iff.mpr hv
  refine Option.ne_none_iff_exists'.mp fun hnone => ?_
  rw [(buildTree_none_iff _).mp hnone v] at hcount
  exact hpos.ne hcount

/-- The leaves of BUILD's tree are the values that occur (41_analysis.md R197). -/
theorem mem_leaves_iff_of_buildTree {d : List Byte} {t : HufTree} (ht : buildTree (countBytes d) = some t)
    (hlen : d.length < 2 ^ 128) (v : Byte) : v ∈ t.leaves ↔ v ∈ d := by
  rw [buildTree_mem_leaves ht, ← List.count_pos_iff, ← countBytes_get_toNat hlen,
    Nat.pos_iff_ne_zero, Ne, Ne, BitVec.toNat_eq]
  rfl

/-! ### Outputs in a row -/

/-- A second append that starts where the first, which fits a legal OBUF, has ended (10_state.md R32). -/
theorem State.emit_emit {s : State} {b e : List Byte} (hpar : s.paramsOk = true)
    (hfit : s.outLen.toNat + b.length ≤ s.obufSize) : (s.emit b).emit e = s.emit (b ++ e) := by
  have hout : s.outLen + BitVec.ofNat 32 b.length + BitVec.ofNat 32 e.length =
      s.outLen + BitVec.ofNat 32 (b ++ e).length := by
    rw [List.length_append, BitVec.ofNat_add, BitVec.add_assoc]
  rw [State.emit, State.emit_outLen_toNat hpar hfit, State.emit_obuf, Memory.writeBytes_append,
    State.emit_outLen, hout]
  rfl

/-- OutCheck passes after an append that fits a legal OBUF (40_control.md R175). -/
theorem State.outRegionOk_emit {s : State} {b : List Byte} (hpar : s.paramsOk = true)
    (hfit : s.outLen.toNat + b.length ≤ s.obufSize) : (s.emit b).outRegionOk = true := by
  rw [State.outRegionOk_iff, State.emit_outLen_toNat hpar hfit]
  exact hfit

/-- WRLEN past its check of OUT_LEN is the output of ORIG_LEN (43_bitstream.md R262). -/
theorem wrlenStep_output {s : State} (ho : s.outRegionOk = true) :
    wrlenStep s = s.output (toBE 8 s.origLen.toNat) :=
  andThen_ok (outCheck_ok ho)

/-- The next output after an append, where both fit a legal OBUF: one append. -/
theorem output_emit_ok {s : State} {b e : List Byte} (hpar : s.paramsOk = true)
    (hfit : s.outLen.toNat + (b ++ e).length ≤ s.obufSize) :
    (s.emit b).output e = .ok (s.emit (b ++ e)) := by
  rw [List.length_append] at hfit
  have hb : s.outLen.toNat + b.length ≤ s.obufSize := by omega
  have hout := State.emit_outLen_toNat hpar hb
  rw [output_ok (by rw [hout, State.emit_obufSize]; omega), State.emit_emit hpar hb]

/-- The next output after an append that fits a legal OBUF, where both together do not. -/
theorem output_emit_err {s : State} {b e : List Byte} (hpar : s.paramsOk = true)
    (hfit : s.outLen.toNat + b.length ≤ s.obufSize)
    (hbig : s.obufSize < s.outLen.toNat + (b ++ e).length) :
    (s.emit b).output e = .err .outputOverflow (s.emit b).outLen (s.emit b) := by
  rw [List.length_append] at hbig
  have hout := State.emit_outLen_toNat hpar hfit
  exact output_err (by rw [hout, State.emit_obufSize]; omega)

theorem artifact_eq {t : HufTree} {b : List Byte} (hb : t.ser = some b) (d : List Byte) :
    artifact t d = b ++ toBE 8 d.length ++ packBits (codeBits t d) := by
  rw [artifact, hb, Option.getD_some]

theorem artifact_length {t : HufTree} {b : List Byte} (hb : t.ser = some b) (d : List Byte) :
    (artifact t d).length = b.length + 8 + ceil8 (codeBits t d).length := by
  rw [artifact_eq hb, List.length_append, List.length_append, toBE_length, packBits_length]

/-- The outputs of COMPRESS: SERIALIZE's of the blob `b`, then WRLEN and PACK (44_pipeline.md R301). -/
def outputSteps (b : List Byte) (s : State) : StepResult :=
  ((s.output b).andThen wrlenStep).andThen packStep

section
variable {s : State} {d b : List Byte} {t : HufTree} (hpar : s.paramsOk = true) (h : s.regionIs d)
  (ht : s.tree = some t) (hd : ∀ v ∈ d, v ∈ t.leaves) (hn : s.origLen.toNat = d.length)
  (hb : t.ser = some b)

include hpar hn in
/-- WRLEN over what SERIALIZE left. -/
theorem wrlenStep_emit (hfit : s.outLen.toNat + b.length ≤ s.obufSize) :
    wrlenStep (s.emit b) = (s.emit b).output (toBE 8 d.length) := by
  rw [wrlenStep_output (State.outRegionOk_emit hpar hfit), State.emit_origLen, hn]

include hpar h ht hd in
/-- PACK over what SERIALIZE and WRLEN left. -/
theorem packStep_emit {w : List Byte} (hfit : s.outLen.toNat + w.length ≤ s.obufSize) :
    packStep (s.emit w) = ((s.emit w).output (packBits (codeBits t d))).andThen fun u =>
      .ok { u with bitLen := BitVec.ofNat 64 (codeBits t d).length } :=
  packStep_region (s := s.emit w) h (State.outRegionOk_emit hpar hfit) ht hd

include hpar h ht hd hn hb

/-- Where the artifact fits, the outputs are one append of it (44_pipeline.md R302). -/
theorem outputSteps_ok (hfit : s.outLen.toNat + (artifact t d).length ≤ s.obufSize) :
    outputSteps b s = .ok { s.emit (artifact t d) with
      bitLen := BitVec.ofNat 64 (codeBits t d).length } := by
  rw [artifact_eq hb] at hfit ⊢
  have hlen := hfit
  simp only [List.length_append] at hlen
  have hfit1 : s.outLen.toNat + b.length ≤ s.obufSize := by omega
  have hfit2 : s.outLen.toNat + (b ++ toBE 8 d.length).length ≤ s.obufSize := by
    rw [List.length_append]
    omega
  have hhead : (s.output b).andThen wrlenStep = .ok (s.emit (b ++ toBE 8 d.length)) := by
    rw [andThen_ok (output_ok hfit1), wrlenStep_emit hpar hn hfit1, output_emit_ok hpar hfit2]
  rw [outputSteps, andThen_ok hhead, packStep_emit hpar h ht hd hfit2,
    andThen_ok (output_emit_ok hpar hfit)]

/-- Where the artifact does not fit, the first output that does not fit ends them, over what the ones before
have appended (44_pipeline.md R300). -/
theorem outputSteps_err (hbig : s.obufSize < s.outLen.toNat + (artifact t d).length)
    (ho : s.outRegionOk = true) :
    ∃ w : List Byte, s.outLen.toNat + w.length ≤ s.obufSize ∧
      w.length = (if s.outLen.toNat + b.length > s.obufSize then 0
        else if s.outLen.toNat + b.length + 8 > s.obufSize then b.length else b.length + 8) ∧
      outputSteps b s = .err .outputOverflow (s.emit w).outLen (s.emit w) := by
  have ho' := State.outRegionOk_iff.mp ho
  have hlen : (b ++ toBE 8 d.length).length = b.length + 8 := by rw [List.length_append, toBE_length]
  rw [artifact_eq hb] at hbig
  by_cases hfit1 : s.outLen.toNat + b.length ≤ s.obufSize
  · rw [if_neg (Nat.not_lt.mpr hfit1), outputSteps, andThen_ok (output_ok hfit1),
      wrlenStep_emit hpar hn hfit1]
    by_cases hfit2 : s.outLen.toNat + (b ++ toBE 8 d.length).length ≤ s.obufSize
    · refine ⟨b ++ toBE 8 d.length, hfit2, by rw [if_neg (by omega), hlen], ?_⟩
      rw [andThen_ok (output_emit_ok hpar hfit2), packStep_emit hpar h ht hd hfit2,
        andThen_err (output_emit_err hpar hfit2 hbig)]
    · exact ⟨b, hfit1, by rw [if_pos (by omega)],
        andThen_err (output_emit_err hpar hfit1 (Nat.not_le.mp hfit2))⟩
  · refine ⟨[], ho', by rw [if_pos (Nat.not_le.mp hfit1), List.length_nil], ?_⟩
    rw [State.emit_nil]
    exact andThen_err (andThen_err (output_err (Nat.not_le.mp hfit1)))

end

/-! ### COMPRESS -/

/-- What COUNT and BUILD leave over the region `d` with the tree `t` (41_analysis.md R192, R195). -/
def State.analysed (d : List Byte) (t : HufTree) (s : State) : State :=
  { s with freq := countBytes d, tree := some t, origLen := BitVec.ofNat 64 d.length }

section
variable {s : State} {p : Pending} {d b : List Byte} {t : HufTree} (hruns : s.runs p)
  (hpar : s.paramsOk = true) (h : s.regionIs d) (hne : d ≠ [])
  (ht : buildTree (countBytes d) = some t) (hb : t.ser = some b)

include h in
theorem State.regionIs.analysed_origLen : (s.analysed d t).origLen.toNat = d.length := by
  have := h.length_lt
  exact toNat_ofNat_dword (by omega)

include h hne ht hb in
/-- COMPRESS of a written region: COUNT and BUILD, then the outputs (44_pipeline.md R301). -/
theorem exec_compress_outputs (ho : s.outRegionOk = true) :
    exec .compress s = (outputSteps b (s.analysed d t)).forgetOnError.finish := by
  have hbuild : (countStep s).andThen buildStep = .ok (s.analysed d t) := by
    rw [andThen_ok (countStep_region h), buildStep]
    simp only [ht]
    rfl
  rw [exec_compress_steps h hne ho, compressSteps, andThen_ok hbuild,
    serializeStep_blob (s := s.analysed d t) ho rfl hb, outputSteps]

include h ht in
theorem State.regionIs.mem_leaves : ∀ v ∈ d, v ∈ t.leaves := fun v hv => by
  have := h.length_lt
  exact (mem_leaves_iff_of_buildTree ht (by omega) v).mpr hv

include hruns hpar h hne ht hb

/-- COMPRESS of a written region whose artifact fits appends it (44_pipeline.md R302). -/
theorem exec_compress_fits (hfit : s.outLen.toNat + (artifact t d).length ≤ s.obufSize) :
    ∃ (m : Memory) (n : Word), n.toNat = s.outLen.toNat + (artifact t d).length ∧
      s.obuf.stored m s.outLen.toNat (artifact t d) ∧
      exec .compress s = .next (State.finished p { s.analysed d t with
        obuf := m
        outLen := n
        bitLen := BitVec.ofNat 64 (codeBits t d).length }) := by
  have ho : s.outRegionOk = true := State.outRegionOk_iff.mpr (by omega)
  rw [exec_compress_outputs h hne ht hb ho, outputSteps_ok (s := s.analysed d t) hpar h rfl
    (h.mem_leaves ht) h.analysed_origLen hb hfit]
  exact ⟨_, _, State.emit_outLen_toNat hpar hfit, Memory.writeBytes_stored _ _ _,
    finish_ok hruns.1 rfl⟩

/-- COMPRESS of a written region whose artifact does not fit (44_pipeline.md R300, R301). -/
theorem exec_compress_overflow (ho : s.outRegionOk = true)
    (hbig : s.outLen.toNat + (artifact t d).length > s.obufSize) :
    ∃ (m : Memory) (a : Word), s.obuf.forgotten m s.outLen.toNat ∧
      a.toNat = s.outLen.toNat + (if s.outLen.toNat + b.length > s.obufSize then 0
        else if s.outLen.toNat + b.length + 8 > s.obufSize then b.length else b.length + 8) ∧
      exec .compress s = .next
        (({ s.analysed d t with obuf := m } : State).aborted p .outputOverflow a) := by
  obtain ⟨w, hw, hwlen, hsteps⟩ := outputSteps_err (s := s.analysed d t) hpar h rfl (h.mem_leaves ht)
    h.analysed_origLen hb hbig ho
  obtain ⟨m, hm, hfinish⟩ := finish_forgetOnError_err (u := (s.analysed d t).emit w) hruns rfl
    (fun x hx => (Memory.writeBytes_stored _ _ w).2 x (.inl hx)) hsteps
  refine ⟨m, _, hm, ?_, (exec_compress_outputs h hne ht hb ho).trans hfinish⟩
  rw [State.emit_outLen_toNat (s := s.analysed d t) hpar hw, hwlen]
  rfl

end

/-- Settles O40: the failing output's OUT_LEN is OUT_LEN0 and the lengths of those before it. -/
theorem compressOverflowKeepsFinishedSteps : Obligations.CompressOverflowKeepsFinishedSteps := by
  unfold Obligations.CompressOverflowKeepsFinishedSteps
  intro s p d t b hruns hpar ho h hne ht hb hbig
  obtain ⟨m, a, hm, ha, hexec⟩ := exec_compress_overflow hruns hpar h hne ht hb ho hbig
  exact ⟨m, _, a, h.analysed_origLen (t := t), hm, ha, hexec⟩

/-- The tree COMPRESS makes of a nonempty region and its blob (44_pipeline.md R301, 42_tree_codec.md
R234). -/
theorem State.regionIs.tree_and_blob {s : State} {d : List Byte} (h : s.regionIs d) (hne : d ≠ []) :
    ∃ t b, buildTree (countBytes d) = some t ∧ t.ser = some b ∧
      b.length = 37 * t.leaves.length - 18 := by
  have := h.length_lt
  obtain ⟨t, ht⟩ := buildTree_countBytes hne (by omega)
  obtain ⟨b, hb, hblen, -⟩ := serializedTreeSize.2.2 t (buildTree_wf ht)
  exact ⟨t, b, ht, hb, hblen⟩

/-- Settles O39: the three outputs are one append of the artifact. -/
theorem compressWritesArtifact : Obligations.CompressWritesArtifact := by
  unfold Obligations.CompressWritesArtifact
  intro s p d hruns hpar h hne
  have hlen := h.length_lt
  obtain ⟨t, b, ht, hb, hblen⟩ := h.tree_and_blob hne
  refine ⟨countBytes d, t, countBytes_get_toNat (by omega), exec_build_of_some hruns.1 ht, ?_,
    fun hfit => ?_⟩
  · rw [artifact_length hb, hblen]
    rfl
  · have hbits : s.outLen.toNat + (packBits (codeBits t d)).length ≤ s.obufSize := by
      rw [artifact_length hb] at hfit
      rw [packBits_length]
      omega
    obtain ⟨m, n, hn, hm, hexec⟩ := exec_compress_fits hruns hpar h hne ht hb hfit
    exact ⟨m, n, _, _, hn, h.analysed_origLen (t := t),
      toNat_ofNat_length_of_packBits_fits hpar hbits, hm, hexec⟩

/-- BUILD's tree of copies of one value is a single leaf (41_analysis.md R202). -/
theorem buildTree_replicate {N : Nat} {v : Byte} {t : HufTree} (hN : 1 ≤ N) (hlt : N < 2 ^ 128)
    (ht : buildTree (countBytes (List.replicate N v)) = some t) :
    ∃ w : Weight, w.toNat = N ∧ t = .leaf w v := by
  have hmem := mem_leaves_iff_of_buildTree ht (by rwa [List.length_replicate])
  have hleaves : t.leaves = [v] := by
    have hnodup : t.leaves.Nodup := of_decide_eq_true (buildTree_wf ht)
    refine List.perm_singleton.mp ((List.perm_ext_iff_of_nodup hnodup (List.nodup_singleton v)).mpr
      fun u => ?_)
    rw [hmem, List.mem_replicate, List.mem_singleton]
    exact and_iff_right (by omega)
  cases t with
  | node w l r =>
    have hlen := congrArg List.length hleaves
    have := l.leaves_length_pos
    have := r.leaves_length_pos
    simp only [HufTree.leaves, List.length_append, List.length_singleton] at hlen
    omega
  | leaf w u =>
    obtain rfl : u = v := List.singleton_inj.mp hleaves
    obtain ⟨hw, -⟩ := (buildTree_mem_weightedLeaves ht u w).mp (List.mem_singleton.mpr rfl)
    refine ⟨w, ?_, rfl⟩
    rw [hw, countBytes_get_toNat (by rwa [List.length_replicate]), List.count_replicate_self]

/-- The artifact of copies of one value: the single leaf's blob, the length, no body (30_encoding.md
R133). -/
theorem artifact_replicate {N : Nat} {w : Weight} (hw : w.toNat = N) (v : Byte) :
    artifact (.leaf w v) (List.replicate N v) =
      toBE 16 N ++ [0x00, 0x01] ++ [v] ++ toBE 8 N := by
  rw [artifact, codeBits_leaf, List.length_replicate, HufTree.ser, hw, Option.getD_some]
  exact List.append_nil _

/-- Settles O42: the tree is a single leaf, whose codes have no bits. -/
theorem compressSingleSymbol : Obligations.CompressSingleSymbol := by
  unfold Obligations.CompressSingleSymbol
  intro s p v N hruns hpar hN h hfit
  have hne : List.replicate N v ≠ [] :=
    mt (List.replicate_eq_nil_iff v).mp (by omega)
  have hlen := h.length_lt
  rw [List.length_replicate] at hlen
  obtain ⟨t, b, ht, hb, -⟩ := h.tree_and_blob hne
  obtain ⟨w, hw, rfl⟩ := buildTree_replicate hN (by omega) ht
  have hart := artifact_replicate hw v
  have hlen27 : (artifact (.leaf w v) (List.replicate N v)).length = 27 := by
    simp [hart, toBE_length]
  obtain ⟨m, n, hn, hm, hexec⟩ := exec_compress_fits hruns hpar h hne ht hb (hlen27 ▸ hfit)
  rw [hlen27] at hn
  rw [hart] at hm
  refine ⟨_, hexec, rfl, hn, ?_, hm⟩
  rw [State.finished_bitLen, codeBits_leaf]
  rfl

end Sys2Proof.Machine
end

section
/-! DECOMPRESS (44_pipeline.md R304, R305): DESERIALIZE and RDLEN read the header of an artifact, UNPACK its
body, and COMPRESS's artifact is read back. -/

namespace Sys2Proof.Machine

/-! ### DECOMPRESS's own checks -/

/-- DECOMPRESS past its own checks is its steps (44_pipeline.md R304). -/
theorem exec_decompress_steps {s : State} (hi : s.inRegionOk = true) (ho : s.outRegionOk = true) :
    exec .decompress s = (decompressSteps s).finish := by
  rw [exec_eq, bodyOf, decompressBody, andThen_ok (bothChecks_ok hi ho)]

/-! ### The header -/

theorem State.regionStarts.left {s : State} {b e : List Byte} (h : s.regionStarts (b ++ e)) :
    s.regionStarts b := by
  obtain ⟨hsize, hlen, hheld⟩ := h
  rw [List.length_append] at hlen
  exact ⟨hsize, by omega, (Memory.holds_append.mp hheld).1⟩

theorem State.regionIs.regionStarts {s : State} {d : List Byte} (h : s.regionIs d) :
    s.regionStarts d :=
  State.regionIs.starts (rest := []) (by rwa [List.append_nil])

/-- The bytes a region starts with end at a 32-bit cursor (10_state.md R31). -/
theorem State.regionStarts.toNat_end {s : State} {b : List Byte} (h : s.regionStarts b) :
    (BitVec.ofNat 32 (s.inPtr.toNat + b.length)).toNat = s.inPtr.toNat + b.length :=
  toNat_ofNat_word (h.2.1.trans_lt s.inLen.isLt)

/-- What DESERIALIZE leaves of a blob of `t` of `len` bytes (42_tree_codec.md R236). -/
def State.blobRead (t : HufTree) (len : Nat) (s : State) : State :=
  { s with tree := some t, inPtr := BitVec.ofNat 32 (s.inPtr.toNat + len) }

/-- What DESERIALIZE and RDLEN leave of a header of `len` bytes, the blob of `t` and the length field of
`N` (43_bitstream.md R266). -/
def State.headerRead (t : HufTree) (N : DWord) (len : Nat) (s : State) : State :=
  { s.blobRead t len with origLen := N }

/-- What stands in the region behind the blob. -/
theorem State.regionStarts.blobRead {s : State} {b e : List Byte} (h : s.regionStarts (b ++ e))
    (t : HufTree) : (s.blobRead t b.length).regionStarts e :=
  h.advance rfl rfl rfl h.left.toNat_end

/-- What stands in the region behind the header. -/
theorem State.regionStarts.headerRead {s : State} {header B : List Byte}
    (h : s.regionStarts (header ++ B)) (t : HufTree) (N : DWord) :
    (s.headerRead t N header.length).regionStarts B :=
  h.blobRead t

/-- DECOMPRESS's DESERIALIZE of a region that starts with the blob of `t` (42_tree_codec.md R236). -/
theorem deserializeStep_lead {s : State} {t : HufTree} {b : List Byte} (hw : t.wf = true)
    (hb : t.ser = some b) (h : s.regionStarts b) :
    deserializeStep false s = .ok (s.blobRead t b.length) :=
  deserializeStep_blob false hw hb h (by simp)

/-- DECOMPRESS of a region that starts with a header is UNPACK of what follows it (44_pipeline.md R304). -/
theorem decompressSteps_header {s : State} {t : HufTree} {b : List Byte} {N : DWord}
    (hw : t.wf = true) (hb : t.ser = some b) (h : s.regionStarts (b ++ toBE 8 N.toNat)) :
    decompressSteps s =
      (unpackStep (s.headerRead t N (b ++ toBE 8 N.toNat).length)).forgetOnError := by
  have hptr : (s.blobRead t b.length).inPtr + 8 =
      BitVec.ofNat 32 (s.inPtr.toNat + (b ++ toBE 8 N.toNat).length) := by
    rw [List.length_append, toBE_length, ← Nat.add_assoc]
    exact (BitVec.ofNat_add ..).symm
  rw [decompressSteps, andThen_ok ((andThen_ok (deserializeStep_lead hw hb h.left)).trans
    (rdlenStep_toBE (h.blobRead t) N.isLt)), hptr, BitVec.ofNat_toNat, BitVec.setWidth_eq]
  rfl

/-- A length of output that a legal OBUF has room for is one that ORIG_LEN holds (10_state.md R33). -/
theorem exists_dword_of_fits {s : State} {n : Nat} (hpar : s.paramsOk = true)
    (hfit : s.outLen.toNat + n ≤ s.obufSize) : ∃ N : DWord, N.toNat = n := by
  obtain ⟨-, -, -, hmax⟩ := State.paramsOk_iff.mp hpar
  exact ⟨_, toNat_ofNat_dword (by omega)⟩

/-! ### DECOMPRESS of an artifact -/

/-- Settles O43: the header is read as `t` and the length of `d`, and UNPACK reads no bit past the last
code. -/
theorem decompressReadsArtifact : Obligations.DecompressReadsArtifact := by
  unfold Obligations.DecompressReadsArtifact
  intro s p t d b B hruns hpar hw hd hb h hB hfit
  have hartifact := artifact_length hb d
  have hceil := hB.ceil8_le
  have hbits := ceil8_mul_ge (codeBits t d).length
  have hlt := s.inLen.isLt
  obtain ⟨N, hN⟩ := exists_dword_of_fits hpar hfit
  rw [← hN] at h
  have hregion := h.2.1
  have hend := h.left.toNat_end
  simp only [List.length_append, toBE_length] at hregion hend
  have hk := toNat_add_ofNat_word (w := (s.headerRead t N (b ++ toBE 8 N.toNat).length).inPtr)
    (n := ceil8 (codeBits t d).length) (by
      simp only [State.headerRead, State.blobRead, List.length_append, toBE_length]
      omega)
  refine ⟨_, _, _, N, _, State.emit_outLen_toNat hpar hfit, hk.trans ?_, hN,
    toNat_ofNat_dword (by omega), Memory.writeBytes_stored _ _ _, ?_⟩
  · simp only [State.headerRead, State.blobRead, List.length_append, toBE_length]
    omega
  · rw [exec_decompress_steps h.inRegionOk (State.outRegionOk_iff.mpr (by omega)),
      decompressSteps_header hw hb h.left, unpackStep_bits (h.headerRead t N) hB rfl hd hN hfit]
    exact finish_ok hruns.1 rfl

/-! ### The round trip -/

/-- A COMPRESS of a written nonempty region that ends with the result OK appended the artifact
(44_pipeline.md R302, R307). -/
theorem exec_compress_ok {s s' : State} {p : Pending} {d : List Byte} (hruns : s.runs p)
    (hpar : s.paramsOk = true) (h : s.regionIs d) (hne : d ≠ []) (hexec : exec .compress s = .next s')
    (hok : s'.resultCode = .ok) :
    ∃ t b, buildTree (countBytes d) = some t ∧ t.ser = some b ∧
      s'.outLen.toNat = s.outLen.toNat + (artifact t d).length ∧
      s.obuf.stored s'.obuf s.outLen.toNat (artifact t d) := by
  obtain ⟨t, b, ht, hb, -⟩ := h.tree_and_blob hne
  have hnext : ∀ {u : State}, exec .compress s = .next u → s' = u := fun hu =>
    Host.Outcome.next.inj (hexec.symm.trans hu)
  by_cases ho : s.outRegionOk = true
  · by_cases hfit : s.outLen.toNat + (artifact t d).length ≤ s.obufSize
    · obtain ⟨m, n, hn, hm, hu⟩ := exec_compress_fits hruns hpar h hne ht hb hfit
      obtain rfl := hnext hu
      exact ⟨t, b, ht, hb, hn, hm⟩
    · obtain ⟨m, a, -, -, hu⟩ :=
        exec_compress_overflow hruns hpar h hne ht hb ho (Nat.not_le.mp hfit)
      obtain rfl := hnext hu
      cases hok
  · obtain rfl := hnext ((compressChecks s p hruns.1).2.1 h.inRegionOk (by simpa using ho))
    cases hok

/-- Settles O44: what COMPRESS appended is determined by its place and length, so it is the artifact, which
DECOMPRESS reads to its end. -/
theorem decompressInvertsCompress : Obligations.DecompressInvertsCompress := by
  unfold Obligations.DecompressInvertsCompress
  intro s s' u p q d a hruns hpar h hne hexec hok hheld hlen huruns hupar hu hfit
  obtain ⟨t, b, ht, hb, hout, hstored⟩ := exec_compress_ok hruns hpar h hne hexec hok
  obtain rfl : a = artifact t d :=
    Memory.holds_inj hheld (Memory.holds_of_stored hstored) (by omega)
  have hstarts := hu.regionStarts
  rw [artifact_eq hb] at hstarts
  obtain ⟨m, n, k, N, T, hn, hk, -, -, hm, hnext⟩ := decompressReadsArtifact u q t d b _ huruns hupar
    (buildTree_wf ht) (h.mem_leaves ht) hb hstarts (packBits_startsWithBits _) hfit
  exact ⟨_, hnext, rfl, hn, BitVec.eq_of_toNat_eq (hk.trans hu.2.1.symm), hm⟩

/-! ### DECOMPRESS that aborts -/

/-- Forgetting the output of a running command keeps the bytes below OUT_LEN (60_exceptions.md R326
point 4). -/
theorem State.forgetOutput_read? {s u : State} {p : Pending} {x : Nat} (hruns : s.runs p)
    (hpend : u.pend = s.pend) (hx : x < s.outLen.toNat) :
    u.forgetOutput.obuf.read? x = u.obuf.read? x := by
  obtain ⟨hp, -, hout⟩ := hruns
  rw [State.forgetOutput_obuf, State.accepted_of_pend (hpend.trans hp), hout]
  exact (u.obuf.forgetFrom_forgotten _).1 x hx

/-- UNPACK of a body cut off inside the code of byte `c` (43_bitstream.md R279). -/
theorem unpackStep_cut {s : State} {t : HufTree} {d : List Byte} {n c : Nat} (ht : s.tree = some t)
    (hd : ∀ v ∈ d, v ∈ t.leaves) (hn : s.origLen.toNat = d.length)
    (hfit : s.outLen.toNat + d.length ≤ s.obufSize)
    (h : s.regionStarts ((packBits (codeBits t d)).take n)) (hlen : s.regionLen = n)
    (hc : c < d.length) (h1 : (codeBits t (d.take c)).length ≤ 8 * n)
    (h2 : 8 * n < (codeBits t (d.take (c + 1))).length) :
    unpackStep s = .err .truncatedStream (BitVec.ofNat 32 c) s.forgetOutput := by
  refine unpackStep_truncated h.inRegionOk ht (by omega) ?_
  rw [hlen, hn]
  exact unpackStream_cut hd (h.bitsAt ((packBits_startsWithBits _).take n)) hc h1 h2

/-- UNPACK whose output does not fit (43_bitstream.md R276). -/
theorem unpackStep_overflow {s : State} {t : HufTree} (hi : s.inRegionOk = true)
    (ho : s.outRegionOk = true) (ht : s.tree = some t)
    (hbig : s.obufSize < s.outLen.toNat + s.origLen.toNat) :
    unpackStep s = .err .outputOverflow s.outLen s := by
  rw [unpackStep, andThen_ok (bothChecks_ok hi ho)]
  simp only [ht]
  rw [if_pos (by simpa [State.overflows] using hbig)]

/-- RDLEN of a region too short for the length field (43_bitstream.md R266). -/
theorem rdlenStep_short {s : State} (hi : s.inRegionOk = true) (h : s.regionLen < 8) :
    rdlenStep s = .err .formatError s.inPtr s :=
  (andThen_ok (inCheck_ok hi)).trans (if_pos h)

/-- A DESERIALIZE over a legal region that ends with FormatError left TREE = none and nothing else
(42_tree_codec.md R236). -/
theorem deserializeStep_of_formatError {s s1 : State} {p : Pending} (hp : s.pend = some p)
    (hi : s.inRegionOk = true) (hexec : exec (.deserialize false) s = .next s1)
    (hcode : s1.resultCode = .formatError) :
    deserializeStep false s = .err .formatError s1.errInfo { s with tree := none } := by
  have hspec := deserializeStep_spec false s
  obtain ⟨u, -, -, rfl⟩ | ⟨code, info, u, hu, -, -, rfl⟩ := exec_next hp hexec
  · cases hcode
  · rw [bodyOf] at hu
    rw [hu] at hspec ⊢
    obtain ⟨hbad, -⟩ | ⟨-, rfl, rfl, -⟩ := hspec
    · rw [hi] at hbad
      cases hbad
    · rfl

/-- An abort in DECOMPRESS's steps, where `u` is what the finished ones left and OBUF below OUT_LEN stands as
before (44_pipeline.md R300). -/
theorem exec_decompress_err {s u : State} {p : Pending} {r : StepResult} {code : ResultCode}
    {info : Word} (hruns : s.runs p) (hi : s.inRegionOk = true) (ho : s.outRegionOk = true)
    (hsteps : decompressSteps s = r.forgetOnError) (hr : r = .err code info u)
    (hpend : u.pend = s.pend) (hobuf : ∀ x, x < s.outLen.toNat → u.obuf.read? x = s.obuf.read? x) :
    ∃ m : Memory, s.obuf.forgotten m s.outLen.toNat ∧
      exec .decompress s = .next (({ u with obuf := m } : State).aborted p code info) := by
  rw [exec_decompress_steps hi ho, hsteps]
  exact finish_forgetOnError_err hruns hpend hobuf hr

/-- DECOMPRESS of a blob with fewer than 8 bytes after it (44_pipeline.md R300, 43_bitstream.md R266). -/
theorem exec_decompress_short {s : State} {p : Pending} {t : HufTree} {b : List Byte}
    (hruns : s.runs p) (ho : s.outRegionOk = true) (hw : t.wf = true) (hb : t.ser = some b)
    (h : s.regionStarts b) (hshort : s.inLen.toNat - s.inPtr.toNat < b.length + 8) :
    ∃ m : Memory, s.obuf.forgotten m s.outLen.toNat ∧ exec .decompress s = .next
      (({ s with tree := some t, obuf := m } : State).aborted p .formatError
        (s.blobRead t b.length).inPtr) := by
  have hi : (s.blobRead t b.length).inRegionOk = true :=
    (State.regionStarts.blobRead (e := []) (by rwa [List.append_nil]) t).inRegionOk
  have hlen : (s.blobRead t b.length).regionLen < 8 := by
    simp only [State.regionLen, State.blobRead, h.toNat_end]
    omega
  exact exec_decompress_err hruns h.inRegionOk ho rfl
    (andThen_err ((andThen_ok (deserializeStep_lead hw hb h)).trans (rdlenStep_short hi hlen))) rfl
    fun _ _ => rfl

/-- DECOMPRESS of a header whose length does not fit (44_pipeline.md R300, 43_bitstream.md R276). -/
theorem exec_decompress_overflow {s : State} {p : Pending} {t : HufTree} {b : List Byte} {N : DWord}
    (hruns : s.runs p) (ho : s.outRegionOk = true) (hw : t.wf = true) (hb : t.ser = some b)
    (h : s.regionStarts (b ++ toBE 8 N.toNat)) (hbig : s.outLen.toNat + N.toNat > s.obufSize) :
    ∃ m : Memory, s.obuf.forgotten m s.outLen.toNat ∧ exec .decompress s = .next
      (({ s with tree := some t, origLen := N, obuf := m } : State).aborted p
        .outputOverflow s.outLen) := by
  have hi : (s.headerRead t N (b ++ toBE 8 N.toNat).length).inRegionOk = true :=
    (State.regionStarts.headerRead (B := []) (by rwa [List.append_nil]) t N).inRegionOk
  exact exec_decompress_err hruns h.inRegionOk ho (decompressSteps_header hw hb h)
    (unpackStep_overflow hi ho rfl hbig) rfl fun _ _ => rfl

/-- DECOMPRESS of a header and a body cut off inside the code of byte `c` (44_pipeline.md R300,
43_bitstream.md R279). -/
theorem exec_decompress_cut {s : State} {p : Pending} {t : HufTree} {b d : List Byte} {N : DWord}
    {n c : Nat} (hruns : s.runs p) (hw : t.wf = true) (hb : t.ser = some b)
    (hd : ∀ v ∈ d, v ∈ t.leaves) (hN : N.toNat = d.length)
    (hfit : s.outLen.toNat + d.length ≤ s.obufSize) (hn : n ≤ ceil8 (codeBits t d).length)
    (h : s.regionIs (b ++ toBE 8 N.toNat ++ (packBits (codeBits t d)).take n)) (hc : c < d.length)
    (h1 : (codeBits t (d.take c)).length ≤ 8 * n)
    (h2 : 8 * n < (codeBits t (d.take (c + 1))).length) :
    ∃ m : Memory, s.obuf.forgotten m s.outLen.toNat ∧ exec .decompress s = .next
      (({ s with tree := some t, origLen := N, obuf := m } : State).aborted p
        .truncatedStream (BitVec.ofNat 32 c)) := by
  have hlen : (s.headerRead t N (b ++ toBE 8 N.toNat).length).regionLen = n := by
    have hend := h.starts.toNat_end
    have hlen := h.2.1
    rw [List.length_append, List.length_take, packBits_length, Nat.min_eq_left hn] at hlen
    simp only [State.regionLen, State.headerRead, State.blobRead]
    omega
  have hunpack := unpackStep_cut (s := s.headerRead t N (b ++ toBE 8 N.toNat).length) rfl hd hN hfit
    (h.regionStarts.headerRead t N) hlen hc h1 h2
  refine exec_decompress_err hruns h.inRegionOk (State.outRegionOk_iff.mpr (by omega))
    (decompressSteps_header hw hb h.starts) hunpack rfl fun x hx => ?_
  exact State.forgetOutput_read? (u := s.headerRead t N (b ++ toBE 8 N.toNat).length) hruns rfl hx

/-- Settles O45: DECOMPRESS's checks, then the error of each step over what the ones before it left. -/
theorem decompressKeepsFinishedSteps : Obligations.DecompressKeepsFinishedSteps := by
  unfold Obligations.DecompressKeepsFinishedSteps
  intro s p hruns hpar
  refine ⟨fun hi => ?_, fun hi ho => ?_, fun s1 hi ho hexec hcode => ?_,
    fun t b ho hw hb h => ⟨fun hshort => ?_, fun N => exec_decompress_overflow hruns ho hw hb,
      fun d n c hd hfit hn hregion hc h1 h2 => ?_⟩⟩
  · rw [exec_eq]
    exact finish_err hruns.1 (andThen_err (bothChecks_err_in hi))
  · rw [exec_eq]
    exact finish_err hruns.1 (andThen_err (bothChecks_err_out hi ho))
  · have hdes := deserializeStep_of_formatError hruns.1 hi hexec hcode
    exact exec_decompress_err hruns hi ho rfl (andThen_err (andThen_err hdes)) rfl fun _ _ => rfl
  · obtain ⟨m, hm, hexec⟩ := exec_decompress_short hruns ho hw hb h hshort
    exact ⟨m, _, h.toNat_end, hm, hexec⟩
  · obtain ⟨N, hN⟩ := exists_dword_of_fits hpar hfit
    have hc32 : c < 2 ^ 32 := by
      obtain ⟨-, -, -, hmax⟩ := State.paramsOk_iff.mp hpar
      omega
    rw [← hN] at hregion
    obtain ⟨m, hm, hexec⟩ := exec_decompress_cut hruns hw hb hd hN hfit hn hregion hc h1 h2
    exact ⟨m, N, _, hN, toNat_ofNat_word hc32, hm, hexec⟩

end Sys2Proof.Machine
end

section
/-! COMPRESS and DECOMPRESS carry nothing over (44_pipeline.md R306): each step writes the fields that later
steps read, so what FREQ, TREE, ORIG_LEN, BIT_LEN and PATH_* held before can be blanked out. -/

namespace Sys2Proof.Machine

/-! ### Steps that ignore a part of their state -/

/-- `s` with BIT_LEN and PATH_* blanked, and FREQ, TREE and ORIG_LEN where asked for. -/
def State.blank (freq tree orig : Bool) (s : State) : State :=
  { s with
    freq := if freq then FreqTable.zero else s.freq
    tree := if tree then none else s.tree
    origLen := if orig then 0 else s.origLen
    bitLen := 0
    pathFound := false
    pathLen := 0
    pathBits := 0 }

/-- `s` with all of these fields blanked, which leaves the outputs of a command (44_pipeline.md R306). -/
abbrev State.blankAll (s : State) : State := s.blank true true true

theorem State.blank_blank (s : State) (freq tree orig : Bool) :
    (s.blank freq tree orig).blank freq tree orig = s.blank freq tree orig := by
  cases freq <;> cases tree <;> cases orig <;> rfl

/-- What is compared of a step result: what `k` keeps of a state to go on from, and of an aborted one what
`State.blankAll` keeps, for nothing reads it any more. -/
def StepResult.seen (k : State → State) : StepResult → StepResult
  | .ok s => .ok (k s)
  | .err code info s => .err code info s.blankAll

/-- Two step results that show the same ended in the same way. -/
theorem StepResult.cases_of_seen_eq {k : State → State} {r r' : StepResult} (h : r.seen k = r'.seen k) :
    (∃ u v, r = .ok u ∧ r' = .ok v ∧ k u = k v) ∨
      ∃ code info u v, r = .err code info u ∧ r' = .err code info v ∧ u.blankAll = v.blankAll := by
  cases r with
  | ok u =>
    cases r' with
    | ok v => exact .inl ⟨u, v, rfl, rfl, StepResult.ok.inj h⟩
    | err _ _ _ => cases h
  | err code info u =>
    cases r' with
    | ok _ => cases h
    | err code' info' v =>
      obtain ⟨hcode, hinfo, huv⟩ := StepResult.err.inj h
      exact .inr ⟨code, info, u, v, rfl, by rw [hcode, hinfo], huv⟩

/-- What `g` blanks decides nothing of what `k` keeps of the outcome of `f`. -/
def Ignores (g k : State → State) (f : State → StepResult) : Prop :=
  ∀ s, (f (g s)).seen k = (f s).seen k

theorem Ignores.congr {g k : State → State} {f : State → StepResult} (hf : Ignores g k f) {u v : State}
    (h : g u = g v) : (f u).seen k = (f v).seen k := by
  rw [← hf u, h, hf v]

theorem Ignores.andThen {g k l : State → State} {r f : State → StepResult} (hr : Ignores g k r)
    (hf : Ignores k l f) : Ignores g l fun s => (r s).andThen f := fun s => by
  obtain ⟨u, v, hu, hv, huv⟩ | ⟨code, info, u, v, hu, hv, huv⟩ := StepResult.cases_of_seen_eq (hr s)
  · simp only [hu, hv]
    exact hf.congr huv
  · simp only [hu, hv]
    exact congrArg (StepResult.err code info) huv

/-- Forgetting OBUF reads none of the blanked fields. -/
theorem Ignores.forgetOnError {g k : State → State} {r : State → StepResult} (hr : Ignores g k r) :
    Ignores g k fun s => (r s).forgetOnError := fun s => by
  obtain ⟨u, v, hu, hv, huv⟩ | ⟨code, info, u, v, hu, hv, huv⟩ := StepResult.cases_of_seen_eq (hr s)
  · simp only [hu, hv]
    exact congrArg StepResult.ok huv
  · simp only [hu, hv]
    exact congrArg (fun w : State => StepResult.err code info w.forgetOutput) huv

/-- A step that branches on what `g` keeps. -/
theorem Ignores.ite {g k : State → State} {c : State → Prop} [DecidablePred c]
    {r f : State → StepResult} (hc : ∀ s, c (g s) ↔ c s) (hr : Ignores g k r) (hf : Ignores g k f) :
    Ignores g k fun s => if c s then r s else f s := fun s => by
  by_cases hs : c s
  · simpa only [if_pos hs, if_pos ((hc s).mpr hs)] using hr s
  · simpa only [if_neg hs, if_neg (mt (hc s).mp hs)] using hf s

/-- A step that branches on TREE, which `g` keeps. -/
theorem Ignores.onTree {g k : State → State} {f : State → StepResult} {h : HufTree → State → StepResult}
    (htree : ∀ s, (g s).tree = s.tree) (hf : Ignores g k f) (hh : ∀ t, Ignores g k (h t)) :
    Ignores g k fun s => match s.tree with | none => f s | some t => h t s := fun s => by
  simp only [htree]
  cases s.tree with
  | none => exact hf s
  | some t => exact hh t s

section
variable {freq tree orig : Bool}

theorem ok_ignores : Ignores (State.blank freq tree orig) (State.blank freq tree orig) .ok :=
  fun s => congrArg StepResult.ok (s.blank_blank freq tree orig)

theorem err_ignores {k : State → State} {code : ResultCode} {info : Word} :
    Ignores (State.blank freq tree orig) k (.err code info) := fun _ => rfl

theorem inCheck_ignores :
    Ignores (State.blank freq tree orig) (State.blank freq tree orig) inCheck :=
  .ite (c := fun s => s.inRegionOk = true) (fun _ => .rfl) ok_ignores err_ignores

theorem outCheck_ignores :
    Ignores (State.blank freq tree orig) (State.blank freq tree orig) outCheck :=
  .ite (c := fun s => s.outRegionOk = true) (fun _ => .rfl) ok_ignores err_ignores

theorem bothChecks_ignores : Ignores (State.blank freq tree orig) (State.blank freq tree orig)
    fun s => (inCheck s).andThen outCheck :=
  inCheck_ignores.andThen outCheck_ignores

end

/-! ### COMPRESS -/

theorem emptyRegionCheck_ignores : Ignores State.blankAll State.blankAll emptyRegionCheck :=
  .ite (c := fun s => s.inPtr = s.inLen) (fun _ => .rfl) err_ignores ok_ignores

/-- COUNT writes FREQ and ORIG_LEN (41_analysis.md R192). -/
theorem countStep_ignores : Ignores State.blankAll (State.blank false true false) countStep :=
  inCheck_ignores.andThen fun _ => rfl

/-- BUILD reads FREQ and writes TREE (41_analysis.md R195). -/
theorem buildStep_ignores :
    Ignores (State.blank false true false) (State.blank false false false) buildStep := fun s => by
  simp only [buildStep, show (s.blank false true false).freq = s.freq from rfl]
  cases buildTree s.freq <;> rfl

theorem output_ignores (b : List Byte) :
    Ignores (State.blank false false false) (State.blank false false false) (State.output b) :=
  .ite (c := fun s => s.overflows b.length = true) (fun _ => .rfl) (fun _ => rfl) fun _ => rfl

theorem serializeStep_ignores :
    Ignores (State.blank false false false) (State.blank false false false) serializeStep :=
  outCheck_ignores.andThen <| .onTree (fun _ => rfl) err_ignores fun t => by
    cases t.ser with
    | none => exact err_ignores
    | some b => exact output_ignores b

theorem wrlenStep_ignores :
    Ignores (State.blank false false false) (State.blank false false false) wrlenStep :=
  outCheck_ignores.andThen fun s => output_ignores (toBE 8 s.origLen.toNat) s

/-- PACK reads TREE and writes BIT_LEN (43_bitstream.md R270). -/
theorem packStep_ignores :
    Ignores (State.blank false false false) (State.blank false false false) packStep :=
  bothChecks_ignores.andThen <| .onTree (fun _ => rfl) err_ignores fun t s => by
    simp only [show (s.blank false false false).firstWithoutLeaf t = s.firstWithoutLeaf t from rfl]
    cases s.firstWithoutLeaf t with
    | some i => rfl
    | none =>
      exact (output_ignores (packBits (s.codeStream t))).andThen
        (l := State.blank false false false) (fun _ => rfl) s

theorem compressBody_ignores : Ignores State.blankAll (State.blank false false false) compressBody :=
  (bothChecks_ignores.andThen emptyRegionCheck_ignores).andThen
    ((((countStep_ignores.andThen buildStep_ignores).andThen serializeStep_ignores).andThen
      wrlenStep_ignores).andThen packStep_ignores).forgetOnError

/-! ### DECOMPRESS -/

/-- DESERIALIZE writes TREE (42_tree_codec.md R236). -/
theorem deserializeStep_ignores (exact : Bool) :
    Ignores State.blankAll (State.blank true false true) (deserializeStep exact) :=
  inCheck_ignores.andThen <|
    .ite (c := fun s => s.regionLen < 18) (fun _ => .rfl) (fun _ => rfl) <|
    .ite (c := fun s => exact = true ∧ s.regionLen ≠ s.declaredLen) (fun _ => .rfl)
      (fun _ => rfl) <|
    .ite (c := fun s => exact = false ∧ s.regionLen < s.declaredLen) (fun _ => .rfl)
      (fun _ => rfl) fun s => by
        change (match s.parseBlob s.inPtr.toNat (s.inPtr.toNat + s.declaredLen) with
          | .error a => _ | .ok (t, _) => _ : StepResult).seen _ = _
        cases s.parseBlob s.inPtr.toNat (s.inPtr.toNat + s.declaredLen) <;> rfl

/-- RDLEN writes ORIG_LEN (43_bitstream.md R266). -/
theorem rdlenStep_ignores :
    Ignores (State.blank true false true) (State.blank true false false) rdlenStep :=
  inCheck_ignores.andThen <|
    .ite (c := fun s => s.regionLen < 8) (fun _ => .rfl) (fun _ => rfl) fun _ => rfl

/-- UNPACK reads TREE and ORIG_LEN and writes BIT_LEN (43_bitstream.md R276). -/
theorem unpackStep_ignores :
    Ignores (State.blank true false false) (State.blank true false false) unpackStep :=
  bothChecks_ignores.andThen <| .onTree (fun _ => rfl) err_ignores fun t =>
    .ite (c := fun s => s.overflows s.origLen.toNat = true) (fun _ => .rfl) (fun _ => rfl)
      fun s => by
        change (match unpackStream s.regionBit (8 * s.regionLen) t s.origLen.toNat with
          | .error m => _ | .ok (out, k) => _ : StepResult).seen _ = _
        cases unpackStream s.regionBit (8 * s.regionLen) t s.origLen.toNat <;> rfl

theorem decompressBody_ignores :
    Ignores State.blankAll (State.blank true false false) decompressBody :=
  bothChecks_ignores.andThen
    (((deserializeStep_ignores false).andThen rdlenStep_ignores).andThen
      unpackStep_ignores).forgetOnError

/-! ### Both -/

/-- A completion reads none of the blanked fields (60_exceptions.md R321, R322, R325). -/
theorem Ignores.blankAll_eq {freq tree orig : Bool} {f : State → StepResult} {s t s' t' : State}
    (hf : Ignores State.blankAll (State.blank freq tree orig) f) (hs : (f s).finish = .next s')
    (ht : (f t).finish = .next t') (hst : s.blankAll = t.blankAll) : s'.blankAll = t'.blankAll := by
  obtain ⟨u, v, hu, hv, huv⟩ | ⟨code, info, u, v, hu, hv, huv⟩ :=
    StepResult.cases_of_seen_eq (hf.congr hst)
  · rw [hu] at hs
    rw [hv] at ht
    obtain rfl := Host.Outcome.next.inj hs
    obtain rfl := Host.Outcome.next.inj ht
    exact (congrArg (fun w : State => w.blankAll.complete) huv :)
  · rw [hu] at hs
    rw [hv] at ht
    obtain rfl := Host.Outcome.next.inj hs
    obtain rfl := Host.Outcome.next.inj ht
    exact congrArg (State.abort code info) huv

/-- Settles O46: the two states are one where the fields are blanked, and so are the two outcomes. -/
theorem compositesCarryNothingOver : Obligations.CompositesCarryNothingOver := by
  unfold Obligations.CompositesCarryNothingOver
  intro i s s' t' F o N T f L P hi hs ht
  rw [exec_eq] at hs ht
  have hblank : t'.blankAll = s'.blankAll := by
    obtain rfl | rfl := hi
    · exact compressBody_ignores.blankAll_eq ht hs rfl
    · exact decompressBody_ignores.blankAll_eq ht hs rfl
  exact ⟨(congrArg State.obuf hblank :), (congrArg State.outLen hblank :),
    (congrArg State.inPtr hblank :), (congrArg State.resultCode hblank :),
    (congrArg State.errInfo hblank :)⟩

end Sys2Proof.Machine
end

section
/-! Every pending command, legal or illegal, ends in one of the two completions (60_exceptions.md R320 to
R325). -/

namespace Sys2Proof.Machine

/-- The engine's turn on a pending command is one completion of a state in which its body has left the host
state alone (60_exceptions.md R320). -/
theorem engineTurn_completes {s : State} {p : Pending} (hp : s.pend = some p) :
    ∃ u, SameHostState s u ∧ (engineTurn s = .next (u.finished p) ∨
      ∃ code info, code ≠ .ok ∧ engineTurn s = .next (u.aborted p code info)) := by
  cases hd : decode p.word with
  | ok i =>
    rw [engineTurn_legal hp hd]
    obtain ⟨s', hexec⟩ := exec_isNext i s
    rw [hexec]
    obtain ⟨u, -, hsame, rfl⟩ | ⟨code, info, u, -, hcode, hsame, rfl⟩ := exec_next hp hexec
    · exact ⟨u, hsame, .inl rfl⟩
    · exact ⟨u, hsame, .inr ⟨code, info, hcode, rfl⟩⟩
  | error e =>
    have hturn : engineTurn s = execIllegal s := by simp only [engineTurn, hp, hd]
    exact ⟨s, .refl s, .inr ⟨.illegalCommand, s.accepted.word, by decide,
      hturn.trans (finish_err hp rfl)⟩⟩

/-- Where the agenda gives the engine its turn, it has it in a state that differs in the draw epoch and the
agenda alone. -/
theorem step_eq_engineTurn {s : State} (h : s.agenda = [] ∨ ∃ rest, s.agenda = .engine :: rest) :
    ∃ t, t.pend = s.pend ∧ t.err = s.err ∧ step s = engineTurn t := by
  obtain hnil | ⟨rest, hcons⟩ := h
  · exact ⟨s.freshEpoch, rfl, rfl, step_agenda_nil hnil⟩
  · exact ⟨s.freshEpoch.withAgenda rest, rfl, rfl, step_engine hcons⟩

/-- A completion sets DONE, so irq follows the enables and ERR (10_state.md R53). -/
theorem State.irq_of_done {s : State} (h : s.done = true) :
    s.irq = (s.ieDone || (s.err && s.ieErr)) := by
  rw [State.irq, h, Bool.true_and]

/-- Settles O9: the two completions, field by field. -/
theorem everyCommandCompletes : Obligations.EveryCommandCompletes := by
  unfold Obligations.EveryCommandCompletes
  intro s p hp hag
  obtain ⟨t, htpend, hterr, hstep⟩ := step_eq_engineTurn hag
  obtain ⟨u, hsame, hturn | ⟨code, info, hcode, hturn⟩⟩ := engineTurn_completes (htpend.trans hp)
  · exact ⟨_, hstep.trans hturn, rfl, rfl, rfl, rfl, State.irq_of_done rfl,
      fun _ => ⟨rfl, hsame.err.trans hterr⟩, fun hne => absurd rfl hne⟩
  · exact ⟨_, hstep.trans hturn, rfl, rfl, rfl, rfl, State.irq_of_done rfl,
      fun hok => absurd hok hcode, fun _ => ⟨rfl, rfl, rfl⟩⟩

end Sys2Proof.Machine
end

section
/-! The state after an abort (60_exceptions.md R326): what an aborted body may have written, and what is
left of OBUF. -/

namespace Sys2Proof.Machine

/-! ### What an aborted body has written -/

/-- The fields, the cursors aside, that an abort of each command may leave changed (60_exceptions.md
R326). -/
def changedByAbort : Instr → List CommandField
  | .nop | .clear | .count | .path _ | .serialize | .wrlen | .rdlen | .pack => []
  | .build | .deserialize _ => [.tree]
  | .unpack => [.obuf]
  | .compress => [.origLen, .tree, .freq, .obuf]
  | .decompress => [.origLen, .tree, .obuf]

/-- A step result that ends in an error has written at most the fields in `W`. -/
abbrev StepResult.ErrWrites (W : List CommandField) (s : State) (r : StepResult) : Prop :=
  r.Spec (fun _ => True) fun _ _ u => SameOff W s u

theorem StepResult.Spec.of_err {O : State → Prop} {E : ResultCode → Word → State → Prop}
    {r : StepResult} {code : ResultCode} {info : Word} {u : State} (h : r.Spec O E)
    (hr : r = .err code info u) : E code info u := by
  subst hr
  exact h

/-- A body whose errors leave the state as it was. -/
theorem StepResult.Spec.errWrites_of_eq {O : State → Prop} {E : ResultCode → Word → State → Prop}
    {W : List CommandField} {s : State} {r : StepResult} (h : r.Spec O E)
    (hE : ∀ code info u, E code info u → u = s) : r.ErrWrites W s :=
  h.imp (fun _ _ => trivial) fun _ _ _ he => hE _ _ _ he ▸ .refl W s

theorem SameOff.errWrites {V W : List CommandField} {s : State} {r : StepResult}
    (h : r.All (SameOff V s)) (hVW : V ⊆ W) : r.ErrWrites W s :=
  h.imp (fun _ _ => trivial) fun _ _ _ h => h.mono hVW

/-- The last step of a sequence adds what its own error has written. -/
theorem SameOff.andThen_errWrites {V W : List CommandField} {s : State} {r : StepResult}
    {f : State → StepResult} (hr : r.All (SameOff W s)) (hVW : V ⊆ W)
    (hf : ∀ s, (f s).ErrWrites V s) : (r.andThen f).ErrWrites W s :=
  StepResult.Spec.andThen hr (fun _ _ _ h => h) fun u hu =>
    (hf u).imp (fun _ _ => trivial) fun _ _ _ h => hu.trans (h.mono hVW)

theorem SameOff.errWrites_forgetOnError {W : List CommandField} {s : State} {r : StepResult}
    (hW : .obuf ∈ W) (hr : r.ErrWrites W s) : r.forgetOnError.ErrWrites W s := by
  cases r with
  | ok u => trivial
  | err code info u => exact SameOff.trans hr ((forgetOutput_writes u).mono (by simpa using hW))

/-- PACK writes BIT_LEN only where it ends well (43_bitstream.md R270). -/
theorem packStep_errWrites (s : State) : (packStep s).ErrWrites [] s :=
  (packStep_spec s).errWrites_of_eq fun _ _ _ ⟨hu, _⟩ => hu

/-- UNPACK writes BIT_LEN only where it ends well (43_bitstream.md R276). -/
theorem unpackStep_errWrites (s : State) : (unpackStep s).ErrWrites [.obuf] s :=
  (unpackStep_spec s).imp (fun _ _ => trivial) (by
    rintro _ _ _ (⟨rfl, _⟩ | ⟨rfl, _⟩)
    · exact .refl _ _
    · exact forgetOutput_writes s)

theorem compressSteps_errWrites (s : State) :
    (compressSteps s).ErrWrites (.inPtr :: .outLen :: changedByAbort .compress) s := by
  have hcount := (countStep_writes s).all_mono
    (W := .inPtr :: .outLen :: changedByAbort .compress) (by simp [changedByAbort])
  have hbuild := SameOff.andThen hcount (by simp [changedByAbort]) buildStep_writes
  have hserialize := SameOff.andThen hbuild (by simp [changedByAbort]) serializeStep_writes
  have hwrlen := SameOff.andThen hserialize (by simp [changedByAbort]) wrlenStep_writes
  have hpack := SameOff.andThen_errWrites hwrlen (by simp) packStep_errWrites
  exact SameOff.errWrites_forgetOnError (by simp [changedByAbort]) hpack

theorem decompressSteps_errWrites (s : State) :
    (decompressSteps s).ErrWrites (.inPtr :: .outLen :: changedByAbort .decompress) s := by
  have hdeserialize := (deserializeStep_writes false s).all_mono
    (W := .inPtr :: .outLen :: changedByAbort .decompress) (by simp [changedByAbort])
  have hrdlen := SameOff.andThen hdeserialize (by simp [changedByAbort]) rdlenStep_writes
  have hunpack := SameOff.andThen_errWrites hrdlen (by simp [changedByAbort]) unpackStep_errWrites
  exact SameOff.errWrites_forgetOnError (by simp [changedByAbort]) hunpack

theorem bodyOf_errWrites (i : Instr) (s : State) :
    (bodyOf i s).ErrWrites (.inPtr :: .outLen :: changedByAbort i) s := by
  cases i with
  | nop | clear => trivial
  | count => exact (countStep_spec s).errWrites_of_eq fun _ _ _ ⟨_, _, _, hu⟩ => hu
  | build => exact SameOff.errWrites (buildStep_writes s) (by simp [changedByAbort])
  | path v => exact (pathStep_spec v s).errWrites_of_eq fun _ _ _ ⟨_, _, _, hu⟩ => hu
  | serialize => exact (serializeStep_spec s).errWrites_of_eq fun _ _ _ ⟨hu, _⟩ => hu
  | deserialize e => exact SameOff.errWrites (deserializeStep_writes e s) (by simp [changedByAbort])
  | wrlen => exact (wrlenStep_spec s).errWrites_of_eq fun _ _ _ ⟨hu, _⟩ => hu
  | rdlen => exact (rdlenStep_spec s).errWrites_of_eq fun _ _ _ ⟨hu, _⟩ => hu
  | pack => exact (packStep_spec s).errWrites_of_eq fun _ _ _ ⟨hu, _⟩ => hu
  | unpack =>
    exact (unpackStep_errWrites s).imp (fun _ _ => trivial) fun _ _ _ h =>
      h.mono (by simp [changedByAbort])
  | compress =>
    exact SameOff.andThen_errWrites (SameOff.andThen (bothChecks_writes _ s) (by simp)
      emptyRegionCheck_writes) (List.Subset.refl _) compressSteps_errWrites
  | decompress =>
    exact SameOff.andThen_errWrites (bothChecks_writes _ s) (List.Subset.refl _)
      decompressSteps_errWrites

/-! ### TREE after an abort -/

theorem buildStep_err_tree {s u : State} {code : ResultCode} {info : Word}
    (h : buildStep s = .err code info u) : u.tree = none := by
  obtain ⟨-, -, -, rfl⟩ := (buildStep_spec s).of_err h
  rfl

/-- Of DESERIALIZE's errors `fail` alone writes TREE (42_tree_codec.md R236). -/
theorem deserializeStep_err_tree {e : Bool} {s u : State} {code : ResultCode} {info : Word}
    (h : deserializeStep e s = .err code info u) :
    u.tree = if code = .formatError then none else s.tree := by
  obtain ⟨-, rfl, -, rfl⟩ | ⟨-, rfl, rfl, -⟩ := (deserializeStep_spec e s).of_err h
  · rfl
  · rfl

/-! ### OBUF after an abort -/

theorem unpackStep_err_obuf {s u : State} {p : Pending} {code : ResultCode} {info : Word}
    (hruns : s.runs p) (h : unpackStep s = .err code info u) :
    if code = .truncatedStream then s.obuf.forgotten u.obuf s.outLen.toNat else u.obuf = s.obuf := by
  obtain ⟨hp, -, hout⟩ := hruns
  obtain ⟨rfl, hcode⟩ | ⟨rfl, -, -, _, _, -, -, -, rfl, -⟩ := (unpackStep_spec s).of_err h
  · have hne : code ≠ .truncatedStream := by
      obtain ⟨rfl, -⟩ | ⟨-, -, ⟨-, rfl, -⟩ | ⟨-, -, rfl, -⟩⟩ := hcode <;> decide
    rw [if_neg hne]
  · rw [if_pos rfl, State.forgetOutput_obuf, State.accepted_of_pend hp, hout]
    exact s.obuf.forgetFrom_forgotten _

/-- Between the steps of a composite command that started in `s`: its region checks would pass again, and
OBUF has been written from OUT_LEN0 on alone. -/
structure Underway (s t : State) : Prop where
  params : t.paramsOk = true
  pend : t.pend = s.pend
  inRegionOk : t.inRegionOk = true
  outRegionOk : t.outRegionOk = true
  outLen_le : s.outLen.toNat ≤ t.outLen.toNat
  obuf : ∀ x, x < s.outLen.toNat → t.obuf.read? x = s.obuf.read? x

/-- An error in the steps of a composite command that started in `s`, before OBUF is forgotten: it has
neither of the codes of the command's own checks (log 18). -/
structure LateAbort (s : State) (code : ResultCode) (info : Word) (u : State) : Prop where
  not_badRegion : code ≠ .badRegion
  not_emptyInput : code ≠ .emptyInput
  pend : u.pend = s.pend
  obuf : ∀ x, x < s.outLen.toNat → u.obuf.read? x = s.obuf.read? x

theorem Underway.refl {s : State} (hpar : s.paramsOk = true) (hi : s.inRegionOk = true)
    (ho : s.outRegionOk = true) : Underway s s :=
  ⟨hpar, rfl, hi, ho, le_rfl, fun _ _ => rfl⟩

section
variable {s t : State} (h : Underway s t)
include h

theorem Underway.lateAbort {code : ResultCode} (info : Word) (hbad : code ≠ .badRegion)
    (hempty : code ≠ .emptyInput) : LateAbort s code info t :=
  ⟨hbad, hempty, h.pend, h.obuf⟩

theorem Underway.not_inRegionOk_false : t.inRegionOk ≠ false := by
  simp [h.inRegionOk]

theorem Underway.not_outRegionOk_false : t.outRegionOk ≠ false := by
  simp [h.outRegionOk]

/-- An append that fits stays above OUT_LEN0. -/
theorem Underway.emit {b : List Byte} (hfit : t.outLen.toNat + b.length ≤ t.obufSize) :
    Underway s (t.emit b) where
  params := h.params
  pend := h.pend
  inRegionOk := h.inRegionOk
  outRegionOk := State.outRegionOk_emit h.params hfit
  outLen_le := by
    rw [State.emit_outLen_toNat h.params hfit]
    exact h.outLen_le.trans (Nat.le_add_right _ _)
  obuf := fun x hx => ((t.obuf.writeBytes_stored _ b).2 x (.inl (hx.trans_le h.outLen_le))).trans
    (h.obuf x hx)

/-- IN_PTR that advances inside the region leaves a legal region. -/
theorem Underway.advance {n : Nat} (hn : n ≤ t.regionLen) (tree : Option HufTree) (origLen : DWord) :
    Underway s { t with
      inPtr := BitVec.ofNat 32 (t.inPtr.toNat + n), tree := tree, origLen := origLen } := by
  refine { h with inRegionOk := State.inRegionOk_iff.mpr ?_ }
  obtain ⟨hle, hsize⟩ := State.inRegionOk_iff.mp h.inRegionOk
  have hlt := t.inLen.isLt
  rw [State.regionLen] at hn
  refine ⟨?_, hsize⟩
  change _ ≤ t.inLen.toNat
  rw [toNat_ofNat_word (by omega)]
  omega

theorem serializeStep_underway : (serializeStep t).Spec (Underway s) (LateAbort s) :=
  (serializeStep_spec t).imp (by rintro _ ⟨_, _, _, _, _, hfit, rfl⟩; exact h.emit hfit) (by
    rintro _ info _ ⟨rfl, ⟨hbad, -⟩ | ⟨-, -, rfl, -⟩ | ⟨-, _, -, -, rfl, -⟩ |
      ⟨-, _, _, -, -, -, rfl, -⟩⟩
    · exact absurd hbad h.not_outRegionOk_false
    all_goals exact h.lateAbort _ (by decide) (by decide))

theorem wrlenStep_underway : (wrlenStep t).Spec (Underway s) (LateAbort s) :=
  (wrlenStep_spec t).imp
    (by rintro _ ⟨_, hfit, rfl⟩; exact h.emit (by rwa [toBE_length])) (by
    rintro _ _ _ ⟨rfl, ⟨hbad, -⟩ | ⟨-, -, rfl, -⟩⟩
    · exact absurd hbad h.not_outRegionOk_false
    · exact h.lateAbort _ (by decide) (by decide))

theorem packStep_lateAbort : (packStep t).Spec (fun _ => True) (LateAbort s) :=
  (packStep_spec t).imp (fun _ _ => trivial) (by
    rintro _ _ _ ⟨rfl, ⟨-, ⟨hbad, -⟩ | ⟨-, hbad, -⟩⟩ | ⟨-, -, ⟨-, rfl, -⟩ | ⟨_, _, -, -, rfl, -⟩ |
      ⟨_, -, -, -, rfl, -⟩⟩⟩
    · exact absurd hbad h.not_inRegionOk_false
    · exact absurd hbad h.not_outRegionOk_false
    all_goals exact h.lateAbort _ (by decide) (by decide))

theorem deserializeStep_underway (e : Bool) :
    (deserializeStep e t).Spec (Underway s) (LateAbort s) :=
  (deserializeStep_spec e t).imp
    (by rintro _ ⟨_, tree, _, hlen, _, _, rfl⟩; exact h.advance hlen (some tree) t.origLen) (by
    rintro _ _ _ (⟨hbad, -⟩ | ⟨-, rfl, rfl, -⟩)
    · exact absurd hbad h.not_inRegionOk_false
    · exact ⟨by decide, by decide, h.pend, h.obuf⟩)

theorem rdlenStep_underway : (rdlenStep t).Spec (Underway s) (LateAbort s) :=
  (rdlenStep_spec t).imp
    (by
      rintro _ ⟨_, hlen, rfl⟩
      have hadvance := h.advance hlen t.tree
        (BitVec.ofNat 64 (ofBE (t.ibufBytes .length t.inPtr.toNat 8)))
      rwa [BitVec.ofNat_add, BitVec.ofNat_toNat, BitVec.setWidth_eq] at hadvance) (by
    rintro _ _ _ ⟨rfl, ⟨hbad, -⟩ | ⟨-, -, rfl, -⟩⟩
    · exact absurd hbad h.not_inRegionOk_false
    · exact h.lateAbort _ (by decide) (by decide))

theorem unpackStep_lateAbort {p : Pending} (hruns : s.runs p) :
    (unpackStep t).Spec (fun _ => True) (LateAbort s) :=
  (unpackStep_spec t).imp (fun _ _ => trivial) (by
    rintro _ _ _ (⟨rfl, ⟨-, ⟨hbad, -⟩ | ⟨-, hbad, -⟩⟩ | ⟨-, -, ⟨-, rfl, -⟩ | ⟨-, -, rfl, -⟩⟩⟩ |
      ⟨rfl, -, -, _, _, -, -, -, rfl, -⟩)
    · exact absurd hbad h.not_inRegionOk_false
    · exact absurd hbad h.not_outRegionOk_false
    · exact h.lateAbort _ (by decide) (by decide)
    · exact h.lateAbort _ (by decide) (by decide)
    · exact ⟨by decide, by decide, h.pend, fun x hx =>
        (State.forgetOutput_read? hruns h.pend hx).trans (h.obuf x hx)⟩)

end

/-- BUILD after COUNT of a nonempty region makes a tree, whatever its unwritten bytes are drawn as
(44_pipeline.md R301). -/
theorem countBuild_underway {s : State} (h : Underway s s) (hne : s.inPtr ≠ s.inLen) :
    ((countStep s).andThen buildStep).Spec (Underway s) (LateAbort s) := by
  refine (countStep_spec s).andThen
    (fun _ _ _ hbad => absurd hbad.1 h.not_inRegionOk_false) ?_
  rintro _ ⟨-, rfl⟩
  refine (buildStep_spec _).imp ?_ ?_
  · rintro _ ⟨t, -, rfl⟩
    exact { h with }
  · rintro _ _ _ ⟨hnone, -⟩
    have hlt := s.regionLen_lt
    have hlen := s.region_length .count
    obtain ⟨hle, -⟩ := State.inRegionOk_iff.mp h.inRegionOk
    have hregion : s.region .count ≠ [] := by
      rw [← List.length_pos_iff, hlen, State.regionLen]
      have := mt BitVec.eq_of_toNat_eq hne
      omega
    obtain ⟨t, ht⟩ := buildTree_countBytes hregion (by omega)
    rw [ht] at hnone
    cases hnone

/-- OBUF after a composite command's abort (60_exceptions.md R326 point 4, log 18). -/
def OutputAfterComposite (s : State) (code : ResultCode) (u : State) : Prop :=
  if code ≠ .badRegion ∧ code ≠ .emptyInput then s.obuf.forgotten u.obuf s.outLen.toNat
  else u.obuf = s.obuf

theorem LateAbort.forgetOnError {O : State → Prop} {s : State} {p : Pending} {r : StepResult}
    (hruns : s.runs p) (hr : r.Spec O (LateAbort s)) :
    r.forgetOnError.Spec (fun _ => True) fun code _ u => OutputAfterComposite s code u := by
  cases r with
  | ok u => trivial
  | err code info u =>
    obtain ⟨hbad, hempty, hpend, hobuf⟩ := hr
    obtain ⟨hp, -, hout⟩ := hruns
    change OutputAfterComposite s code u.forgetOutput
    rw [OutputAfterComposite, if_pos ⟨hbad, hempty⟩, State.forgetOutput_obuf,
      State.accepted_of_pend (hpend.trans hp), hout]
    exact Memory.forgotten_forgetFrom hobuf

theorem OutputAfterComposite.of_badRegion (s : State) : OutputAfterComposite s .badRegion s := rfl

theorem OutputAfterComposite.of_emptyInput (s : State) : OutputAfterComposite s .emptyInput s := rfl

theorem compressBody_output {s : State} {p : Pending} (hruns : s.runs p) (hpar : s.paramsOk = true) :
    (compressBody s).Spec (fun _ => True) fun code _ u => OutputAfterComposite s code u := by
  have hchecks : (((inCheck s).andThen outCheck).andThen emptyRegionCheck).Spec
      (fun t => t = s ∧ s.inPtr ≠ s.inLen ∧ s.inRegionOk = true ∧ s.outRegionOk = true)
      fun code _ u => OutputAfterComposite s code u := by
    refine (bothChecks_spec s).andThen (by rintro _ _ _ ⟨rfl, rfl, -⟩; exact .of_badRegion _) ?_
    rintro s ⟨hi, ho, rfl⟩
    exact (emptyRegionCheck_spec s).imp (fun _ ⟨hne, heq⟩ => ⟨heq, hne, hi, ho⟩)
      (by rintro _ _ _ ⟨rfl, -, rfl, -⟩; exact .of_emptyInput _)
  refine hchecks.andThen (fun _ _ _ h => h) ?_
  rintro s ⟨rfl, hne, hi, ho⟩
  have hstart := countBuild_underway (.refl hpar hi ho) hne
  exact LateAbort.forgetOnError hruns <|
    ((hstart.andThen (fun _ _ _ h => h) fun _ => serializeStep_underway).andThen
      (fun _ _ _ h => h) fun _ => wrlenStep_underway).andThen
      (fun _ _ _ h => h) fun _ => packStep_lateAbort

theorem decompressBody_output {s : State} {p : Pending} (hruns : s.runs p)
    (hpar : s.paramsOk = true) :
    (decompressBody s).Spec (fun _ => True) fun code _ u => OutputAfterComposite s code u := by
  refine (bothChecks_spec s).andThen (by rintro _ _ _ ⟨rfl, rfl, -⟩; exact .of_badRegion _) ?_
  rintro s ⟨hi, ho, rfl⟩
  have hstart := deserializeStep_underway (.refl hpar hi ho) false
  exact LateAbort.forgetOnError hruns <|
    (hstart.andThen (fun _ _ _ h => h) fun _ => rdlenStep_underway).andThen
      (fun _ _ _ h => h) fun _ h => unpackStep_lateAbort h hruns

/-! ### The state after an abort -/

/-- What `exec` answers with a code other than OK is the body's error, aborted. -/
theorem exec_abort {i : Instr} {s s' : State} {p : Pending} (hp : s.pend = some p)
    (h : exec i s = .next s') (hcode : s'.resultCode ≠ .ok) :
    ∃ code info u, bodyOf i s = .err code info u ∧ SameHostState s u ∧
      s' = u.aborted p code info := by
  obtain ⟨u, -, -, rfl⟩ | ⟨code, info, u, hu, -, hsame, rfl⟩ := exec_next hp h
  · exact absurd rfl hcode
  · exact ⟨code, info, u, hu, hsame, rfl⟩

/-- OBUF after an abort, by command and code (60_exceptions.md R326 point 4, log 18). -/
theorem bodyOf_err_obuf {i : Instr} {s u : State} {p : Pending} {code : ResultCode} {info : Word}
    (hruns : s.runs p) (hpar : s.paramsOk = true) (hu : bodyOf i s = .err code info u) :
    if (i = .unpack ∧ code = .truncatedStream) ∨
        ((i = .compress ∨ i = .decompress) ∧ code ≠ .badRegion ∧ code ≠ .emptyInput)
      then s.obuf.forgotten u.obuf s.outLen.toNat else u.obuf = s.obuf := by
  cases i with
  | unpack => simpa using unpackStep_err_obuf hruns hu
  | compress =>
    simpa [OutputAfterComposite] using (compressBody_output hruns hpar).of_err hu
  | decompress =>
    simpa [OutputAfterComposite] using (decompressBody_output hruns hpar).of_err hu
  | nop | clear | count | build | path _ | serialize | deserialize _ | wrlen | rdlen | pack =>
    exact (if_neg (by simp)).mpr ((bodyOf_errWrites _ s).of_err hu .obuf (by simp [changedByAbort]))

/-- Settles O11: the abort puts the cursors back, and the fields that an aborted body may have written are
those of `changedByAbort`. -/
theorem abortRestoresAndKeeps : Obligations.AbortRestoresAndKeeps := by
  unfold Obligations.AbortRestoresAndKeeps
  intro i s s' p hruns hpar hexec hcode
  have ⟨hp, hinPtr, houtLen⟩ := hruns
  obtain ⟨code, info, u, hu, hsame, rfl⟩ := exec_abort hp hexec hcode
  have hw := (bodyOf_errWrites i s).of_err hu
  obtain ⟨hfound, hlen, hbits⟩ := hw .path (by cases i <;> simp [changedByAbort])
  have hobuf := bodyOf_err_obuf hruns hpar hu
  refine ⟨hinPtr, houtLen, hw .inLen ?_, hw .bitLen ?_, hsame.ieDone, hsame.ieErr, hsame.ibuf,
    hsame.hostConflict, hsame.cmdDropped, hfound, hlen, hbits, by
      rintro rfl
      exact (buildStep_err_tree hu :), by
      rintro e rfl
      exact (deserializeStep_err_tree hu :), fun _ _ _ _ => hw .tree ?_, fun _ => hw .freq ?_,
    fun _ _ => hw .origLen ?_, hobuf⟩
  -- a field that no abort of the command changes is not on its list
  all_goals cases i <;> simp_all [changedByAbort]

end Sys2Proof.Machine
end

section
/-! The reset state, as the host reads it and as the reset input leaves it
(70_reset_and_hazards.md R360, R361, R363). -/

namespace Sys2Proof.Machine

/-! ### Reading the reset state -/

theorem State.reads_of_readReg {s : State} {r : Reg} {v : Word} (h : s.readReg r = v) :
    s.reads (BitVec.ofNat 32 r.offset) v := h ▸ s.reads_reg r

theorem State.ctrlWord_resetWith (n m : Nat) : (State.resetWith n m).ctrlWord = 0 := by
  rw [State.ctrlWord]
  exact (by decide : (BitVec.ofBoolListLE [false, false]).setWidth 32 = 0)

theorem State.statusWord_resetWith (n m : Nat) : (State.resetWith n m).statusWord = 0 := by
  rw [State.statusWord]
  exact (by decide : (BitVec.ofBoolListLE (List.replicate 8 false)).setWidth 32 = 0)

theorem State.resultWord_resetWith (n m : Nat) : (State.resetWith n m).resultWord = 0 := by
  rw [State.resultWord]
  exact (by decide : (0 : BitVec 16) ++ (0 : Byte) ++ ResultCode.ok.toByte = 0)

/-- Every register but the two constants and the two parameters is 0 at reset: the fields by their reset
values, the tree summaries because there is no tree (70_reset_and_hazards.md R361). -/
theorem State.readReg_resetWith (n m : Nat) {r : Reg}
    (h : r ∉ [Reg.id, .version, .ibufSizeReg, .obufSizeReg]) :
    (State.resetWith n m).readReg r = 0 := by
  obtain ⟨hleaves, hblob, hweight, hmap⟩ :=
    State.summaries_none (s := State.resetWith n m) rfl
  cases r with
  | id | version | ibufSizeReg | obufSizeReg => simp at h
  | nLeaves => rw [State.readReg, hleaves]; rfl
  | blobLen => exact hblob
  | rootWeight j => rw [State.readReg, hweight, wordOf_zero]
  | leafMap j => rw [State.readReg, hmap, wordOf_zero]
  | pathBits j => exact wordOf_zero j.val
  | origLenLo | origLenHi | bitLenLo | bitLenHi => exact wordOf_zero _
  | ctrl => exact State.ctrlWord_resetWith n m
  | status => exact State.statusWord_resetWith n m
  | result => exact State.resultWord_resetWith n m
  | cmd | errInfo | inLen | inPtr | outLen | pathLen | reserved => rfl

/-- Settles O12, register by register; FREQ is the zero table and the buffers list no byte. -/
theorem resetValues : Obligations.ResetValues := by
  unfold Obligations.ResetValues
  intro n m s
  have hzero : ∀ r : Reg, r ∉ [Reg.id, .version, .ibufSizeReg, .obufSizeReg] →
      s.reads (BitVec.ofNat 32 r.offset) 0 := fun _ hr =>
    State.reads_of_readReg (State.readReg_resetWith n m hr)
  exact ⟨s.reads_reg .id, s.reads_reg .version, s.reads_reg .ibufSizeReg, s.reads_reg .obufSizeReg,
    hzero .ctrl (by decide), hzero .status (by decide), hzero .cmd (by decide),
    hzero .result (by decide), hzero .errInfo (by decide), hzero .inLen (by decide),
    hzero .inPtr (by decide), hzero .outLen (by decide), hzero .origLenLo (by decide),
    hzero .origLenHi (by decide), hzero .bitLenLo (by decide), hzero .bitLenHi (by decide),
    hzero .nLeaves (by decide), hzero .blobLen (by decide), hzero .pathLen (by decide),
    fun j hj => hzero (.rootWeight ⟨j, hj⟩) (by simp),
    fun j hj => hzero (.pathBits ⟨j, hj⟩) (by simp),
    fun j hj => hzero (.leafMap ⟨j, hj⟩) (by simp),
    FreqTable.get_zero, rfl, rfl, rfl, fun _ => rfl, fun _ => rfl⟩

/-! ### The reset input as a step -/

theorem step_reset {s : State} {rest : List Event} (h : s.agenda = .reset :: rest) :
    step s = .next (s.freshEpoch.withAgenda rest).resetInput := by
  simp only [step, h]

/-- Settles O13: the new draw epoch and the rest of the agenda are what `resetInput` keeps (log 13). -/
theorem resetInputRestoresResetState : Obligations.ResetInputRestoresResetState := by
  unfold Obligations.ResetInputRestoresResetState
  intro s rest h
  exact step_reset h

end Sys2Proof.Machine
end
